-- ==== Sys2Proof/Word.lean ====
section
/-! DEFINITION. The word types of the core (00_scope.md R6, R10): 32-bit registers and addresses, 8-bit bytes,
5-bit register indices. `+` and `-` on a `Word` are modulo 2^32, as `BitVec` gives them. -/

namespace Sys2Proof

/-- A register value, an address or a pc value (R10). -/
abbrev Word := BitVec 32

/-- The smallest addressable unit of memory (R38). -/
abbrev Byte := BitVec 8

/-- A register index 0 to 31; every value names a register (R67). -/
abbrev Reg := BitVec 5

end Sys2Proof
end

