-- ==== Sys2Proof/Machine/Bits.lean ====
section
/-! DEFINITION. Bit-field, sign-extension and byte-order helpers: the notation of 00_scope.md R9, R11, R12, the
document's bit utilities (R17), and the little-endian reading and writing of a value (20_memory.md R42, R43). -/

namespace Sys2Proof

/-- `inst[lo+n-1 : lo]`, as a field of its own width (R9). -/
def field (w : Word) (lo n : Nat) : BitVec n := w.extractLsb' lo n

/-- The word whose low `n` bits are 1. -/
def lowMask (n : Nat) : Word := BitVec.ofNat 32 (2 ^ n - 1)

/-- `extractBits(v, shift, size)` = `v[shift+size-1 : shift]`, zero-extended, with precondition
`shift + size <= 32` (R9; outside it: log 33). -/
def extractBits (v : Word) (shift size : Nat) : Word := (v >>> shift) &&& lowMask size

/-- `extractBitRange(v, hi, lo)` = `v[hi:lo]`, with `hi >= lo` (R9). -/
def extractBitRange (v : Word) (hi lo : Nat) : Word := extractBits v lo (hi - lo + 1)

/-- `insertBits(dest, src, shift, size)` (R17). -/
def insertBits (dest src : Word) (shift size : Nat) : Word :=
  (dest &&& ~~~(lowMask size <<< shift)) ||| ((src &&& lowMask size) <<< shift)

/-- `roundUpToMultipleOf4(n)` = `(n + 3) & ~3` (R17). -/
def roundUpToMultipleOf4 (n : Word) : Word := (n + 3) &&& ~~~(3 : Word)

/-- `sext_N(v)`: copies bit N-1 of `v` into bits 31..N (R12). -/
def sext (n : Nat) (v : Word) : Word := (v.setWidth n).signExtend 32

/-- `zext_N(v)`: keeps the low N bits of `v` (R12). -/
def zext (n : Nat) (v : Word) : Word := (v.setWidth n).setWidth 32

/-- The value of a little-endian run of bytes: the first byte is the least significant (R42, R47). -/
def leValue : List Byte → Nat
  | [] => 0
  | b :: bs => b.toNat + 256 * leValue bs

/-- The low `8 * n` bits of `v` as `n` bytes, least significant first: byte `k` is `v[8k+7 : 8k]` (R42, R48). -/
def leBytes : Nat → Nat → List Byte
  | 0, _ => []
  | n + 1, v => BitVec.ofNat 8 v :: leBytes n (v / 256)

end Sys2Proof
end

