-- ==== Sys2Proof/Syntax.lean ====
section
/-! DEFINITION. The instructions: one constructor for each of the 40 rows of spec/opcode_table.json (30_encoding.md
R74 to R85). Operands stand in the order of the assembler (R92, R93). An `imm` is the 12-bit field before extension
(R68, R69); `imm20` is `inst[31:12]` (R71); an `offset` is the assembled byte offset before extension, of 13 bits
for a branch (R70) and 21 bits for JAL (R72), whose bit 0 an instruction word always gives as 0 (log 35). -/

namespace Sys2Proof

inductive Instr where
  -- upper immediates (41_upper_immediate.md)
  | lui (rd : Reg) (imm20 : BitVec 20)
  | auipc (rd : Reg) (imm20 : BitVec 20)
  -- jumps (42_jumps.md)
  | jal (rd : Reg) (offset : BitVec 21)
  | jalr (rd rs1 : Reg) (imm : BitVec 12)
  -- conditional branches (47_branches.md)
  | beq (rs1 rs2 : Reg) (offset : BitVec 13)
  | bne (rs1 rs2 : Reg) (offset : BitVec 13)
  | blt (rs1 rs2 : Reg) (offset : BitVec 13)
  | bge (rs1 rs2 : Reg) (offset : BitVec 13)
  | bltu (rs1 rs2 : Reg) (offset : BitVec 13)
  | bgeu (rs1 rs2 : Reg) (offset : BitVec 13)
  -- loads, `LW rd, imm(rs1)` (45_loads.md)
  | lb (rd rs1 : Reg) (imm : BitVec 12)
  | lh (rd rs1 : Reg) (imm : BitVec 12)
  | lw (rd rs1 : Reg) (imm : BitVec 12)
  | lbu (rd rs1 : Reg) (imm : BitVec 12)
  | lhu (rd rs1 : Reg) (imm : BitVec 12)
  -- stores, `SW rs2, imm(rs1)` (46_stores.md)
  | sb (rs2 rs1 : Reg) (imm : BitVec 12)
  | sh (rs2 rs1 : Reg) (imm : BitVec 12)
  | sw (rs2 rs1 : Reg) (imm : BitVec 12)
  -- register-immediate (43_op_imm.md)
  | addi (rd rs1 : Reg) (imm : BitVec 12)
  | slti (rd rs1 : Reg) (imm : BitVec 12)
  | sltiu (rd rs1 : Reg) (imm : BitVec 12)
  | xori (rd rs1 : Reg) (imm : BitVec 12)
  | ori (rd rs1 : Reg) (imm : BitVec 12)
  | andi (rd rs1 : Reg) (imm : BitVec 12)
  | slli (rd rs1 : Reg) (shamt : BitVec 5)
  | srli (rd rs1 : Reg) (shamt : BitVec 5)
  | srai (rd rs1 : Reg) (shamt : BitVec 5)
  -- register-register (44_op.md)
  | add (rd rs1 rs2 : Reg)
  | sub (rd rs1 rs2 : Reg)
  | sll (rd rs1 rs2 : Reg)
  | slt (rd rs1 rs2 : Reg)
  | sltu (rd rs1 rs2 : Reg)
  | xor (rd rs1 rs2 : Reg)
  | srl (rd rs1 rs2 : Reg)
  | sra (rd rs1 rs2 : Reg)
  | or (rd rs1 rs2 : Reg)
  | and (rd rs1 rs2 : Reg)
  -- fence and system: no operand is read (48_system_fence.md; log 34)
  | fence
  | ecall
  | ebreak
  deriving DecidableEq, Repr

/-- The row's mnemonic in spec/opcode_table.json. -/
def Instr.mnemonic : Instr → String
  | .lui .. => "LUI" | .auipc .. => "AUIPC" | .jal .. => "JAL" | .jalr .. => "JALR"
  | .beq .. => "BEQ" | .bne .. => "BNE" | .blt .. => "BLT" | .bge .. => "BGE" | .bltu .. => "BLTU" | .bgeu .. => "BGEU"
  | .lb .. => "LB" | .lh .. => "LH" | .lw .. => "LW" | .lbu .. => "LBU" | .lhu .. => "LHU"
  | .sb .. => "SB" | .sh .. => "SH" | .sw .. => "SW"
  | .addi .. => "ADDI" | .slti .. => "SLTI" | .sltiu .. => "SLTIU" | .xori .. => "XORI" | .ori .. => "ORI"
  | .andi .. => "ANDI" | .slli .. => "SLLI" | .srli .. => "SRLI" | .srai .. => "SRAI"
  | .add .. => "ADD" | .sub .. => "SUB" | .sll .. => "SLL" | .slt .. => "SLT" | .sltu .. => "SLTU"
  | .xor .. => "XOR" | .srl .. => "SRL" | .sra .. => "SRA" | .or .. => "OR" | .and .. => "AND"
  | .fence => "FENCE" | .ecall => "ECALL" | .ebreak => "EBREAK"

/-- The destination register field of the formats that have one (R22, R65). -/
def Instr.rd? : Instr → Option Reg
  | .lui rd _ | .auipc rd _ | .jal rd _ | .jalr rd _ _ => some rd
  | .lb rd _ _ | .lh rd _ _ | .lw rd _ _ | .lbu rd _ _ | .lhu rd _ _ => some rd
  | .addi rd _ _ | .slti rd _ _ | .sltiu rd _ _ | .xori rd _ _ | .ori rd _ _ | .andi rd _ _ => some rd
  | .slli rd _ _ | .srli rd _ _ | .srai rd _ _ => some rd
  | .add rd _ _ | .sub rd _ _ | .sll rd _ _ | .slt rd _ _ | .sltu rd _ _ => some rd
  | .xor rd _ _ | .srl rd _ _ | .sra rd _ _ | .or rd _ _ | .and rd _ _ => some rd
  | .beq .. | .bne .. | .blt .. | .bge .. | .bltu .. | .bgeu .. | .sb .. | .sh .. | .sw .. => none
  | .fence | .ecall | .ebreak => none

/-- The first source register field of the instructions that read one (R22, R65). -/
def Instr.rs1? : Instr → Option Reg
  | .lui .. | .auipc .. | .jal .. => none
  | .jalr _ rs1 _ => some rs1
  | .beq rs1 _ _ | .bne rs1 _ _ | .blt rs1 _ _ | .bge rs1 _ _ | .bltu rs1 _ _ | .bgeu rs1 _ _ => some rs1
  | .lb _ rs1 _ | .lh _ rs1 _ | .lw _ rs1 _ | .lbu _ rs1 _ | .lhu _ rs1 _ => some rs1
  | .sb _ rs1 _ | .sh _ rs1 _ | .sw _ rs1 _ => some rs1
  | .addi _ rs1 _ | .slti _ rs1 _ | .sltiu _ rs1 _ | .xori _ rs1 _ | .ori _ rs1 _ | .andi _ rs1 _ => some rs1
  | .slli _ rs1 _ | .srli _ rs1 _ | .srai _ rs1 _ => some rs1
  | .add _ rs1 _ | .sub _ rs1 _ | .sll _ rs1 _ | .slt _ rs1 _ | .sltu _ rs1 _ => some rs1
  | .xor _ rs1 _ | .srl _ rs1 _ | .sra _ rs1 _ | .or _ rs1 _ | .and _ rs1 _ => some rs1
  | .fence | .ecall | .ebreak => none

/-- The second source register field of the instructions that read one (R22, R65). -/
def Instr.rs2? : Instr → Option Reg
  | .beq _ rs2 _ | .bne _ rs2 _ | .blt _ rs2 _ | .bge _ rs2 _ | .bltu _ rs2 _ | .bgeu _ rs2 _ => some rs2
  | .sb rs2 _ _ | .sh rs2 _ _ | .sw rs2 _ _ => some rs2
  | .add _ _ rs2 | .sub _ _ rs2 | .sll _ _ rs2 | .slt _ _ rs2 | .sltu _ _ rs2 => some rs2
  | .xor _ _ rs2 | .srl _ _ rs2 | .sra _ _ rs2 | .or _ _ rs2 | .and _ _ rs2 => some rs2
  | .lui .. | .auipc .. | .jal .. | .jalr .. => none
  | .lb .. | .lh .. | .lw .. | .lbu .. | .lhu .. => none
  | .addi .. | .slti .. | .sltiu .. | .xori .. | .ori .. | .andi .. | .slli .. | .srli .. | .srai .. => none
  | .fence | .ecall | .ebreak => none

end Sys2Proof
end

