-- ==== Sys2Proof/WellFormed.lean ====
section
/-! DEFINITION. The check on an instruction that its types do not make: a branch or JAL offset is even, because its
bit 0 has no place in the word (30_encoding.md R70, R72, R95). Every other operand is well formed at every value of
its type (R67, R68, R71, R73). -/

namespace Sys2Proof

/-- Bit 0 of a B-format offset is 0 (R70). -/
abbrev branchOffsetEven (offset : BitVec 13) : Prop := offset.getLsbD 0 = false

/-- Bit 0 of a J-format offset is 0 (R72). -/
abbrev jumpOffsetEven (offset : BitVec 21) : Prop := offset.getLsbD 0 = false

def Instr.wellFormed : Instr → Bool
  | .jal _ offset => decide (jumpOffsetEven offset)
  | .beq _ _ offset => decide (branchOffsetEven offset)
  | .bne _ _ offset => decide (branchOffsetEven offset)
  | .blt _ _ offset => decide (branchOffsetEven offset)
  | .bge _ _ offset => decide (branchOffsetEven offset)
  | .bltu _ _ offset => decide (branchOffsetEven offset)
  | .bgeu _ _ offset => decide (branchOffsetEven offset)
  | .lui .. | .auipc .. | .jalr .. => true
  | .lb .. | .lh .. | .lw .. | .lbu .. | .lhu .. | .sb .. | .sh .. | .sw .. => true
  | .addi .. | .slti .. | .sltiu .. | .xori .. | .ori .. | .andi .. | .slli .. | .srli .. | .srai .. => true
  | .add .. | .sub .. | .sll .. | .slt .. | .sltu .. | .xor .. | .srl .. | .sra .. | .or .. | .and .. => true
  | .fence | .ecall | .ebreak => true

/-- A well-formed instruction: one that an instruction word can say. -/
abbrev Instr.WellFormed (i : Instr) : Prop := i.wellFormed = true

end Sys2Proof
end

