-- ==== Sys2Proof/Decode.lean ====
section
/-! DEFINITION. The decoder of 30_encoding.md R75, total on every 32-bit word, with its three errors (R86 to R88);
the opcode table of spec/opcode_table.json as rows of match and mask; and the encoder, written from the formats of
R65. The funct3 values, and the funct7 values other than SLLI's and SRAI's, are those R75 lists (log 19). -/

namespace Sys2Proof

/-- Why a word is no instruction (60_exceptions.md R155). -/
inductive DecodeError where
  | unknownOpcode
  | unknownFunct
  | unknownSysImm
  deriving DecidableEq, Repr

/-! ### Fields and immediates (R64, R68 to R73) -/

def opcodeOf (w : Word) : BitVec 7 := field w 0 7
def rdOf (w : Word) : Reg := field w 7 5
def funct3Of (w : Word) : BitVec 3 := field w 12 3
def rs1Of (w : Word) : Reg := field w 15 5
def rs2Of (w : Word) : Reg := field w 20 5
def shamtOf (w : Word) : BitVec 5 := field w 20 5
def funct7Of (w : Word) : BitVec 7 := field w 25 7

/-- `inst[31:20]` (R68; the SYSTEM selector of R85). -/
def immIOf (w : Word) : BitVec 12 := field w 20 12
/-- `{inst[31:25], inst[11:7]}` (R69). -/
def immSOf (w : Word) : BitVec 12 := field w 25 7 ++ field w 7 5
/-- `{inst[31], inst[7], inst[30:25], inst[11:8], 0}` (R70). -/
def immBOf (w : Word) : BitVec 13 := field w 31 1 ++ field w 7 1 ++ field w 25 6 ++ field w 8 4 ++ 0#1
/-- `inst[31:12]` (R71). -/
def immUOf (w : Word) : BitVec 20 := field w 12 20
/-- `{inst[31], inst[19:12], inst[20], inst[30:21], 0}` (R72). -/
def immJOf (w : Word) : BitVec 21 := field w 31 1 ++ field w 12 8 ++ field w 20 1 ++ field w 21 10 ++ 0#1

/-! ### The decoder (R75) -/

/-- BRANCH selects by funct3 (R78). -/
def decodeBranch (w : Word) : Except DecodeError Instr :=
  match funct3Of w with
  | 0b000#3 => .ok (.beq (rs1Of w) (rs2Of w) (immBOf w))
  | 0b001#3 => .ok (.bne (rs1Of w) (rs2Of w) (immBOf w))
  | 0b100#3 => .ok (.blt (rs1Of w) (rs2Of w) (immBOf w))
  | 0b101#3 => .ok (.bge (rs1Of w) (rs2Of w) (immBOf w))
  | 0b110#3 => .ok (.bltu (rs1Of w) (rs2Of w) (immBOf w))
  | 0b111#3 => .ok (.bgeu (rs1Of w) (rs2Of w) (immBOf w))
  | _ => .error .unknownFunct

/-- LOAD selects by funct3 (R79). -/
def decodeLoad (w : Word) : Except DecodeError Instr :=
  match funct3Of w with
  | 0b000#3 => .ok (.lb (rdOf w) (rs1Of w) (immIOf w))
  | 0b001#3 => .ok (.lh (rdOf w) (rs1Of w) (immIOf w))
  | 0b010#3 => .ok (.lw (rdOf w) (rs1Of w) (immIOf w))
  | 0b100#3 => .ok (.lbu (rdOf w) (rs1Of w) (immIOf w))
  | 0b101#3 => .ok (.lhu (rdOf w) (rs1Of w) (immIOf w))
  | _ => .error .unknownFunct

/-- STORE selects by funct3 (R80). -/
def decodeStore (w : Word) : Except DecodeError Instr :=
  match funct3Of w with
  | 0b000#3 => .ok (.sb (rs2Of w) (rs1Of w) (immSOf w))
  | 0b001#3 => .ok (.sh (rs2Of w) (rs1Of w) (immSOf w))
  | 0b010#3 => .ok (.sw (rs2Of w) (rs1Of w) (immSOf w))
  | _ => .error .unknownFunct

/-- OP-IMM selects by funct3, and the shifts by funct7 too (R81, R82). -/
def decodeOpImm (w : Word) : Except DecodeError Instr :=
  match funct3Of w with
  | 0b000#3 => .ok (.addi (rdOf w) (rs1Of w) (immIOf w))
  | 0b010#3 => .ok (.slti (rdOf w) (rs1Of w) (immIOf w))
  | 0b011#3 => .ok (.sltiu (rdOf w) (rs1Of w) (immIOf w))
  | 0b100#3 => .ok (.xori (rdOf w) (rs1Of w) (immIOf w))
  | 0b110#3 => .ok (.ori (rdOf w) (rs1Of w) (immIOf w))
  | 0b111#3 => .ok (.andi (rdOf w) (rs1Of w) (immIOf w))
  | 0b001#3 =>
    if funct7Of w = 0b0000000#7 then .ok (.slli (rdOf w) (rs1Of w) (shamtOf w))
    else .error .unknownFunct
  | _ =>
    if funct7Of w = 0b0000000#7 then .ok (.srli (rdOf w) (rs1Of w) (shamtOf w))
    else if funct7Of w = 0b0100000#7 then .ok (.srai (rdOf w) (rs1Of w) (shamtOf w))
    else .error .unknownFunct

/-- OP with funct7 = 0000000 (R83). -/
def decodeOpPlain (w : Word) : Instr :=
  match funct3Of w with
  | 0b000#3 => .add (rdOf w) (rs1Of w) (rs2Of w)
  | 0b001#3 => .sll (rdOf w) (rs1Of w) (rs2Of w)
  | 0b010#3 => .slt (rdOf w) (rs1Of w) (rs2Of w)
  | 0b011#3 => .sltu (rdOf w) (rs1Of w) (rs2Of w)
  | 0b100#3 => .xor (rdOf w) (rs1Of w) (rs2Of w)
  | 0b101#3 => .srl (rdOf w) (rs1Of w) (rs2Of w)
  | 0b110#3 => .or (rdOf w) (rs1Of w) (rs2Of w)
  | _ => .and (rdOf w) (rs1Of w) (rs2Of w)

/-- OP selects by funct3 and funct7 together (R83). -/
def decodeOp (w : Word) : Except DecodeError Instr :=
  if funct7Of w = 0b0000000#7 then .ok (decodeOpPlain w)
  else if funct7Of w = 0b0100000#7 then
    match funct3Of w with
    | 0b000#3 => .ok (.sub (rdOf w) (rs1Of w) (rs2Of w))
    | 0b101#3 => .ok (.sra (rdOf w) (rs1Of w) (rs2Of w))
    | _ => .error .unknownFunct
  else .error .unknownFunct

/-- SYSTEM selects by `inst[31:20]` alone (R85; log 20). -/
def decodeSystem (w : Word) : Except DecodeError Instr :=
  if immIOf w = 0#12 then .ok .ecall
  else if immIOf w = 1#12 then .ok .ebreak
  else .error .unknownSysImm

/-- R75. It reads only the instruction word; LUI, AUIPC, JAL, JALR and FENCE are selected by the primary opcode
alone (R76, R77, R84; log 20). -/
def decode (w : Word) : Except DecodeError Instr :=
  match opcodeOf w with
  | 0x37#7 => .ok (.lui (rdOf w) (immUOf w))
  | 0x17#7 => .ok (.auipc (rdOf w) (immUOf w))
  | 0x6F#7 => .ok (.jal (rdOf w) (immJOf w))
  | 0x67#7 => .ok (.jalr (rdOf w) (rs1Of w) (immIOf w))
  | 0x63#7 => decodeBranch w
  | 0x03#7 => decodeLoad w
  | 0x23#7 => decodeStore w
  | 0x13#7 => decodeOpImm w
  | 0x33#7 => decodeOp w
  | 0x0F#7 => .ok .fence
  | 0x73#7 => decodeSystem w
  | _ => .error .unknownOpcode

/-- The decoder on bytes as they lie in memory: an instruction is four bytes, least significant first (R42, R63).
`none` when fewer than four bytes are left; the rest of the bytes otherwise. -/
def decodeBytes : List Byte → Option (Except DecodeError Instr × List Byte)
  | b0 :: b1 :: b2 :: b3 :: rest => some (decode (BitVec.ofNat 32 (leValue [b0, b1, b2, b3])), rest)
  | _ => none

/-- The instruction the decoder reads from a word of spec/opcode_table.json with `nbits` bits. -/
def decodeTableWord (nbits w : Nat) : Option Instr :=
  match decodeBytes (leBytes 4 (w % 2 ^ nbits)) with
  | some (.ok i, _) => some i
  | _ => none

/-! ### The opcode table (spec/opcode_table.json) -/

/-- A word is the row's instruction when `word & mask = bits` (the table's `match`). -/
structure OpcodeRow where
  mnemonic : String
  bits : Word
  mask : Word
  deriving DecidableEq, Repr

def OpcodeRow.holds (r : OpcodeRow) (w : Word) : Bool := w &&& r.mask = r.bits

def rowsUpperAndJumps : List OpcodeRow :=
  [⟨"LUI", 0x00000037, 0x0000007F⟩, ⟨"AUIPC", 0x00000017, 0x0000007F⟩,
   ⟨"JAL", 0x0000006F, 0x0000007F⟩, ⟨"JALR", 0x00000067, 0x0000007F⟩]

def rowsBranches : List OpcodeRow :=
  [⟨"BEQ", 0x00000063, 0x0000707F⟩, ⟨"BNE", 0x00001063, 0x0000707F⟩, ⟨"BLT", 0x00004063, 0x0000707F⟩,
   ⟨"BGE", 0x00005063, 0x0000707F⟩, ⟨"BLTU", 0x00006063, 0x0000707F⟩, ⟨"BGEU", 0x00007063, 0x0000707F⟩]

def rowsLoadsAndStores : List OpcodeRow :=
  [⟨"LB", 0x00000003, 0x0000707F⟩, ⟨"LH", 0x00001003, 0x0000707F⟩, ⟨"LW", 0x00002003, 0x0000707F⟩,
   ⟨"LBU", 0x00004003, 0x0000707F⟩, ⟨"LHU", 0x00005003, 0x0000707F⟩,
   ⟨"SB", 0x00000023, 0x0000707F⟩, ⟨"SH", 0x00001023, 0x0000707F⟩, ⟨"SW", 0x00002023, 0x0000707F⟩]

def rowsOpImm : List OpcodeRow :=
  [⟨"ADDI", 0x00000013, 0x0000707F⟩, ⟨"SLTI", 0x00002013, 0x0000707F⟩, ⟨"SLTIU", 0x00003013, 0x0000707F⟩,
   ⟨"XORI", 0x00004013, 0x0000707F⟩, ⟨"ORI", 0x00006013, 0x0000707F⟩, ⟨"ANDI", 0x00007013, 0x0000707F⟩,
   ⟨"SLLI", 0x00001013, 0xFE00707F⟩, ⟨"SRLI", 0x00005013, 0xFE00707F⟩, ⟨"SRAI", 0x40005013, 0xFE00707F⟩]

def rowsOp : List OpcodeRow :=
  [⟨"ADD", 0x00000033, 0xFE00707F⟩, ⟨"SUB", 0x40000033, 0xFE00707F⟩, ⟨"SLL", 0x00001033, 0xFE00707F⟩,
   ⟨"SLT", 0x00002033, 0xFE00707F⟩, ⟨"SLTU", 0x00003033, 0xFE00707F⟩, ⟨"XOR", 0x00004033, 0xFE00707F⟩,
   ⟨"SRL", 0x00005033, 0xFE00707F⟩, ⟨"SRA", 0x40005033, 0xFE00707F⟩, ⟨"OR", 0x00006033, 0xFE00707F⟩,
   ⟨"AND", 0x00007033, 0xFE00707F⟩]

def rowsFenceAndSystem : List OpcodeRow :=
  [⟨"FENCE", 0x0000000F, 0x0000007F⟩, ⟨"ECALL", 0x00000073, 0xFFF0007F⟩, ⟨"EBREAK", 0x00100073, 0xFFF0007F⟩]

/-- The 40 rows of spec/opcode_table.json, in its order. -/
def opcodeTable : List OpcodeRow :=
  rowsUpperAndJumps ++ rowsBranches ++ rowsLoadsAndStores ++ rowsOpImm ++ rowsOp ++ rowsFenceAndSystem

/-! ### The encoder (R65, R74, R78 to R85) -/

def encodeR (f7 : BitVec 7) (rs2 rs1 : Reg) (f3 : BitVec 3) (rd : Reg) (op : BitVec 7) : Word :=
  f7 ++ rs2 ++ rs1 ++ f3 ++ rd ++ op

def encodeI (imm : BitVec 12) (rs1 : Reg) (f3 : BitVec 3) (rd : Reg) (op : BitVec 7) : Word :=
  imm ++ rs1 ++ f3 ++ rd ++ op

/-- The I-shift row of R65. -/
def encodeShift (f7 : BitVec 7) (shamt : BitVec 5) (rs1 : Reg) (f3 : BitVec 3) (rd : Reg) : Word :=
  f7 ++ shamt ++ rs1 ++ f3 ++ rd ++ 0x13#7

def encodeS (imm : BitVec 12) (rs2 rs1 : Reg) (f3 : BitVec 3) : Word :=
  imm.extractLsb' 5 7 ++ rs2 ++ rs1 ++ f3 ++ imm.extractLsb' 0 5 ++ 0x23#7

/-- Bit 0 of the offset has no place in the word. -/
def encodeB (offset : BitVec 13) (rs2 rs1 : Reg) (f3 : BitVec 3) : Word :=
  offset.extractLsb' 12 1 ++ offset.extractLsb' 5 6 ++ rs2 ++ rs1 ++ f3 ++ offset.extractLsb' 1 4 ++
    offset.extractLsb' 11 1 ++ 0x63#7

def encodeU (imm20 : BitVec 20) (rd : Reg) (op : BitVec 7) : Word :=
  imm20 ++ rd ++ op

/-- Bit 0 of the offset has no place in the word. -/
def encodeJ (offset : BitVec 21) (rd : Reg) (op : BitVec 7) : Word :=
  offset.extractLsb' 20 1 ++ offset.extractLsb' 1 10 ++ offset.extractLsb' 11 1 ++ offset.extractLsb' 12 8 ++ rd ++ op

/-- The word of an instruction. Unchecked fields are 0, and FENCE is `FENCE iorw, iorw`, its standard spelling
(R93; log 34). -/
def encode : Instr → Word
  | .lui rd imm20 => encodeU imm20 rd 0x37
  | .auipc rd imm20 => encodeU imm20 rd 0x17
  | .jal rd offset => encodeJ offset rd 0x6F
  | .jalr rd rs1 imm => encodeI imm rs1 0b000 rd 0x67
  | .beq rs1 rs2 offset => encodeB offset rs2 rs1 0b000
  | .bne rs1 rs2 offset => encodeB offset rs2 rs1 0b001
  | .blt rs1 rs2 offset => encodeB offset rs2 rs1 0b100
  | .bge rs1 rs2 offset => encodeB offset rs2 rs1 0b101
  | .bltu rs1 rs2 offset => encodeB offset rs2 rs1 0b110
  | .bgeu rs1 rs2 offset => encodeB offset rs2 rs1 0b111
  | .lb rd rs1 imm => encodeI imm rs1 0b000 rd 0x03
  | .lh rd rs1 imm => encodeI imm rs1 0b001 rd 0x03
  | .lw rd rs1 imm => encodeI imm rs1 0b010 rd 0x03
  | .lbu rd rs1 imm => encodeI imm rs1 0b100 rd 0x03
  | .lhu rd rs1 imm => encodeI imm rs1 0b101 rd 0x03
  | .sb rs2 rs1 imm => encodeS imm rs2 rs1 0b000
  | .sh rs2 rs1 imm => encodeS imm rs2 rs1 0b001
  | .sw rs2 rs1 imm => encodeS imm rs2 rs1 0b010
  | .addi rd rs1 imm => encodeI imm rs1 0b000 rd 0x13
  | .slti rd rs1 imm => encodeI imm rs1 0b010 rd 0x13
  | .sltiu rd rs1 imm => encodeI imm rs1 0b011 rd 0x13
  | .xori rd rs1 imm => encodeI imm rs1 0b100 rd 0x13
  | .ori rd rs1 imm => encodeI imm rs1 0b110 rd 0x13
  | .andi rd rs1 imm => encodeI imm rs1 0b111 rd 0x13
  | .slli rd rs1 shamt => encodeShift 0b0000000 shamt rs1 0b001 rd
  | .srli rd rs1 shamt => encodeShift 0b0000000 shamt rs1 0b101 rd
  | .srai rd rs1 shamt => encodeShift 0b0100000 shamt rs1 0b101 rd
  | .add rd rs1 rs2 => encodeR 0b0000000 rs2 rs1 0b000 rd 0x33
  | .sub rd rs1 rs2 => encodeR 0b0100000 rs2 rs1 0b000 rd 0x33
  | .sll rd rs1 rs2 => encodeR 0b0000000 rs2 rs1 0b001 rd 0x33
  | .slt rd rs1 rs2 => encodeR 0b0000000 rs2 rs1 0b010 rd 0x33
  | .sltu rd rs1 rs2 => encodeR 0b0000000 rs2 rs1 0b011 rd 0x33
  | .xor rd rs1 rs2 => encodeR 0b0000000 rs2 rs1 0b100 rd 0x33
  | .srl rd rs1 rs2 => encodeR 0b0000000 rs2 rs1 0b101 rd 0x33
  | .sra rd rs1 rs2 => encodeR 0b0100000 rs2 rs1 0b101 rd 0x33
  | .or rd rs1 rs2 => encodeR 0b0000000 rs2 rs1 0b110 rd 0x33
  | .and rd rs1 rs2 => encodeR 0b0000000 rs2 rs1 0b111 rd 0x33
  | .fence => 0x0FF0000F
  | .ecall => 0x00000073
  | .ebreak => 0x00100073

end Sys2Proof
end

