-- ==== Sys2Proof/Config.lean ====
section
/-! DEFINITION. What is fixed for one core: its configuration inputs (00_scope.md R6, R7 (a)), held by every state
and changed by no step (log 1); and the values the spec leaves free, as constants without a body, so that no proof
can see what they are (log 13, 14, 27, 28). -/

namespace Sys2Proof

/-- The configuration inputs, "fixed before reset" (R7 (a)). -/
structure Config where
  /-- `MEM_BASE` (B): the lowest backed address. -/
  memBase : Nat
  /-- `MEM_SIZE` (S): how many bytes are backed. -/
  memSize : Nat
  /-- `MAX_CYCLES`; absent = no limit. -/
  maxCycles : Option Nat
  /-- `TRACE`; no architectural effect (R182). -/
  trace : Bool
  deriving DecidableEq, Repr

/-- The configuration of the spec's examples and programs (95_test_vectors.md). DESIGN CHOICE, log 1: neither B nor
S has a value in the spec. -/
def Config.ofSpecExamples : Config := { memBase := 0, memSize := 0x100000, maxCycles := none, trace := false }

/-- FREE VALUE (R175, R176; log 13): what the host returns as the count of its `n`-th call when the state's script of
answers is used up; `none` is the host error, -1. -/
opaque Config.hostCount : Nat → Option Nat

/-- FREE VALUE (R171, R175; log 13, 14): byte `k` of the local buffer that the host's `n`-th call leaves, where the
state's script does not give it. -/
opaque Config.hostByte : Nat → Nat → Byte

/-- FREE VALUE (`STOP_STATUS`, R6, R107, R184; log 28): the driver's exit status for a stopped run. -/
opaque Config.stopStatus : Word

/-- FREE VALUE (R180, N22; log 27): the text of a number in hexadecimal in a trace line; the spec gives no width. -/
opaque Config.hexText : Nat → String

/-- FREE VALUE (R180, N22; log 27): the text of the cycle field of a trace line; the spec gives no base. -/
opaque Config.cycleText : Nat → String

/-- FREE VALUE (R180, N22; log 27): the optional symbol name shown for an address. -/
opaque Config.symbolName : Word → Option String

/-- FREE VALUE (R180, N22; log 27): the spelling of a mnemonic in a trace line. -/
opaque Config.mnemonicText : String → String

end Sys2Proof
end

