-- ==== Sys2Proof/Machine/State.lean ====
section
/-! DEFINITION. The state of the core, all of it (10_state.md R19 to R36), as plain data; the reasons a step can
stop; and the state after reset (R36, 70_reset_and_hazards.md R185). -/

namespace Sys2Proof.Machine

/-- Memory: the bytes that differ from what an unlisted address reads as, by rising guest address (20_memory.md R38,
R39; log 3, 24). `Memory.wf` in Machine/Ops.lean states the form. -/
abbrev Memory := List Host.Cell

/-- The error kinds of 60_exceptions.md R155 that a step can raise, with what R155 lets a fault carry (log 29), and
two ways a step cannot complete that the spec leaves without an effect. Every one ends the run (R156), and the state
it leaves is not kept (log 7). -/
inductive Fault where
  /-- Decode: the primary opcode is not one of R74's. Safe: the spec's own error. -/
  | unknownOpcode (word : Word)
  /-- Decode: a funct3 or funct7 with no mapping (30_encoding.md R87). Safe: the spec's own error. -/
  | unknownFunct (word : Word)
  /-- Decode: a SYSTEM word whose immediate is not 0 or 1 (R88). Safe: the spec's own error. -/
  | unknownSysImm (word : Word)
  /-- Fetch, LH, LHU, LW, SH, SW, HTIF doublewords: the address is no multiple of the width (R44). Safe: the spec's
  own error. -/
  | misalignedAccess (address width : Nat)
  /-- Fetch, loads, stores, every HTIF access: a byte outside [B, B+S) (R40; log 17). Safe: it stops where the source
  says only that the access is undefined. -/
  | outOfRange (address width : Nat)
  /-- HTIF service: an id other than 63, 64 and 93 (R169). Safe: the spec's own error. -/
  | unknownSyscall (id : Nat)
  /-- HTIF READ and WRITE: the fd names no slot (R171, R172, R177). Safe: the spec's own error. -/
  | invalidFileDescriptor (fd : Nat)
  /-- The end of a step: `cycleCount` would pass 2^64 - 1, which the spec leaves undefined (R28, U14; log 11). Safe:
  it stops. -/
  | cycleCountOverflow
  /-- A step asked for after the run ended by Exit or by the cycle limit: "no state leaves" those (R33; log 8). Safe:
  no step exists there. -/
  | runEnded
  deriving DecidableEq, Repr

/-- Reasons for which the spec defines no run, and the rejection of an instruction without a meaning. -/
inductive Refusal where
  /-- `exec`, for an instruction that has no meaning yet; no arm uses it. Safe: it stops. -/
  | notModelled (mnemonic : String)
  /-- A step or a launch under a configuration that violates 20_memory.md R41: "the spec defines no run for it"
  (log 12). Safe: it stops. -/
  | badConfiguration
  /-- A launch whose executable fails the loader's validation or has no `_start`: "no run starts" (R185 to R187;
  log 26). Safe: it stops. -/
  | loaderError
  deriving DecidableEq, Repr

/-- The run status (10_state.md R33). -/
inductive RunStatus where
  | running
  /-- Ended by the guest's HTIF EXIT with this value (R170). -/
  | exited (value : Word)
  /-- Ended by an error. No step answers a state with this status: an error is a `fault` outcome (R156; log 7). -/
  | errored (kind : Fault)
  /-- Ended by the cycle limit (40_step.md R107). -/
  | stopped
  deriving DecidableEq, Repr

/-- The host files behind the fd table (60_exceptions.md R177). -/
inductive HostFile where
  | stdin
  | stdout
  | stderr
  deriving DecidableEq, Repr

/-- One answer of the host to HostRead or HostWrite (60_exceptions.md R175, R176; log 13). `count` is the count
returned, `none` for the host error -1; a count above the bound the rule sets is cut down to it. `buffer` is the
local buffer after a read: its bytes below the count are the data, those from the count on are the arbitrary bytes of
R171 (log 14). -/
structure HostAnswer where
  count : Option Nat
  buffer : List Byte
  deriving DecidableEq, Repr

/-- An output event `(fd, bytes)` (60_exceptions.md R176), with the host file that slot `fd` names. -/
structure OutputEvent where
  fd : Nat
  file : HostFile
  bytes : List Byte
  deriving DecidableEq, Repr

/-- A register as a trace line names it (60_exceptions.md R181). -/
inductive TraceReg where
  | x (index : Reg)
  | pc
  deriving DecidableEq, Repr

/-- One operand of a trace line (R181). -/
inductive TraceOperand where
  | destination (reg : TraceReg)
  /-- With "the value captured at dispatch". -/
  | source (reg : TraceReg) (value : Word)
  | immediate (value : Int)
  deriving DecidableEq, Repr

/-- The memory access of a trace line (R181). -/
inductive TraceAccess where
  | write (address value : Word)
  | read (reg : TraceReg) (value address : Word)
  deriving DecidableEq, Repr

/-- One trace line (60_exceptions.md R180), before it is put into text (Machine/Trace.lean). -/
structure TraceLine where
  cycle : BitVec 64
  pc : Word
  instr : Instr
  operands : List TraceOperand
  regWrites : List (TraceReg × Word)
  access : Option TraceAccess
  deriving DecidableEq, Repr

/-- The complete state (10_state.md R36), with the configuration inputs (R35) and the host's side of HTIF. -/
structure State where
  /-- Configuration inputs (00_scope.md R7 (a)); no step changes them (log 1). -/
  cfg : Config
  /-- x0 to x31 (R19); read and written through `State.x` and `State.setX` alone, which hard-wire x0 (R20). -/
  regs : Vector Word 32
  /-- The program counter (R23). -/
  pc : Word
  /-- The branch-taken flag (R26). -/
  branchTaken : Bool
  /-- Completed steps (R28). -/
  cycleCount : BitVec 64
  /-- The pc captured at fetch (R29). -/
  fetchAddress : Word
  /-- Guest memory, tohost and fromhost among it (20_memory.md R38, R52). -/
  mem : Memory
  /-- The host files of slots 0, 1, 2 (R32). -/
  fdTable : Vector HostFile 3
  /-- R33. -/
  runStatus : RunStatus
  /-- Output events so far, oldest first (60_exceptions.md R176). -/
  hostOut : List OutputEvent
  /-- Trace lines so far, oldest first (60_exceptions.md R180). -/
  traceLog : List TraceLine
  /-- The MODEL's own: answers of the host still to come, the next one first (log 13). -/
  hostIn : List HostAnswer
  /-- The MODEL's own: host calls made so far, the argument of the free values (log 13). -/
  hostCalls : Nat
  deriving DecidableEq, Repr

/-- The fd table after reset (60_exceptions.md R177). -/
def fdTableAtReset : Vector HostFile 3 := #v[.stdin, .stdout, .stderr]

/-- The state after reset (R36, R185), for the configuration and entry address of the spec's examples and with no
image loaded (log 1, 2, 3, 25); `Machine/Launch.lean` gives it for every configuration, image and entry. -/
def State.reset : State where
  cfg := Config.ofSpecExamples
  regs := Vector.replicate 32 0
  pc := 0x10000
  branchTaken := false
  cycleCount := 0
  fetchAddress := 0
  mem := []
  fdTable := fdTableAtReset
  runStatus := .running
  hostOut := []
  traceLog := []
  hostIn := []
  hostCalls := 0

end Sys2Proof.Machine
end

