-- ==== Sys2Proof/Machine/Ops.lean ====
section
/-! DEFINITION. The shared operations over memory, registers and the rest of the state: the memory's form and its
reads and writes (20_memory.md), the checked access primitives MemRead, MemWrite and the block copies (R47 to R49),
the register file (10_state.md R19, R20), and raising an error (00_scope.md R16). The core has no exception entry and
no return from one (60_exceptions.md R153, R162): raising an error is the whole of it. -/

namespace Sys2Proof

/-- `TOHOST_ADDR` (00_scope.md R6). -/
def tohostAddr : Nat := 0x2000

/-- `FROMHOST_ADDR` (R6). -/
def fromhostAddr : Nat := 0x2008

/-- What 20_memory.md R41 asks of a configuration: (a) B a multiple of 8, (b) B + S <= 2^32, (c) tohost and fromhost
inside the region. -/
def Config.valid (c : Config) : Bool :=
  decide (c.memBase % 8 = 0) && decide (c.memBase + c.memSize ≤ 2 ^ 32) &&
    decide (c.memBase ≤ tohostAddr) && decide (fromhostAddr + 8 ≤ c.memBase + c.memSize)

/-- `n` bytes at `a` are all inside [B, B+S), on integers (R39, R47). -/
abbrev Config.InRange (c : Config) (a n : Nat) : Prop := c.memBase ≤ a ∧ a + n ≤ c.memBase + c.memSize

namespace Machine

/-- What an address that memory does not list reads as (log 3). -/
def Memory.unlisted : Byte := 0

/-- The canonical form: addresses strictly rising, and no entry equal to what an unlisted address reads as. -/
abbrev Memory.wf (m : Memory) : Prop :=
  m.Pairwise (fun c d => c.1 < d.1) ∧ ∀ c ∈ m, c.2 ≠ Memory.unlisted

/-- The byte at an address. -/
def Memory.read : Memory → Nat → Byte
  | [], _ => Memory.unlisted
  | c :: m, a => if c.1 = a then c.2 else Memory.read m a

/-- Take an address off the list. -/
def Memory.erase (m : Memory) (a : Nat) : Memory := m.filter (fun c => c.1 ≠ a)

/-- Put a cell before the first cell of a higher address. -/
def Memory.insert : Memory → Host.Cell → Memory
  | [], c => [c]
  | d :: m, c => if c.1 < d.1 then c :: d :: m else d :: Memory.insert m c

/-- Write one byte; writing what an unlisted address reads as takes the entry off the list. -/
def Memory.write (m : Memory) (a : Nat) (b : Byte) : Memory :=
  if b = Memory.unlisted then m.erase a else (m.erase a).insert (a, b)

/-- The `n` bytes at `a`, `a+1`, ... -/
def Memory.readBytes (m : Memory) : Nat → Nat → List Byte
  | _, 0 => []
  | a, n + 1 => m.read a :: Memory.readBytes m (a + 1) n

/-- Write bytes at `a`, `a+1`, ... -/
def Memory.writeBytes : Memory → Nat → List Byte → Memory
  | m, _, [] => m
  | m, a, b :: bs => Memory.writeBytes (m.write a b) (a + 1) bs

/-! ### Errors -/

/-- `raise Error(kind)`: the step ends at once and the core halts (00_scope.md R16, 60_exceptions.md R156). -/
def raise (k : Fault) : Host.Outcome State Fault Refusal := .fault k

/-! ### The register file -/

/-- `x[i]` as a source: x0 reads 0 (00_scope.md R13, 10_state.md R20). -/
def readRegs (regs : Vector Word 32) (i : Reg) : Word := if i = 0 then 0 else regs[i.toNat]'(i.isLt)

/-- The register file after `x[i] <- v`: a write to x0 has no effect (R13, R20). -/
def writeRegs (regs : Vector Word 32) (i : Reg) (v : Word) : Vector Word 32 :=
  if i = 0 then regs else regs.set i.toNat v i.isLt

/-- `x[i]`. -/
def State.x (s : State) (i : Reg) : Word := readRegs s.regs i

/-- `x[i] <- v`. -/
def State.setX (s : State) (i : Reg) (v : Word) : State := { s with regs := writeRegs s.regs i v }

/-! ### Named updates of the other fields -/

def State.withMem (s : State) (m : Memory) : State := { s with mem := m }
def State.withStatus (s : State) (r : RunStatus) : State := { s with runStatus := r }
/-- `fetchAddress <- pc` (40_step.md R99). -/
def State.captureFetch (s : State) : State := { s with fetchAddress := s.pc }
/-- `cycleCount <- cycleCount + 1` (R104). -/
def State.countCycle (s : State) : State := { s with cycleCount := s.cycleCount + 1 }
/-- One host answer has been used (60_exceptions.md R175, R176; log 13). -/
def State.hostAnswered (s : State) : State := { s with hostIn := s.hostIn.tail, hostCalls := s.hostCalls + 1 }
/-- Bytes delivered to a host file (R176). -/
def State.emitOutput (s : State) (e : OutputEvent) : State := { s with hostOut := s.hostOut ++ [e] }
/-- A trace line emitted (R180). -/
def State.emitTrace (s : State) (l : TraceLine) : State := { s with traceLog := s.traceLog ++ [l] }

/-! ### Checked accesses (20_memory.md R44, R46 to R49)

An address is a natural number here: a 32-bit guest address, or a 64-bit value from an HTIF command, which is out of
range from 2^32 on (R49, 60_exceptions.md R168). -/

/-- The byte at an address, unchecked: the memory itself. -/
def State.byte (s : State) (a : Nat) : Byte := s.mem.read a

/-- The checks of an access of `n` bytes at `a`: alignment first, then range (R46, R47). -/
def checkAccess (c : Config) (a n : Nat) : Except Fault Unit :=
  if a % n ≠ 0 then .error (.misalignedAccess a n)
  else if c.InRange a n then .ok ()
  else .error (.outOfRange a n)

/-- `MemRead(a, n)`, as the integer it returns (R47). -/
def memRead (s : State) (a n : Nat) : Except Fault Nat :=
  match checkAccess s.cfg a n with
  | .error k => .error k
  | .ok () => .ok (leValue (s.mem.readBytes a n))

/-- `MemWrite(a, n, v)`: the low `8 * n` bits of `v`; no byte is written when a check fails (R48). -/
def memWrite (s : State) (a n v : Nat) : Except Fault State :=
  match checkAccess s.cfg a n with
  | .error k => .error k
  | .ok () => .ok (s.withMem (s.mem.writeBytes a (leBytes n v)))

/-- The check of a block copy: the range alone, and nothing for length 0 (R49). -/
def checkBlock (c : Config) (a len : Nat) : Except Fault Unit :=
  if len = 0 ∨ c.InRange a len then .ok () else .error (.outOfRange a len)

/-- `MemReadBlock(a, len)` (R49). -/
def memReadBlock (s : State) (a len : Nat) : Except Fault (List Byte) :=
  match checkBlock s.cfg a len with
  | .error k => .error k
  | .ok () => .ok (s.mem.readBytes a len)

/-- `MemWriteBlock(a, len, bytes)` with `len` the number of bytes (R49). -/
def memWriteBlock (s : State) (a : Nat) (bytes : List Byte) : Except Fault State :=
  match checkBlock s.cfg a bytes.length with
  | .error k => .error k
  | .ok () => .ok (s.withMem (s.mem.writeBytes a bytes))

/-! ### Shared forms of meanings -/

/-- `x[rd] <- v`, the whole of what a computing instruction does. -/
def writeResult (rd : Reg) (v : Word) (s : State) : Host.Outcome State Fault Refusal := .next (s.setX rd v)

/-- `x[rd] <- ext(MemRead(ea, n))`; the read is made even when rd is x0 (45_loads.md R133). -/
def loadInto (rd : Reg) (n : Nat) (ext : Word → Word) (ea : Word) (s : State) : Host.Outcome State Fault Refusal :=
  match memRead s ea.toNat n with
  | .error k => raise k
  | .ok v => writeResult rd (ext (BitVec.ofNat 32 v)) s

/-- `MemWrite(ea, n, v)` (46_stores.md R139). -/
def storeFrom (n : Nat) (ea v : Word) (s : State) : Host.Outcome State Fault Refusal :=
  match memWrite s ea.toNat n v.toNat with
  | .error k => raise k
  | .ok t => .next t

end Machine

end Sys2Proof
end

