-- ==== Sys2Proof/Machine/Operands.lean ====
section
/-! DEFINITION. Every operand form of the core: the extended immediates (30_encoding.md R68 to R73), the one
addressing mode (45_loads.md R133, 46_stores.md R139), the pc-relative targets (R110, R143), the target of JALR
(R111) and the shift amounts (43_op_imm.md R113 (d)). -/

namespace Sys2Proof.Machine

/-- `sext_12` of an I or S immediate (R68, R69). -/
def extendImm (imm : BitVec 12) : Word := imm.signExtend 32

/-- The U-immediate: `imm20 << 12`, the low 12 bits zero (R71). -/
def upperImm (imm20 : BitVec 20) : Word := imm20 ++ 0#12

/-- `ea <- x[rs1] + imm` modulo 2^32 (R133, R139). -/
def State.effectiveAddress (s : State) (rs1 : Reg) (imm : BitVec 12) : Word := s.x rs1 + extendImm imm

/-- `pc + sext_13(offset)` (R70, R143). -/
def State.branchTarget (s : State) (offset : BitVec 13) : Word := s.pc + offset.signExtend 32

/-- `pc + sext_21(offset)` (R72, R110). -/
def State.jumpTarget (s : State) (offset : BitVec 21) : Word := s.pc + offset.signExtend 32

/-- `(x[rs1] + imm) & ~1` (R111). -/
def State.indirectTarget (s : State) (rs1 : Reg) (imm : BitVec 12) : Word := s.effectiveAddress rs1 imm &&& ~~~(1 : Word)

/-- `pc + 4`, the link value (R110, R111). -/
def State.linkValue (s : State) : Word := s.pc + 4

/-- `x[rs2] & 0x1F`, the amount of a register shift (R73, R113 (d), R125). -/
def State.shiftAmount (s : State) (rs2 : Reg) : Nat := (s.x rs2 &&& 0x1F).toNat

end Sys2Proof.Machine
end

