-- ==== Sys2Proof/Machine/Flags.lean ====
section
/-! DEFINITION. The one flag, `branchTaken` (10_state.md R26, R27, 40_step.md R105): who sets it and who consumes it;
and the comparisons, whose results are not kept in flags but go to a register or decide a branch (R27). -/

namespace Sys2Proof.Machine

/-- `pc <- target` by a handler: writes the pc and sets `branchTaken` (00_scope.md R14). -/
def State.writePc (s : State) (target : Word) : State := { s with pc := target, branchTaken := true }

/-- The end of a step: `branchTaken` clears and holds the pc, otherwise `pc + 4` (40_step.md R103). -/
def State.advancePc (s : State) : State :=
  { s with pc := if s.branchTaken then s.pc else s.pc + 4, branchTaken := false }

/-- `s32(a) < s32(b)` (00_scope.md R10). -/
def lessSigned (a b : Word) : Bool := a.slt b

/-- `u32(a) < u32(b)` (R10). -/
def lessUnsigned (a b : Word) : Bool := a.ult b

/-- `c ? 1 : 0` (43_op_imm.md R115). -/
def flagWord (c : Bool) : Word := if c then 1 else 0

/-- `if c then pc <- pc + offset` (47_branches.md R143). -/
def branchIf (c : Bool) (offset : BitVec 13) (s : State) : Host.Outcome State Fault Refusal :=
  if c then .next (s.writePc (s.branchTarget offset)) else .next s

/-- `x[rd] <- pc + 4; pc <- target` (42_jumps.md R110, R111). -/
def linkAndJump (rd : Reg) (target : Word) (s : State) : Host.Outcome State Fault Refusal :=
  .next ((s.setX rd s.linkValue).writePc target)

end Sys2Proof.Machine
end

