-- ==== Sys2Proof/Machine/Branches.lean ====
section
/-! DEFINITION. The conditional branches (47_branches.md); none checks its target (42_jumps.md R112). -/

namespace Sys2Proof.Machine

/-- R144. -/
def execBeq (rs1 rs2 : Reg) (offset : BitVec 13) (s : State) : Host.Outcome State Fault Refusal :=
  branchIf (s.x rs1 == s.x rs2) offset s

/-- R145. -/
def execBne (rs1 rs2 : Reg) (offset : BitVec 13) (s : State) : Host.Outcome State Fault Refusal :=
  branchIf (s.x rs1 != s.x rs2) offset s

/-- R146. -/
def execBlt (rs1 rs2 : Reg) (offset : BitVec 13) (s : State) : Host.Outcome State Fault Refusal :=
  branchIf (lessSigned (s.x rs1) (s.x rs2)) offset s

/-- R147. -/
def execBge (rs1 rs2 : Reg) (offset : BitVec 13) (s : State) : Host.Outcome State Fault Refusal :=
  branchIf (!lessSigned (s.x rs1) (s.x rs2)) offset s

/-- R148. -/
def execBltu (rs1 rs2 : Reg) (offset : BitVec 13) (s : State) : Host.Outcome State Fault Refusal :=
  branchIf (lessUnsigned (s.x rs1) (s.x rs2)) offset s

/-- R149. -/
def execBgeu (rs1 rs2 : Reg) (offset : BitVec 13) (s : State) : Host.Outcome State Fault Refusal :=
  branchIf (!lessUnsigned (s.x rs1) (s.x rs2)) offset s

end Sys2Proof.Machine
end

