-- ==== Sys2Proof/Machine/Jumps.lean ====
section
/-! DEFINITION. JAL and JALR (42_jumps.md). Neither checks its target (R112). -/

namespace Sys2Proof.Machine

/-- R110. -/
def execJal (rd : Reg) (offset : BitVec 21) (s : State) : Host.Outcome State Fault Refusal :=
  linkAndJump rd (s.jumpTarget offset) s

/-- R111: the target is made from the old `x[rs1]`. -/
def execJalr (rd rs1 : Reg) (imm : BitVec 12) (s : State) : Host.Outcome State Fault Refusal :=
  linkAndJump rd (s.indirectTarget rs1 imm) s

end Sys2Proof.Machine
end

