-- ==== Sys2Proof/Machine/Loads.lean ====
section
/-! DEFINITION. The loads (45_loads.md): base plus signed displacement, read with MemRead (R133). -/

namespace Sys2Proof.Machine

/-- R134: sign-extended. -/
def execLb (rd rs1 : Reg) (imm : BitVec 12) (s : State) : Host.Outcome State Fault Refusal :=
  loadInto rd 1 (sext 8) (s.effectiveAddress rs1 imm) s

/-- R135: sign-extended. -/
def execLh (rd rs1 : Reg) (imm : BitVec 12) (s : State) : Host.Outcome State Fault Refusal :=
  loadInto rd 2 (sext 16) (s.effectiveAddress rs1 imm) s

/-- R136: no extension. -/
def execLw (rd rs1 : Reg) (imm : BitVec 12) (s : State) : Host.Outcome State Fault Refusal :=
  loadInto rd 4 id (s.effectiveAddress rs1 imm) s

/-- R137: zero-extended. -/
def execLbu (rd rs1 : Reg) (imm : BitVec 12) (s : State) : Host.Outcome State Fault Refusal :=
  loadInto rd 1 (zext 8) (s.effectiveAddress rs1 imm) s

/-- R138: zero-extended. -/
def execLhu (rd rs1 : Reg) (imm : BitVec 12) (s : State) : Host.Outcome State Fault Refusal :=
  loadInto rd 2 (zext 16) (s.effectiveAddress rs1 imm) s

end Sys2Proof.Machine
end

