-- ==== Sys2Proof/Machine/Op.lean ====
section
/-! DEFINITION. The register-register instructions (44_op.md), under the laws of 43_op_imm.md R113. -/

namespace Sys2Proof.Machine

/-- R123: modulo 2^32. -/
def execAdd (rd rs1 rs2 : Reg) (s : State) : Host.Outcome State Fault Refusal :=
  writeResult rd (s.x rs1 + s.x rs2) s

/-- R124: modulo 2^32. -/
def execSub (rd rs1 rs2 : Reg) (s : State) : Host.Outcome State Fault Refusal :=
  writeResult rd (s.x rs1 - s.x rs2) s

/-- R125. -/
def execSll (rd rs1 rs2 : Reg) (s : State) : Host.Outcome State Fault Refusal :=
  writeResult rd (s.x rs1 <<< s.shiftAmount rs2) s

/-- R126: signed. -/
def execSlt (rd rs1 rs2 : Reg) (s : State) : Host.Outcome State Fault Refusal :=
  writeResult rd (flagWord (lessSigned (s.x rs1) (s.x rs2))) s

/-- R127: unsigned. -/
def execSltu (rd rs1 rs2 : Reg) (s : State) : Host.Outcome State Fault Refusal :=
  writeResult rd (flagWord (lessUnsigned (s.x rs1) (s.x rs2))) s

/-- R128. -/
def execXor (rd rs1 rs2 : Reg) (s : State) : Host.Outcome State Fault Refusal :=
  writeResult rd (s.x rs1 ^^^ s.x rs2) s

/-- R129. -/
def execSrl (rd rs1 rs2 : Reg) (s : State) : Host.Outcome State Fault Refusal :=
  writeResult rd (s.x rs1 >>> s.shiftAmount rs2) s

/-- R130. -/
def execSra (rd rs1 rs2 : Reg) (s : State) : Host.Outcome State Fault Refusal :=
  writeResult rd ((s.x rs1).sshiftRight (s.shiftAmount rs2)) s

/-- R131. -/
def execOr (rd rs1 rs2 : Reg) (s : State) : Host.Outcome State Fault Refusal :=
  writeResult rd (s.x rs1 ||| s.x rs2) s

/-- R132. -/
def execAnd (rd rs1 rs2 : Reg) (s : State) : Host.Outcome State Fault Refusal :=
  writeResult rd (s.x rs1 &&& s.x rs2) s

end Sys2Proof.Machine
end

