-- ==== Sys2Proof/Machine/OpImm.lean ====
section
/-! DEFINITION. The register-immediate instructions (43_op_imm.md), under the laws of R113. -/

namespace Sys2Proof.Machine

/-- R114: modulo 2^32. -/
def execAddi (rd rs1 : Reg) (imm : BitVec 12) (s : State) : Host.Outcome State Fault Refusal :=
  writeResult rd (s.x rs1 + extendImm imm) s

/-- R115: signed. -/
def execSlti (rd rs1 : Reg) (imm : BitVec 12) (s : State) : Host.Outcome State Fault Refusal :=
  writeResult rd (flagWord (lessSigned (s.x rs1) (extendImm imm))) s

/-- R116: the immediate is sign-extended, then compared unsigned. -/
def execSltiu (rd rs1 : Reg) (imm : BitVec 12) (s : State) : Host.Outcome State Fault Refusal :=
  writeResult rd (flagWord (lessUnsigned (s.x rs1) (extendImm imm))) s

/-- R117. -/
def execXori (rd rs1 : Reg) (imm : BitVec 12) (s : State) : Host.Outcome State Fault Refusal :=
  writeResult rd (s.x rs1 ^^^ extendImm imm) s

/-- R118. -/
def execOri (rd rs1 : Reg) (imm : BitVec 12) (s : State) : Host.Outcome State Fault Refusal :=
  writeResult rd (s.x rs1 ||| extendImm imm) s

/-- R119. -/
def execAndi (rd rs1 : Reg) (imm : BitVec 12) (s : State) : Host.Outcome State Fault Refusal :=
  writeResult rd (s.x rs1 &&& extendImm imm) s

/-- R120. -/
def execSlli (rd rs1 : Reg) (shamt : BitVec 5) (s : State) : Host.Outcome State Fault Refusal :=
  writeResult rd (s.x rs1 <<< shamt.toNat) s

/-- R121: zeros enter at bit 31. -/
def execSrli (rd rs1 : Reg) (shamt : BitVec 5) (s : State) : Host.Outcome State Fault Refusal :=
  writeResult rd (s.x rs1 >>> shamt.toNat) s

/-- R122: copies of bit 31 enter at bit 31. -/
def execSrai (rd rs1 : Reg) (shamt : BitVec 5) (s : State) : Host.Outcome State Fault Refusal :=
  writeResult rd ((s.x rs1).sshiftRight shamt.toNat) s

end Sys2Proof.Machine
end

