-- ==== Sys2Proof/Machine/Stores.lean ====
section
/-! DEFINITION. The stores (46_stores.md): base plus signed displacement, written with MemWrite (R139). -/

namespace Sys2Proof.Machine

/-- R140: the low byte of `x[rs2]`. -/
def execSb (rs2 rs1 : Reg) (imm : BitVec 12) (s : State) : Host.Outcome State Fault Refusal :=
  storeFrom 1 (s.effectiveAddress rs1 imm) (s.x rs2) s

/-- R141: the low half of `x[rs2]`. -/
def execSh (rs2 rs1 : Reg) (imm : BitVec 12) (s : State) : Host.Outcome State Fault Refusal :=
  storeFrom 2 (s.effectiveAddress rs1 imm) (s.x rs2) s

/-- R142: the word path. -/
def execSw (rs2 rs1 : Reg) (imm : BitVec 12) (s : State) : Host.Outcome State Fault Refusal :=
  storeFrom 4 (s.effectiveAddress rs1 imm) (s.x rs2) s

end Sys2Proof.Machine
end

