-- ==== Sys2Proof/Machine/System.lean ====
section
/-! DEFINITION. ECALL, EBREAK and FENCE (48_system_fence.md): no-ops; the common actions of the step still happen (40_step.md R98). -/

namespace Sys2Proof.Machine

/-- R150: "a no-op at instruction scope": it does not trap. -/
def execEcall (s : State) : Host.Outcome State Fault Refusal := .next s

/-- R151: "a no-op in this simulator". -/
def execEbreak (s : State) : Host.Outcome State Fault Refusal := .next s

/-- R152: memory is strongly ordered already (20_memory.md R58). -/
def execFence (s : State) : Host.Outcome State Fault Refusal := .next s

end Sys2Proof.Machine
end

