-- ==== Sys2Proof/Machine/UpperImmediate.lean ====
section
/-! DEFINITION. LUI and AUIPC (41_upper_immediate.md). -/

namespace Sys2Proof.Machine

/-- R108. -/
def execLui (rd : Reg) (imm20 : BitVec 20) (s : State) : Host.Outcome State Fault Refusal :=
  writeResult rd (upperImm imm20) s

/-- R109. -/
def execAuipc (rd : Reg) (imm20 : BitVec 20) (s : State) : Host.Outcome State Fault Refusal :=
  writeResult rd (s.pc + upperImm imm20) s

end Sys2Proof.Machine
end

