-- ==== Sys2Proof/Machine/Htif.lean ====
section
/-! DEFINITION. The HTIF service that runs in every step after the instruction (40_step.md R102, 60_exceptions.md
R166 to R177): EXIT, READ and WRITE commands behind the tohost doubleword. All 64-bit values are compared and used as
natural numbers (R167, R168). -/

namespace Sys2Proof.Machine

/-- What a step answers beside the state when it raises no error (00_scope.md R8). -/
inductive StepStatus where
  | continue
  | exit (value : Word)
  deriving DecidableEq, Repr

/-- The command block `[id, a0, a1, a2, ...]`; a3 to a6 are read and ignored (R166, R168). -/
structure Command where
  id : Nat
  a0 : Nat
  a1 : Nat
  a2 : Nat
  deriving DecidableEq, Repr

/-- The recognised ids (R166). -/
def sysRead : Nat := 63
def sysWrite : Nat := 64
def sysExit : Nat := 93

/-- `count` doublewords at `p`, `p + 8`, ... (R168). -/
def readDoublewords (s : State) : Nat → Nat → Except Fault (List Nat)
  | _, 0 => .ok []
  | p, count + 1 =>
    match memRead s p 8 with
    | .error k => .error k
    | .ok v =>
      match readDoublewords s (p + 8) count with
      | .error k => .error k
      | .ok vs => .ok (v :: vs)

/-- `read_command_block(p)`: all eight doublewords before dispatching on the id (R168). -/
def readCommandBlock (s : State) (p : Nat) : Except Fault Command :=
  match readDoublewords s p 8 with
  | .error k => .error k
  | .ok c => .ok { id := c.getD 0 0, a0 := c.getD 1 0, a1 := c.getD 2 0, a2 := c.getD 3 0 }

/-! ### The host's answers (R175, R176; log 13, 14) -/

/-- The answer to the next host call: the first of the state's script, or the free values. -/
def State.hostAnswer (s : State) : HostAnswer :=
  match s.hostIn with
  | a :: _ => a
  | [] => { count := Config.hostCount s.hostCalls, buffer := [] }

/-- The count returned for a call over `len` bytes: -1 (`none`) or `0 <= r <= len` (R175, R176). -/
def HostAnswer.bounded (a : HostAnswer) (len : Nat) : Option Nat := a.count.map (min · len)

/-- `r mod 2^64`, two's complement for -1 (R171). -/
def countDoubleword : Option Nat → Nat
  | none => 2 ^ 64 - 1
  | some r => r

/-- The `len` bytes of the local buffer that call number `call` leaves, from byte `k` on. -/
def fillBuffer (call : Nat) : Nat → Nat → List Byte → List Byte
  | 0, _, _ => []
  | len + 1, k, [] => Config.hostByte call k :: fillBuffer call len (k + 1) []
  | len + 1, k, b :: bs => b :: fillBuffer call len (k + 1) bs

/-- What READ copies into guest memory: `data ++ junk`, `len` bytes in all (R171). -/
def State.hostBuffer (s : State) (len : Nat) : List Byte := fillBuffer s.hostCalls len 0 s.hostAnswer.buffer

/-- The host file of slot `fd`; none from `FD_SLOTS` on (R177). -/
def State.hostFile (s : State) (fd : Nat) : Option HostFile := s.fdTable[fd]?

/-! ### Commands -/

/-- `fromhost <- r` (R171, R172). -/
def writeFromhost (s : State) (r : Option Nat) : Except Fault State := memWrite s fromhostAddr 8 (countDoubleword r)

/-- `tohost <- 0` (R173). -/
def clearTohost (s : State) : Except Fault State := memWrite s tohostAddr 8 0

/-- READ: fd check, host read, guest copy, fromhost (R171). -/
def htifRead (s : State) (fd buf len : Nat) : Except Fault State :=
  match s.hostFile fd with
  | none => .error (.invalidFileDescriptor fd)
  | some _ =>
    match memWriteBlock s.hostAnswered buf (s.hostBuffer len) with
    | .error k => .error k
    | .ok t => writeFromhost t (s.hostAnswer.bounded len)

/-- WRITE: guest copy, fd check, host write, fromhost (R172). -/
def htifWrite (s : State) (fd buf len : Nat) : Except Fault State :=
  match memReadBlock s buf len with
  | .error k => .error k
  | .ok bytes =>
    match s.hostFile fd with
    | none => .error (.invalidFileDescriptor fd)
    | some file =>
      writeFromhost (s.hostAnswered.emitOutput { fd := fd, file := file, bytes := bytes }) (s.hostAnswer.bounded len)

/-- Clear tohost after a command that has been served, and go on (R167, R173). -/
def endCommand : Except Fault State → Except Fault (StepStatus × State)
  | .error k => .error k
  | .ok t =>
    match clearTohost t with
    | .error k => .error k
    | .ok u => .ok (.continue, u)

/-- Dispatch on the id: 93 EXIT with the low 32 bits of a0 and nothing written (R170), 63 READ, 64 WRITE, anything
else an error (R169). -/
def serveCommand (s : State) (c : Command) : Except Fault (StepStatus × State) :=
  if c.id = sysExit then .ok (.exit (BitVec.ofNat 32 c.a0), s)
  else if c.id = sysRead then endCommand (htifRead s c.a0 c.a1 c.a2)
  else if c.id = sysWrite then endCommand (htifWrite s c.a0 c.a1 c.a2)
  else .error (.unknownSyscall c.id)

/-- `htif_service()` (R167). -/
def htifService (s : State) : Except Fault (StepStatus × State) :=
  match memRead s tohostAddr 8 with
  | .error k => .error k
  | .ok p =>
    if p = 0 then .ok (.continue, s)
    else
      match readCommandBlock s p with
      | .error k => .error k
      | .ok c => serveCommand s c

end Sys2Proof.Machine
end

