-- ==== Sys2Proof/Machine/Trace.lean ====
section
/-! DEFINITION. The optional trace output (60_exceptions.md R180 to R182): one line for each executed instruction
while TRACE is set, as data, and the text of its fields as far as R180 and R181 give it (log 27). No instruction and
no other part of a step reads the trace. -/

namespace Sys2Proof.Machine

/-- "register-source shows `name (0xVAL)` using the value captured at dispatch" (R181). -/
def State.sourceOperand (s : State) (r : Reg) : TraceOperand := .source (.x r) (s.x r)

def destinationOperand (r : Reg) : TraceOperand := .destination (.x r)

def immediateOperand {n : Nat} (imm : BitVec n) : TraceOperand := .immediate imm.toInt

/-- The operands of an instruction at dispatch, in the assembler's order (30_encoding.md R92, R93). -/
def traceOperands (s : State) : Instr → List TraceOperand
  | .lui rd imm20 | .auipc rd imm20 => [destinationOperand rd, .immediate imm20.toNat]
  | .jal rd offset => [destinationOperand rd, immediateOperand offset]
  | .jalr rd rs1 imm => [destinationOperand rd, s.sourceOperand rs1, immediateOperand imm]
  | .beq rs1 rs2 offset | .bne rs1 rs2 offset | .blt rs1 rs2 offset | .bge rs1 rs2 offset
  | .bltu rs1 rs2 offset | .bgeu rs1 rs2 offset =>
    [s.sourceOperand rs1, s.sourceOperand rs2, immediateOperand offset]
  | .lb rd rs1 imm | .lh rd rs1 imm | .lw rd rs1 imm | .lbu rd rs1 imm | .lhu rd rs1 imm =>
    [destinationOperand rd, immediateOperand imm, s.sourceOperand rs1]
  | .sb rs2 rs1 imm | .sh rs2 rs1 imm | .sw rs2 rs1 imm =>
    [s.sourceOperand rs2, immediateOperand imm, s.sourceOperand rs1]
  | .addi rd rs1 imm | .slti rd rs1 imm | .sltiu rd rs1 imm | .xori rd rs1 imm | .ori rd rs1 imm | .andi rd rs1 imm =>
    [destinationOperand rd, s.sourceOperand rs1, immediateOperand imm]
  | .slli rd rs1 shamt | .srli rd rs1 shamt | .srai rd rs1 shamt =>
    [destinationOperand rd, s.sourceOperand rs1, .immediate shamt.toNat]
  | .add rd rs1 rs2 | .sub rd rs1 rs2 | .sll rd rs1 rs2 | .slt rd rs1 rs2 | .sltu rd rs1 rs2 | .xor rd rs1 rs2
  | .srl rd rs1 rs2 | .sra rd rs1 rs2 | .or rd rs1 rs2 | .and rd rs1 rs2 =>
    [destinationOperand rd, s.sourceOperand rs1, s.sourceOperand rs2]
  | .fence | .ecall | .ebreak => []

/-- The registers the instruction wrote, with the values they have after it: rd, then the pc if the handler wrote it
(R181; log 27). -/
def traceRegWrites (i : Instr) (t : State) : List (TraceReg × Word) :=
  (i.rd?.toList.map fun rd => (.x rd, t.x rd)) ++ (if t.branchTaken then [(.pc, t.pc)] else [])

/-- The load's or store's access, with the value loaded into rd or the low bytes stored (R181; log 27). -/
def traceAccess (s t : State) : Instr → Option TraceAccess
  | .lb rd rs1 imm | .lh rd rs1 imm | .lw rd rs1 imm | .lbu rd rs1 imm | .lhu rd rs1 imm =>
    some (.read (.x rd) (t.x rd) (s.effectiveAddress rs1 imm))
  | .sb rs2 rs1 imm => some (.write (s.effectiveAddress rs1 imm) (zext 8 (s.x rs2)))
  | .sh rs2 rs1 imm => some (.write (s.effectiveAddress rs1 imm) (zext 16 (s.x rs2)))
  | .sw rs2 rs1 imm => some (.write (s.effectiveAddress rs1 imm) (s.x rs2))
  | .lui .. | .auipc .. | .jal .. | .jalr .. | .beq .. | .bne .. | .blt .. | .bge .. | .bltu .. | .bgeu .. => none
  | .addi .. | .slti .. | .sltiu .. | .xori .. | .ori .. | .andi .. | .slli .. | .srli .. | .srai .. => none
  | .add .. | .sub .. | .sll .. | .slt .. | .sltu .. | .xor .. | .srl .. | .sra .. | .or .. | .and .. => none
  | .fence | .ecall | .ebreak => none

/-- The line of instruction `i`, run from `s` to `t`: `<cycle>` is `cycleCount`, `<hex-pc>` is `fetchAddress` (R180). -/
def traceLine (i : Instr) (s t : State) : TraceLine where
  cycle := s.cycleCount
  pc := s.fetchAddress
  instr := i
  operands := traceOperands s i
  regWrites := traceRegWrites i t
  access := traceAccess s t i

/-- `t`, with the line of `i` emitted when TRACE is set (40_step.md R101, R180). -/
def traceAfter (i : Instr) (s t : State) : State :=
  if s.cfg.trace then t.emitTrace (traceLine i s t) else t

/-! ### Text (R180, R181)

The fields of a line, in order. What separates them, how many digits a hexadecimal number has, how a mnemonic is
spelt and which symbol an address shows are not in the source (N22): free values of Config, or left apart here. -/

def TraceReg.text : TraceReg → String
  | .x r => "x" ++ toString r.toNat
  | .pc => "pc"

def hexWord (v : Word) : String := "0x" ++ Config.hexText v.toNat

/-- "immediate shows the signed decimal value". -/
def TraceOperand.text : TraceOperand → String
  | .destination r => r.text
  | .source r v => r.text ++ " (" ++ hexWord v ++ ")"
  | .immediate v => toString v

/-- `name=0xVAL`. -/
def regWriteText (w : TraceReg × Word) : String := w.1.text ++ "=" ++ hexWord w.2

/-- `mem[0xADDR]=0xVAL` or `name=0xVAL from mem[0xADDR]`. -/
def TraceAccess.text : TraceAccess → String
  | .write a v => "mem[" ++ hexWord a ++ "]=" ++ hexWord v
  | .read r v a => r.text ++ "=" ++ hexWord v ++ " from mem[" ++ hexWord a ++ "]"

/-- The fields of `<cycle> <hex-pc> [<symbol-name>] <mnemonic> <operands> [regwrite] [memwrite|memread]`. -/
def TraceLine.texts (l : TraceLine) : List String :=
  [Config.cycleText l.cycle.toNat, Config.hexText l.pc.toNat] ++ (Config.symbolName l.pc).toList ++
    [Config.mnemonicText l.instr.mnemonic] ++ l.operands.map TraceOperand.text ++ l.regWrites.map regWriteText ++
    l.access.toList.map TraceAccess.text

end Sys2Proof.Machine
end

