-- ==== Sys2Proof/Machine/Cycle.lean ====
section
/-! DEFINITION. One step (40_step.md R97): fetch, decode, execute, HTIF service, pc advance, cycle count; and the run
loop's test before it (R96, R107). Machine/Step.lean only calls these. -/

namespace Sys2Proof.Machine

/-- The error a decode error raises, with the instruction word (60_exceptions.md R155). -/
def decodeFault (w : Word) : DecodeError → Fault
  | .unknownOpcode => .unknownOpcode w
  | .unknownFunct => .unknownFunct w
  | .unknownSysImm => .unknownSysImm w

/-- `inst <- MemRead(pc, 4)` (40_step.md R99). -/
def fetchWord (s : State) : Except Fault Word :=
  match memRead s s.pc.toNat 4 with
  | .error k => .error k
  | .ok v => .ok (BitVec.ofNat 32 v)

/-- Fetch and decode: the instruction at the pc (R97 (1), (2), R100). -/
def fetchInstr (s : State) : Except Fault Instr :=
  match fetchWord s with
  | .error k => .error k
  | .ok w =>
    match decode w with
    | .error e => .error (decodeFault w e)
    | .ok i => .ok i

/-- R97 (4) and (5): advance the pc and count the step. Past 2^64 - 1 steps the spec leaves the count undefined (R28,
U14; log 11). -/
def completeStep (s : State) : Host.Outcome State Fault Refusal :=
  if s.cycleCount = BitVec.allOnes 64 then raise .cycleCountOverflow
  else .next s.advancePc.countCycle

/-- R97 (3) to (5). An exit leaves the step at once: no pc advance, no cycle count (R102, R170); it sets the run
status (10_state.md R33; log 9). -/
def finishStep (s : State) : Host.Outcome State Fault Refusal :=
  match htifService s with
  | .error k => raise k
  | .ok (.exit v, t) => .next (t.withStatus (.exited v))
  | .ok (.continue, t) => completeStep t

/-- One step of the core (R97). -/
def coreStep (s : State) : Host.Outcome State Fault Refusal :=
  match fetchInstr s.captureFetch with
  | .error k => raise k
  | .ok i =>
    match exec i s.captureFetch with
    | .next t => finishStep (traceAfter i s.captureFetch t)
    | .fault k => .fault k
    | .refused r => .refused r

/-- The cycle limit is reached: MAX_CYCLES is set to N and `cycleCount >= N` (R107). -/
def limitReached (s : State) : Bool :=
  match s.cfg.maxCycles with
  | none => false
  | some n => decide (n ≤ s.cycleCount.toNat)

/-- One turn of the run loop: under an admissible configuration (20_memory.md R41; log 12) and a running core, test
the limit, then make one step (R96, R107; log 10). No step exists once the run has ended (10_state.md R33; log 7, 8). -/
def runTurn (s : State) : Host.Outcome State Fault Refusal :=
  if s.cfg.valid then
    match s.runStatus with
    | .running => if limitReached s then .next (s.withStatus .stopped) else coreStep s
    | .errored k => .fault k
    | .exited _ => .fault .runEnded
    | .stopped => .fault .runEnded
  else .refused .badConfiguration

/-- The instruction word `w` of `nbits` bits laid at the pc, its bytes as the hardware stores them (R42, R63). -/
def State.layWord (s : State) (nbits w : Nat) : State :=
  s.withMem (s.mem.writeBytes s.pc.toNat (leBytes 4 (w % 2 ^ nbits)))

/-- The driver's exit code for the way a run ended (60_exceptions.md R154, R184): the guest's EXIT value, 1 for any
error, `STOP_STATUS` for a run stopped by the cycle limit (log 28), none while the run goes on. -/
def RunStatus.exitCode : RunStatus → Option Word
  | .running => none
  | .exited v => some v
  | .errored _ => some 1
  | .stopped => some Config.stopStatus

/-- The run status after an answer to a core of status `before` (10_state.md R33): an error of a running core is
`Errored(kind)` (R156; log 7), and no state leaves Exited, Errored or Stopped, whatever is asked of it (log 8). A
refusal gives a running core no status: no run is defined. -/
def statusAfter (before : RunStatus) (answer : Host.Outcome State Fault Refusal) : Option RunStatus :=
  match before with
  | .running =>
    match answer with
    | .next t => some t.runStatus
    | .fault k => some (.errored k)
    | .refused _ => none
  | ended => some ended

/-- The driver's exit code after an answer (60_exceptions.md R155, R184): that of the run's status, and 1 for
`LoaderError`, by which no run starts (log 26). -/
def driverExit (before : RunStatus) (answer : Host.Outcome State Fault Refusal) : Option Word :=
  match answer with
  | .refused .loaderError => some 1
  | answer => (statusAfter before answer).bind RunStatus.exitCode

end Sys2Proof.Machine
end

