-- ==== Sys2Proof/Machine/Step.lean ====
section
/-! DEFINITION. The step the host runs, and the state in which the next step runs a given instruction word. How a
program comes to run from `State.reset`: it is loaded from outside (log 25). -/

namespace Sys2Proof.Machine

/-- One turn of the run loop (40_step.md R96, R97). -/
def step (s : State) : Host.Outcome State Fault Refusal := runTurn s

/-- `s` with the instruction word stored at the pc, where the next step fetches. -/
def State.withFetchWord (s : State) (nbits w : Nat) : State := s.layWord nbits w

end Sys2Proof.Machine
end

