-- ==== Sys2Proof/Machine/Assembler.lean ====
section
/-! DEFINITION. What an assembler adds to the instruction set, and no part of the machine: register names (10_state.md
R21) and pseudo-instructions (30_encoding.md R94), each a run of one or two instructions. Both tables are the spec's
from general knowledge (D25; log 36). -/

namespace Sys2Proof.Machine

/-- `x0` to `x31`, as the simulator prints them (R21). -/
def registerName (r : Reg) : String := "x" ++ toString r.toNat

/-- The ABI names of x1 to x31, and `zero` (R21); x8 has a second one, `fp`. -/
def abiNames : List String :=
  ["zero", "ra", "sp", "gp", "tp", "t0", "t1", "t2", "s0", "s1"] ++
  ["a0", "a1", "a2", "a3", "a4", "a5", "a6", "a7"] ++
  ["s2", "s3", "s4", "s5", "s6", "s7", "s8", "s9", "s10", "s11"] ++ ["t3", "t4", "t5", "t6"]

def abiName (r : Reg) : String := abiNames.getD r.toNat ""

/-- The pseudo-instructions of R94. `pc` is the address of the AUIPC of a pair. -/
inductive Pseudo where
  | nop
  | li (rd : Reg) (v : Word)
  | la (rd : Reg) (sym pc : Word)
  | mv (rd rs : Reg)
  | not (rd rs : Reg)
  | neg (rd rs : Reg)
  | seqz (rd rs : Reg)
  | snez (rd rs : Reg)
  | sltz (rd rs : Reg)
  | sgtz (rd rs : Reg)
  | beqz (rs : Reg) (off : BitVec 13)
  | bnez (rs : Reg) (off : BitVec 13)
  | blez (rs : Reg) (off : BitVec 13)
  | bgez (rs : Reg) (off : BitVec 13)
  | bltz (rs : Reg) (off : BitVec 13)
  | bgtz (rs : Reg) (off : BitVec 13)
  | bgt (rs rt : Reg) (off : BitVec 13)
  | ble (rs rt : Reg) (off : BitVec 13)
  | bgtu (rs rt : Reg) (off : BitVec 13)
  | bleu (rs rt : Reg) (off : BitVec 13)
  | j (off : BitVec 21)
  | jal (off : BitVec 21)
  | jr (rs : Reg)
  | jalr (rs : Reg)
  | ret
  | call (sym pc : Word)
  | tail (sym pc : Word)
  | fence
  deriving DecidableEq, Repr

/-- `lo = sext_12(d[11:0])`, as the 12-bit field. -/
def loPart (d : Word) : BitVec 12 := field d 0 12

/-- `hi = ((d - lo) >> 12) & 0xFFFFF`. -/
def hiPart (d : Word) : BitVec 20 := field (d - extendImm (loPart d)) 12 20

/-- A constant: one ADDI where it fits 12 signed bits, otherwise LUI, and ADDI unless `lo` is 0. -/
def expandLi (rd : Reg) (v : Word) : List Instr :=
  if extendImm (loPart v) = v then [.addi rd 0 (loPart v)]
  else if loPart v = 0 then [.lui rd (hiPart v)]
  else [.lui rd (hiPart v), .addi rd rd (loPart v)]

/-- The expansion column of R94. -/
def Pseudo.expand : Pseudo → List Instr
  | .nop => [.addi 0 0 0]
  | .li rd v => expandLi rd v
  | .la rd sym pc => [.auipc rd (hiPart (sym - pc)), .addi rd rd (loPart (sym - pc))]
  | .mv rd rs => [.addi rd rs 0]
  | .not rd rs => [.xori rd rs (-1)]
  | .neg rd rs => [.sub rd 0 rs]
  | .seqz rd rs => [.sltiu rd rs 1]
  | .snez rd rs => [.sltu rd 0 rs]
  | .sltz rd rs => [.slt rd rs 0]
  | .sgtz rd rs => [.slt rd 0 rs]
  | .beqz rs off => [.beq rs 0 off]
  | .bnez rs off => [.bne rs 0 off]
  | .blez rs off => [.bge 0 rs off]
  | .bgez rs off => [.bge rs 0 off]
  | .bltz rs off => [.blt rs 0 off]
  | .bgtz rs off => [.blt 0 rs off]
  | .bgt rs rt off => [.blt rt rs off]
  | .ble rs rt off => [.bge rt rs off]
  | .bgtu rs rt off => [.bltu rt rs off]
  | .bleu rs rt off => [.bgeu rt rs off]
  | .j off => [.jal 0 off]
  | .jal off => [.jal 1 off]
  | .jr rs => [.jalr 0 rs 0]
  | .jalr rs => [.jalr 1 rs 0]
  | .ret => [.jalr 0 1 0]
  | .call sym pc => [.auipc 1 (hiPart (sym - pc)), .jalr 1 1 (loPart (sym - pc))]
  | .tail sym pc => [.auipc 6 (hiPart (sym - pc)), .jalr 0 6 (loPart (sym - pc))]
  | .fence => [.fence]

/-- The effects of a run of instructions, one after the other, with the pc left where it is unless one writes it. -/
def execAll : List Instr → State → Host.Outcome State Fault Refusal
  | [], s => .next s
  | i :: is, s =>
    match exec i s with
    | .next t => execAll is t
    | .fault k => .fault k
    | .refused r => .refused r

end Sys2Proof.Machine
end

