-- ==== Sys2Proof/Machine/Launch.lean ====
section
/-! DEFINITION. Reset for every configuration, image and entry address (70_reset_and_hazards.md R185 to R189): the
loader's validation as far as R187 lists it, the copying of segments (R188), and the construction of the core (R185).
The loader is outside the block (00_scope.md R5 (a)); an executable is taken as the facts R187 asks about (log 26). -/

namespace Sys2Proof.Machine

/-- A `PT_LOAD` segment (R188): where it goes, whether its offset lies within the file, and its bytes. -/
structure Segment where
  paddr : Nat
  offsetInFile : Bool
  bytes : List Byte
  deriving DecidableEq, Repr

/-- An executable, as R186 and R187 look at it: `start` is the address of the symbol `_start`, if there is one. -/
structure Executable where
  elfMagic : Bool
  elfClass32 : Bool
  elfData2Lsb : Bool
  etExec : Bool
  machine : Nat
  version : Nat
  segments : List Segment
  start : Option Word
  deriving DecidableEq, Repr

/-- "every loaded segment's offset is within the file and fits in memory" (R187). DESIGN CHOICE (log 26, N26): "fits"
is asked of the file's bytes, not of the memory size, and a segment with no file bytes must still have its paddr in
[B, B+S], its end included. -/
def Segment.loadable (c : Config) (g : Segment) : Bool :=
  g.offsetInFile && decide (c.InRange g.paddr g.bytes.length)

/-- The loader's validation (R187); `e_machine` 243 is EM_RISCV. -/
def Executable.valid (c : Config) (e : Executable) : Bool :=
  e.elfMagic && e.elfClass32 && e.elfData2Lsb && e.etExec && e.machine == 243 && e.version == 1 &&
    e.segments.all (Segment.loadable c)

/-- The bytes of INIT_MEM that lie in the region (R188, U4): the launch parameter that no rule constrains. The
list stands for a function: of two cells for one address the later counts. -/
def initialMemory (c : Config) (initMem : List Host.Cell) : Memory :=
  (initMem.filter fun cell => decide (c.InRange cell.1 1)).foldl (fun m cell => m.write cell.1 cell.2) []

/-- "copies each `PT_LOAD` segment": a segment's first byte lands at guest address paddr (R188). DESIGN CHOICE (log 26,
N26): overlapping segments are accepted and copied in the order of the list, so a later one lies over an earlier. -/
def loadSegments (m : Memory) (segments : List Segment) : Memory :=
  segments.foldl (fun m g => m.writeBytes g.paddr g.bytes) m

/-- The constructed core (R185 (3)): nothing about the pc is checked (R189). -/
def State.constructed (c : Config) (image : Memory) (entry : Word) : State :=
  { State.reset with cfg := c, mem := image, pc := entry }

/-- The reset sequence (R185): validate, find `_start`, construct. A violated configuration is refused (20_memory.md
R41), and a failed validation or a missing `_start` is `LoaderError`: no run starts (R186, R187). -/
def launch (c : Config) (initMem : List Host.Cell) (e : Executable) : Host.Outcome State Fault Refusal :=
  if c.valid then
    if e.valid c then
      match e.start with
      | some entry => .next (State.constructed c (loadSegments (initialMemory c initMem) e.segments) entry)
      | none => .refused .loaderError
    else .refused .loaderError
  else .refused .badConfiguration

end Sys2Proof.Machine
end

