-- ==== Sys2Proof/Safety.lean ====
section
/-! DEFINITION. What claims speak of: the invariant of the core, the frames of instructions, and what is
architectural about a state. -/

namespace Sys2Proof.Machine

/-! ### The invariant -/

/-- Memory is in its canonical form and lists only addresses of [B, B+S) (20_memory.md R39). -/
abbrev State.MemoryInv (s : State) : Prop := s.mem.wf ∧ ∀ c ∈ s.mem, s.cfg.InRange c.1 1

/-- What holds of the core at every step: an admissible configuration (R41); canonical memory inside the region; the
storage of x0 is zero ("register 0 never holds a nonzero value regardless of any write", R20); between steps of a
running or stopped core `branchTaken` is false (R26, R103; an exit can leave it set, R170); and the fd table is the
one of reset (R32). -/
structure State.Inv (s : State) : Prop where
  config : s.cfg.valid = true
  memory : s.MemoryInv
  zero : s.regs[0] = 0
  flag : s.runStatus = .running ∨ s.runStatus = .stopped → s.branchTaken = false
  files : s.fdTable = fdTableAtReset

/-! ### Frames -/

/-- The state that no instruction writes by itself: the step and the host's side own it (10_state.md R22, R28, R29,
R32, R33). -/
structure SameOutside (s t : State) : Prop where
  cfg : t.cfg = s.cfg
  cycleCount : t.cycleCount = s.cycleCount
  fetchAddress : t.fetchAddress = s.fetchAddress
  fdTable : t.fdTable = s.fdTable
  runStatus : t.runStatus = s.runStatus
  hostOut : t.hostOut = s.hostOut
  traceLog : t.traceLog = s.traceLog
  hostIn : t.hostIn = s.hostIn
  hostCalls : t.hostCalls = s.hostCalls

/-- Every register reads as before. -/
abbrev SameRegs (s t : State) : Prop := ∀ r : Reg, t.x r = s.x r

/-- Every byte of memory reads as before. -/
abbrev SameMemory (s t : State) : Prop := ∀ a : Nat, t.byte a = s.byte a

/-- Every byte outside the `n` bytes at `a` reads as before. -/
abbrev SameMemoryOutside (a n : Nat) (s t : State) : Prop := ∀ b : Nat, b < a ∨ a + n ≤ b → t.byte b = s.byte b

/-- The pc and `branchTaken` are as before. -/
abbrev SamePc (s t : State) : Prop := t.pc = s.pc ∧ t.branchTaken = s.branchTaken

/-- rd holds `v` (and x0 still reads 0), and every other register reads as before (R13, R20). -/
abbrev RegWritten (rd : Reg) (v : Word) (s t : State) : Prop :=
  t.x rd = (if rd = 0 then 0 else v) ∧ ∀ r : Reg, r ≠ rd → t.x r = s.x r

/-- `x[rd] <- v` and nothing else. -/
structure WritesOnlyReg (rd : Reg) (v : Word) (s t : State) : Prop where
  reg : RegWritten rd v s t
  pc : SamePc s t
  memory : SameMemory s t
  rest : SameOutside s t

/-- `pc <- target`, with `branchTaken` set, and nothing else (00_scope.md R14). -/
structure WritesOnlyPc (target : Word) (s t : State) : Prop where
  pc : t.pc = target
  flag : t.branchTaken = true
  regs : SameRegs s t
  memory : SameMemory s t
  rest : SameOutside s t

/-- The `n` bytes at `a` hold `v`, least significant first, and nothing else changes. -/
structure StoresOnly (a n v : Nat) (s t : State) : Prop where
  stored : ∀ k < n, (t.byte (a + k)).toNat = v / 2 ^ (8 * k) % 256
  memory : SameMemoryOutside a n s t
  regs : SameRegs s t
  pc : SamePc s t
  rest : SameOutside s t

/-- The low `8 * n` bits that memory holds at `a`, least significant byte first (20_memory.md R47). -/
def State.valueAt (s : State) (a : Nat) : Nat → Nat
  | 0 => 0
  | n + 1 => s.valueAt a n + (s.byte (a + n)).toNat * 2 ^ (8 * n)

/-- `x[rd] <- link; pc <- target`, with `branchTaken` set, and nothing else (42_jumps.md R110, R111). -/
structure LinksAndJumps (rd : Reg) (link target : Word) (s t : State) : Prop where
  reg : RegWritten rd link s t
  pc : t.pc = target
  flag : t.branchTaken = true
  memory : SameMemory s t
  rest : SameOutside s t

/-! ### Kinds of instructions -/

/-- A word matches a row of the opcode table. -/
abbrev Matches (w mask bits : Word) : Prop := w &&& mask = bits

/-- The instructions whose handler can write the pc: JAL, JALR and the branches (00_scope.md R14). -/
def jumpOrBranch : Instr → Bool
  | .jal .. | .jalr .. | .beq .. | .bne .. | .blt .. | .bge .. | .bltu .. | .bgeu .. => true
  | .lui .. | .auipc .. | .lb .. | .lh .. | .lw .. | .lbu .. | .lhu .. | .sb .. | .sh .. | .sw .. => false
  | .addi .. | .slti .. | .sltiu .. | .xori .. | .ori .. | .andi .. | .slli .. | .srli .. | .srai .. => false
  | .add .. | .sub .. | .sll .. | .slt .. | .sltu .. | .xor .. | .srl .. | .sra .. | .or .. | .and .. => false
  | .fence | .ecall | .ebreak => false

/-- The width of the access of a load or store, and none for an instruction that accesses no memory (20_memory.md
R50). -/
def accessWidth : Instr → Option Nat
  | .lb .. | .lbu .. | .sb .. => some 1
  | .lh .. | .lhu .. | .sh .. => some 2
  | .lw .. | .sw .. => some 4
  | .lui .. | .auipc .. | .jal .. | .jalr .. | .beq .. | .bne .. | .blt .. | .bge .. | .bltu .. | .bgeu .. => none
  | .addi .. | .slti .. | .sltiu .. | .xori .. | .ori .. | .andi .. | .slli .. | .srli .. | .srai .. => none
  | .add .. | .sub .. | .sll .. | .slt .. | .sltu .. | .xor .. | .srl .. | .sra .. | .or .. | .and .. => none
  | .fence | .ecall | .ebreak => none

/-- The address of a load's or store's access (R133, R139). -/
def accessAddress (s : State) : Instr → Nat
  | .lb _ rs1 imm | .lh _ rs1 imm | .lw _ rs1 imm | .lbu _ rs1 imm | .lhu _ rs1 imm => (s.effectiveAddress rs1 imm).toNat
  | .sb _ rs1 imm | .sh _ rs1 imm | .sw _ rs1 imm => (s.effectiveAddress rs1 imm).toNat
  | _ => 0

/-- The stores. -/
def isStore : Instr → Bool
  | .sb .. | .sh .. | .sw .. => true
  | _ => false

/-- The jump or branch is taken: always for JAL and JALR, on its condition for a branch (47_branches.md R144 to
R149). -/
def Taken (s : State) : Instr → Prop
  | .jal .. | .jalr .. => True
  | .beq rs1 rs2 _ => s.x rs1 = s.x rs2
  | .bne rs1 rs2 _ => s.x rs1 ≠ s.x rs2
  | .blt rs1 rs2 _ => (s.x rs1).toInt < (s.x rs2).toInt
  | .bge rs1 rs2 _ => (s.x rs1).toInt ≥ (s.x rs2).toInt
  | .bltu rs1 rs2 _ => (s.x rs1).toNat < (s.x rs2).toNat
  | .bgeu rs1 rs2 _ => (s.x rs1).toNat ≥ (s.x rs2).toNat
  | _ => False

/-! ### Steps -/

/-- A step is made from here: an admissible configuration, a running core, the cycle limit not reached (40_step.md
R96, R107). -/
structure State.Ready (s : State) : Prop where
  config : s.cfg.valid = true
  running : s.runStatus = .running
  limit : limitReached s = false

/-- The word at the pc: aligned, in range, little-endian (40_step.md R99). -/
structure State.Fetches (s : State) (w : Word) : Prop where
  aligned : s.pc.toNat % 4 = 0
  inRange : s.cfg.InRange s.pc.toNat 4
  word : BitVec.ofNat 32 (s.valueAt s.pc.toNat 4) = w

/-- The step fetches and decodes `i`, which executes to `t` (40_step.md R97 (1), (2)). -/
structure State.Executes (s : State) (i : Instr) (t : State) : Prop where
  ready : s.Ready
  fetched : ∃ w, s.Fetches w ∧ decode w = .ok i
  executed : exec i s.captureFetch = .next t

/-- tohost points to an aligned command block of the region with these first doublewords (60_exceptions.md R166 to
R168). -/
structure State.Commands (s : State) (id a0 a1 a2 : Nat) : Prop where
  pending : s.valueAt tohostAddr 8 ≠ 0
  aligned : s.valueAt tohostAddr 8 % 8 = 0
  inRange : s.cfg.InRange (s.valueAt tohostAddr 8) 64
  id : s.valueAt (s.valueAt tohostAddr 8) 8 = id
  a0 : s.valueAt (s.valueAt tohostAddr 8 + 8) 8 = a0
  a1 : s.valueAt (s.valueAt tohostAddr 8 + 16) 8 = a1
  a2 : s.valueAt (s.valueAt tohostAddr 8 + 24) 8 = a2

/-- A step from `s` whose instruction left `t` goes on to `u`: the pc advance and the count, with the registers as the
instruction left them (40_step.md R97 (4), (5), R103, R104). -/
structure StepGoesOn (s t u : State) : Prop where
  taken : t.branchTaken = true → u.pc = t.pc
  notTaken : t.branchTaken = false → u.pc = BitVec.ofNat 32 (t.pc.toNat + 4)
  flag : u.branchTaken = false
  cycleCount : u.cycleCount.toNat = s.cycleCount.toNat + 1
  fetchAddress : u.fetchAddress = s.pc
  regs : SameRegs t u
  cfg : u.cfg = s.cfg
  fdTable : u.fdTable = s.fdTable
  runStatus : u.runStatus = .running

/-- `fromhost <- r` for the host's bounded answer to the call made at `s`, two's complement for -1, and `tohost <- 0`
(60_exceptions.md R171 to R173); the call is counted and its answer used up (log 13). -/
structure CommandAnswered (len : Nat) (s t : State) : Prop where
  tohost : t.valueAt tohostAddr 8 = 0
  failed : s.hostAnswer.bounded len = none → t.valueAt fromhostAddr 8 = 2 ^ 64 - 1
  count : ∀ r, s.hostAnswer.bounded len = some r → r ≤ len ∧ t.valueAt fromhostAddr 8 = r
  calls : t.hostCalls = s.hostCalls + 1
  input : t.hostIn = s.hostIn.tail

/-- A READ into the `len` bytes at `buf`, served at `s` (R171, R175): those bytes outside the HTIF pair are the host's,
and no other byte changes. -/
structure ReadServed (buf len : Nat) (s t : State) : Prop where
  answered : CommandAnswered len s t
  length : (s.hostBuffer len).length = len
  buffer : ∀ k (hk : k < (s.hostBuffer len).length), buf + k < 0x2000 ∨ 0x2010 ≤ buf + k →
    t.byte (buf + k) = (s.hostBuffer len)[k]
  memory : ∀ a, (a < 0x2000 ∨ 0x2010 ≤ a) → (a < buf ∨ buf + len ≤ a) → t.byte a = s.byte a
  output : t.hostOut = s.hostOut

/-- A WRITE of the `len` bytes at `buf` to slot `fd`, served at `s` (R172, R176): they are delivered, and no byte
outside the HTIF pair changes. -/
structure WriteServed (fd : Nat) (file : HostFile) (buf len : Nat) (s t : State) : Prop where
  answered : CommandAnswered len s t
  output : ∃ bytes : List Byte, t.hostOut = s.hostOut ++ [{ fd := fd, file := file, bytes := bytes }] ∧
    bytes.length = len ∧ ∀ k (hk : k < bytes.length), bytes[k] = s.byte (buf + k)
  memory : ∀ a, (a < 0x2000 ∨ 0x2010 ≤ a) → t.byte a = s.byte a

/-- The service of the command pending at `t` is the error `k`, and so is every step whose instruction left `t`. -/
structure ServiceFails (t : State) (k : Fault) : Prop where
  service : htifService t = .error k
  step : ∀ (s : State) (i : Instr), s.Executes i t → step s = .fault k

/-! ### Architecture without the trace -/

/-- The state without its trace: TRACE off and no line (60_exceptions.md R182). -/
def State.untraced (s : State) : State := { s with cfg := { s.cfg with trace := false }, traceLog := [] }

/-- An answer of a step without the trace. -/
def untracedOutcome : Host.Outcome State Fault Refusal → Host.Outcome State Fault Refusal
  | .next t => .next t.untraced
  | .fault k => .fault k
  | .refused r => .refused r

end Sys2Proof.Machine
end

