-- ==== Sys2Proof/Certificates/Slice0/Obligations.lean ====
section
/-! DEFINITION. The statements for the provers. Each docstring names the rules of spec/ it speaks of, and every choice
of the model or decision of the spec it rests on. `x`, `byte` and `valueAt` are the model's reads of a register, of a
byte and of a little-endian value. -/

open Sys2Proof Sys2Proof.Machine

/-! ## Reset and launch -/

/-- 70_reset_and_hazards.md R185 (3), R189: for every admissible configuration, every loadable executable with a
`_start`, and every INIT_MEM, the constructed core is as R185 says; the entry address is not checked (D28, log 18).
That x1 to x31 are 0 is the spec's decision D2 (log 4), that `branchTaken` is false D21 (log 6), and that no slot
exists from 3 on D16 (log 16). -/
def Obligations.LaunchConstructsTheCore : Prop :=
  ∀ (c : Config) (initMem : List Host.Cell) (e : Executable) (entry : Word),
    c.valid = true → e.valid c = true → e.start = some entry →
    ∃ t, launch c initMem e = .next t ∧ t.cfg = c ∧ (∀ r : Reg, t.x r = 0) ∧ t.pc = entry ∧ t.branchTaken = false ∧
      t.cycleCount = 0 ∧ t.hostFile 0 = some .stdin ∧ t.hostFile 1 = some .stdout ∧ t.hostFile 2 = some .stderr ∧
      (∀ fd, 3 ≤ fd → t.hostFile fd = none) ∧ t.runStatus = .running ∧ t.hostOut = [] ∧ t.traceLog = []

/-- R188: a segment's bytes stand from its paddr on, unless a later segment covers them (that overlapping segments are
accepted, the later on top, is the model's choice: log 26, N26). A byte of the region that no segment covers has the
value of INIT_MEM's one cell for it, whatever value that is (U4), and in any case the value of `initialMemory` (for a
byte INIT_MEM does not list: log 3). -/
def Obligations.LaunchCopiesSegments : Prop :=
  ∀ (c : Config) (initMem : List Host.Cell) (e : Executable) (t : State), launch c initMem e = .next t →
    (∀ (before after : List Segment) (g : Segment) (k : Nat) (hk : k < g.bytes.length),
      e.segments = before ++ g :: after →
      (∀ h ∈ after, g.paddr + k < h.paddr ∨ h.paddr + h.bytes.length ≤ g.paddr + k) →
      t.byte (g.paddr + k) = g.bytes[k]) ∧
    (∀ (before after : List Host.Cell) (a : Nat) (b : Byte), initMem = before ++ (a, b) :: after →
      (∀ d ∈ before ++ after, d.1 ≠ a) → c.InRange a 1 →
      (∀ h ∈ e.segments, a < h.paddr ∨ h.paddr + h.bytes.length ≤ a) → t.byte a = b) ∧
    (∀ a, (∀ h ∈ e.segments, a < h.paddr ∨ h.paddr + h.bytes.length ≤ a) →
      t.byte a = (initialMemory c initMem).read a)

/-- R185 to R187 and 20_memory.md R41: no run starts under a violated configuration, with an executable that fails
the validation, or without `_start`. Each condition of R187 is a clause; that a segment with no file bytes is held to
its paddr is the model's choice (log 26, N26). -/
def Obligations.LaunchRefusesBadInput : Prop :=
  ∀ (c : Config) (initMem : List Host.Cell) (e : Executable),
    (c.valid = false → launch c initMem e = .refused .badConfiguration) ∧
    (c.valid = true →
      (e.elfMagic = false ∨ e.elfClass32 = false ∨ e.elfData2Lsb = false ∨ e.etExec = false ∨ e.machine ≠ 243 ∨
        e.version ≠ 1 ∨
        (∃ g ∈ e.segments, g.offsetInFile = false ∨ g.paddr < c.memBase ∨
          c.memBase + c.memSize < g.paddr + g.bytes.length) ∨
        e.start = none) →
      launch c initMem e = .refused .loaderError)

/-! ## The invariant -/

/-- The state after reset meets the invariant of `State.Inv` (10_state.md R20, R26, R32, R36; 20_memory.md R39, R41).
The configuration and memory of `State.reset` are the model's choices (log 1, 3). -/
def Obligations.ResetMeetsInvariant : Prop := State.reset.Inv

/-- Every launch that starts a run gives a state that meets the invariant. -/
def Obligations.LaunchMeetsInvariant : Prop :=
  ∀ (c : Config) (initMem : List Host.Cell) (e : Executable) (t : State), launch c initMem e = .next t → t.Inv

/-- Every step keeps the invariant, from every state that meets it: the configuration stays admissible, memory stays
canonical and inside [B, B+S), x0's storage stays zero, `branchTaken` is false between steps of a running or stopped
core, the fd table is unchanged. -/
def Obligations.StepKeepsInvariant : Prop := ∀ s t : State, s.Inv → step s = .next t → t.Inv

/-! ## Encoding and decoding -/

/-- Decoding the word of a well-formed instruction gives the instruction back, for every instruction and every operand
value (30_encoding.md R64 to R85; the funct3 values are the spec's decision D24, log 19). -/
def Obligations.DecodeEncodeRoundTrip : Prop := ∀ i : Instr, i.WellFormed → decode (encode i) = .ok i

/-- The other way: what decodes is well formed, and a word of an instruction all of whose bits are read is the encoded
word. JALR, FENCE, ECALL and EBREAK have bits that are not checked (R77, R84, R85). -/
def Obligations.EncodeDecodeRoundTrip : Prop :=
  ∀ (w : Word) (i : Instr), decode w = .ok i → i.WellFormed ∧
    ((∀ rd rs1 imm, i ≠ .jalr rd rs1 imm) → i ≠ .fence → i ≠ .ecall → i ≠ .ebreak → encode i = w)

/-- The decoder of R75 and the rows of spec/opcode_table.json say the same: a word decodes to an instruction exactly
when it matches a row, and the row is the one with the instruction's mnemonic; no word matches two rows. The funct
values of the rows are log 19 and 21 (D24, D8), the fields no row checks log 20 (D29, D9, D7). -/
def Obligations.DecodeAgreesWithOpcodeTable : Prop :=
  (∀ (w : Word) (i : Instr), decode w = .ok i →
    ∃ row ∈ opcodeTable, row.mnemonic = i.mnemonic ∧ Matches w row.mask row.bits) ∧
  (∀ (w : Word) (row : OpcodeRow), row ∈ opcodeTable → Matches w row.mask row.bits →
    ∃ i, decode w = .ok i ∧ i.mnemonic = row.mnemonic) ∧
  (∀ (w : Word) (p q : OpcodeRow), p ∈ opcodeTable → q ∈ opcodeTable → Matches w p.mask p.bits →
    Matches w q.mask q.bits → p = q)

/-- R86: UnknownOpcode for every primary opcode other than the eleven of R74, 117 of the 128 values, among them every
value whose bits 1:0 are not 0b11 and each value R86 lists. -/
def Obligations.UnknownOpcodeExactly : Prop :=
  (∀ w : Word, decode w = .error .unknownOpcode ↔
    w.extractLsb' 0 7 ∉ [0x03#7, 0x0F#7, 0x13#7, 0x17#7, 0x23#7, 0x33#7, 0x37#7, 0x63#7, 0x67#7, 0x6F#7, 0x73#7]) ∧
  ((List.range 128).countP fun op => decide (decode (BitVec.ofNat 32 op) = .error .unknownOpcode)) = 117 ∧
  (∀ w : Word, w.extractLsb' 0 2 ≠ 0b11#2 → decode w = .error .unknownOpcode) ∧
  (∀ w : Word, w.extractLsb' 0 7 ∈ [0x07#7, 0x27#7, 0x2F#7, 0x1B#7, 0x3B#7, 0x43#7, 0x47#7, 0x4B#7, 0x4F#7, 0x53#7,
    0x57#7, 0x0B#7, 0x2B#7, 0x5B#7, 0x7B#7, 0x1F#7, 0x3F#7, 0x5F#7, 0x6B#7, 0x77#7, 0x7F#7] →
    decode w = .error .unknownOpcode)

/-- R87 (the spec's own inference from R75; funct values by D8 and D24, log 19, 21): UnknownFunct exactly for the
listed opcode, funct3 and funct7 combinations. -/
def Obligations.UnknownFunctExactly : Prop :=
  ∀ w : Word, decode w = .error .unknownFunct ↔
    (w.extractLsb' 0 7 = 0x63#7 ∧ w.extractLsb' 12 3 ∈ [0b010#3, 0b011#3]) ∨
    (w.extractLsb' 0 7 = 0x03#7 ∧ w.extractLsb' 12 3 ∈ [0b011#3, 0b110#3, 0b111#3]) ∨
    (w.extractLsb' 0 7 = 0x23#7 ∧ w.extractLsb' 12 3 ∈ [0b011#3, 0b100#3, 0b101#3, 0b110#3, 0b111#3]) ∨
    (w.extractLsb' 0 7 = 0x13#7 ∧ w.extractLsb' 12 3 = 0b001#3 ∧ w.extractLsb' 25 7 ≠ 0b0000000#7) ∨
    (w.extractLsb' 0 7 = 0x13#7 ∧ w.extractLsb' 12 3 = 0b101#3 ∧
      w.extractLsb' 25 7 ∉ [0b0000000#7, 0b0100000#7]) ∨
    (w.extractLsb' 0 7 = 0x33#7 ∧ w.extractLsb' 25 7 ∉ [0b0000000#7, 0b0100000#7]) ∨
    (w.extractLsb' 0 7 = 0x33#7 ∧ w.extractLsb' 25 7 = 0b0100000#7 ∧ w.extractLsb' 12 3 ∉ [0b000#3, 0b101#3])

/-- R85, R88 (D7, log 20): UnknownSysImm exactly for the SYSTEM words whose `inst[31:20]` is not 0 or 1, whatever
their other fields; 0 is ECALL and 1 is EBREAK, whatever their other fields (R89). -/
def Obligations.SystemWordsSelectByImmediate : Prop :=
  ∀ w : Word,
    (decode w = .error .unknownSysImm ↔
      w.extractLsb' 0 7 = 0x73#7 ∧ w.extractLsb' 20 12 ≠ 0#12 ∧ w.extractLsb' 20 12 ≠ 1#12) ∧
    (decode w = .ok .ecall ↔ w.extractLsb' 0 7 = 0x73#7 ∧ w.extractLsb' 20 12 = 0#12) ∧
    (decode w = .ok .ebreak ↔ w.extractLsb' 0 7 = 0x73#7 ∧ w.extractLsb' 20 12 = 1#12)

/-- R68 to R73: the immediates as sums of weighted bits of the word, the sign bit counted negative; B and J scaled
once (90_conflicts.md C3). -/
def Obligations.ImmediatesAreWeightedBits : Prop :=
  ∀ w : Word,
    (extendImm (immIOf w)).toInt = (w.toNat / 2 ^ 20 % 2 ^ 11 : Int) - 2 ^ 11 * (w.toNat / 2 ^ 31 : Int) ∧
    (extendImm (immSOf w)).toInt =
      (w.toNat / 2 ^ 7 % 2 ^ 5 : Int) + 2 ^ 5 * (w.toNat / 2 ^ 25 % 2 ^ 6 : Int) - 2 ^ 11 * (w.toNat / 2 ^ 31 : Int) ∧
    ((immBOf w).signExtend 32).toInt =
      2 * (w.toNat / 2 ^ 8 % 2 ^ 4 : Int) + 2 ^ 5 * (w.toNat / 2 ^ 25 % 2 ^ 6 : Int) +
        2 ^ 11 * (w.toNat / 2 ^ 7 % 2 : Int) - 2 ^ 12 * (w.toNat / 2 ^ 31 : Int) ∧
    (upperImm (immUOf w)).toNat = w.toNat - w.toNat % 2 ^ 12 ∧
    ((immJOf w).signExtend 32).toInt =
      2 * (w.toNat / 2 ^ 21 % 2 ^ 10 : Int) + 2 ^ 11 * (w.toNat / 2 ^ 20 % 2 : Int) +
        2 ^ 12 * (w.toNat / 2 ^ 12 % 2 ^ 8 : Int) - 2 ^ 20 * (w.toNat / 2 ^ 31 : Int) ∧
    (shamtOf w).toNat = w.toNat / 2 ^ 20 % 2 ^ 5

/-- Words written out from the encodings decode to the instructions they stand for (the vectors of 95_test_vectors.md
U-1, J-7, BR-3, ST-4, OI-16, OP-3, LD-8 and SY-3). -/
def Obligations.SampleWordsDecode : Prop :=
  decode 0x123450B7 = .ok (.lui 1 0x12345) ∧ decode 0xFFF302E7 = .ok (.jalr 5 6 (-1)) ∧
    decode 0xFE209EE3 = .ok (.bne 1 2 (-4)) ∧ decode 0xFE20AE23 = .ok (.sw 2 1 (-4)) ∧
    decode 0x4010D113 = .ok (.srai 2 1 1) ∧ decode 0x402081B3 = .ok (.sub 3 1 2) ∧
    decode 0xFFC0A103 = .ok (.lw 2 1 (-4)) ∧ decode 0x0FF0000F = .ok .fence

/-! ## Memory -/

/-- 20_memory.md R47: `MemRead(a, n)` for every width and every 32-bit address, its two checks in order, and the sum
it returns. -/
def Obligations.MemReadChecksThenSums : Prop :=
  ∀ (s : State) (a : Word) (n : Nat), n ∈ [1, 2, 4, 8] →
    let misaligned := (n = 2 ∧ a.extractLsb' 0 1 ≠ 0) ∨ (n = 4 ∧ a.extractLsb' 0 2 ≠ 0) ∨
      (n = 8 ∧ a.extractLsb' 0 3 ≠ 0)
    let inRange := s.cfg.memBase ≤ a.toNat ∧ a.toNat + n ≤ s.cfg.memBase + s.cfg.memSize
    (misaligned → memRead s a.toNat n = .error (.misalignedAccess a.toNat n)) ∧
    (¬ misaligned → ¬ inRange → memRead s a.toNat n = .error (.outOfRange a.toNat n)) ∧
    (¬ misaligned → inRange →
      memRead s a.toNat n = .ok (∑ k ∈ Finset.range n, (s.byte (a.toNat + k)).toNat * 2 ^ (8 * k)))

/-- 20_memory.md R48: `MemWrite(a, n, v)`, with the checks and errors of MemRead and no byte written when one fails;
otherwise byte k holds `v[8k+7:8k]`, all other bytes and everything else are unchanged, and a read of the same width
and address returns the low 8n bits of v. -/
def Obligations.MemWriteStoresItsBytesOnly : Prop :=
  ∀ (s : State) (a : Word) (n v : Nat), n ∈ [1, 2, 4, 8] →
    (∀ k, memRead s a.toNat n = .error k → memWrite s a.toNat n v = .error k) ∧
    (∀ r, memRead s a.toNat n = .ok r → ∃ t, memWrite s a.toNat n v = .ok t ∧ StoresOnly a.toNat n v s t ∧
      memRead t a.toNat n = .ok (v % 2 ^ (8 * n)))

/-- 20_memory.md R43: the mixed-width views. A word holds its four bytes from bit 0 up; a byte stored at a+3 appears in
bits 31:24 of the word at a; a doubleword holds the word at a in bits 31:0 and the word at a+4 in bits 63:32. -/
def Obligations.MixedWidthViews : Prop :=
  (∀ (s : State) (a v : Nat), memRead s a 4 = .ok v →
    ∀ k < 4, memRead s (a + k) 1 = .ok (v / 2 ^ (8 * k) % 256)) ∧
  (∀ (s t : State) (a b v : Nat), memRead s a 4 = .ok v → memWrite s (a + 3) 1 b = .ok t →
    memRead t a 4 = .ok (v % 2 ^ 24 + b % 256 * 2 ^ 24)) ∧
  (∀ (s : State) (a v : Nat), memRead s a 8 = .ok v →
    memRead s a 4 = .ok (v % 2 ^ 32) ∧ memRead s (a + 4) 4 = .ok (v / 2 ^ 32))

/-- 20_memory.md R49 (D4): block copies have no alignment rule; they raise OutOfRange exactly when the length is not 0
and the range is left, and a length of 0 touches nothing; a copy written is read back and leaves all other bytes
alone. -/
def Obligations.BlockCopies : Prop :=
  ∀ (s : State) (a : Nat) (bytes : List Byte),
    (bytes = [] → memReadBlock s a 0 = .ok [] ∧ memWriteBlock s a bytes = .ok s) ∧
    (bytes ≠ [] → ¬ s.cfg.InRange a bytes.length →
      memReadBlock s a bytes.length = .error (.outOfRange a bytes.length) ∧
      memWriteBlock s a bytes = .error (.outOfRange a bytes.length)) ∧
    (bytes ≠ [] → s.cfg.InRange a bytes.length →
      (∃ now, memReadBlock s a bytes.length = .ok now ∧ now.length = bytes.length ∧
        ∀ k (hk : k < now.length), now[k] = s.byte (a + k)) ∧
      ∃ t, memWriteBlock s a bytes = .ok t ∧ memReadBlock t a bytes.length = .ok bytes ∧
        SameMemoryOutside a bytes.length s t ∧ SameRegs s t ∧ SamePc s t ∧ SameOutside s t)

/-! ## Registers and instructions as a whole -/

/-- 10_state.md R20: x0 reads 0 after every instruction and a write to it changes no register; an instruction whose rd
is 0 still does the rest of its rule: a load makes its read and raises its errors, a jump writes the pc (42_jumps.md
R110, R111). That the jumps complete for every target is the spec's decision D10 (R112; log 18); the completion stated
here is for rd = x0 only. -/
def Obligations.RegisterZeroIsHardwired : Prop :=
  (∀ s : State, s.x 0 = 0) ∧
  (∀ (s : State) (v : Word) (r : Reg), (s.setX 0 v).x r = s.x r) ∧
  (∀ (s : State) (rd rs1 : Reg) (imm : BitVec 12) (k : Fault),
    (exec (.lb 0 rs1 imm) s = .fault k ↔ exec (.lb rd rs1 imm) s = .fault k) ∧
    (exec (.lh 0 rs1 imm) s = .fault k ↔ exec (.lh rd rs1 imm) s = .fault k) ∧
    (exec (.lw 0 rs1 imm) s = .fault k ↔ exec (.lw rd rs1 imm) s = .fault k) ∧
    (exec (.lbu 0 rs1 imm) s = .fault k ↔ exec (.lbu rd rs1 imm) s = .fault k) ∧
    (exec (.lhu 0 rs1 imm) s = .fault k ↔ exec (.lhu rd rs1 imm) s = .fault k)) ∧
  (∀ (s : State) (offset : BitVec 21), ∃ t, exec (.jal 0 offset) s = .next t ∧ SameRegs s t ∧
    t.pc = BitVec.ofInt 32 (s.pc.toNat + offset.toInt) ∧ t.branchTaken = true) ∧
  (∀ (s : State) (rs1 : Reg) (imm : BitVec 12), ∃ t, exec (.jalr 0 rs1 imm) s = .next t ∧ SameRegs s t ∧
    t.pc = BitVec.ofInt 32 ((s.x rs1).toInt + imm.toInt) &&& 0xFFFFFFFE ∧ t.branchTaken = true)

/-- 40_step.md R101, 10_state.md R22 (the spec's inference): what any instruction leaves unchanged. At most rd among
the registers; the pc and `branchTaken` but for a jump or branch; memory but for the bytes of a store; and never the
configuration, the counters, the fd table, the run status, the host's side or the trace. -/
def Obligations.EveryInstructionFrame : Prop :=
  ∀ (i : Instr) (s t : State), exec i s = .next t →
    SameOutside s t ∧ (∀ r : Reg, i.rd? ≠ some r → t.x r = s.x r) ∧
    (jumpOrBranch i = false → SamePc s t) ∧
    (isStore i = false → SameMemory s t) ∧
    (∀ n, isStore i = true → accessWidth i = some n → SameMemoryOutside (accessAddress s i) n s t)

/-- 60_exceptions.md R155, R159, 20_memory.md R50: in its execution an instruction raises an error only for its own
access, which only loads and stores have: MisalignedAccess when the address is no multiple of the width, otherwise
OutOfRange when a byte is out of range (D4, log 17); in every other case it completes, and none is refused. That JAL,
JALR and every taken branch complete at every target, none being checked, is the spec's decision D10 (42_jumps.md R112;
log 18). -/
def Obligations.ExecutionErrorsExactly : Prop :=
  ∀ (i : Instr) (s : State),
    (accessWidth i = none → ∃ t, exec i s = .next t) ∧
    (∀ n, accessWidth i = some n →
      (accessAddress s i % n ≠ 0 → exec i s = .fault (.misalignedAccess (accessAddress s i) n)) ∧
      (accessAddress s i % n = 0 → ¬ s.cfg.InRange (accessAddress s i) n →
        exec i s = .fault (.outOfRange (accessAddress s i) n)) ∧
      (accessAddress s i % n = 0 → s.cfg.InRange (accessAddress s i) n → ∃ t, exec i s = .next t))

/-- 10_state.md R22 (the spec's inference), 70_reset_and_hazards.md R194: an instruction reads no register but its rs1
and rs2. Two states that differ only in other registers lead to the same error, or to next states with the same rd,
pc, flag and memory. -/
def Obligations.ReadsOnlySourceRegisters : Prop :=
  ∀ (i : Instr) (s : State) (regs : Vector Word 32),
    let s' := { s with regs := regs }
    (∀ r : Reg, i.rs1? = some r ∨ i.rs2? = some r → s'.x r = s.x r) →
    (∀ k, exec i s = .fault k → exec i s' = .fault k) ∧
    (∀ t, exec i s = .next t → ∃ t', exec i s' = .next t' ∧ (∀ rd : Reg, i.rd? = some rd → t'.x rd = t.x rd) ∧
      t'.pc = t.pc ∧ t'.branchTaken = t.branchTaken ∧ t'.mem = t.mem)

/-- 45_loads.md R133, 46_stores.md R139: the one addressing mode, base plus signed displacement modulo 2^32. -/
def Obligations.EffectiveAddressWraps : Prop :=
  ∀ (s : State) (rs1 : Reg) (imm : BitVec 12),
    ((s.effectiveAddress rs1 imm).toNat : Int) = ((s.x rs1).toNat + imm.toInt) % 2 ^ 32

/-- 40_step.md R105: the branch-taken state machine. From DEFAULT_ADVANCE, JAL, JALR and a taken branch move to
BRANCH_HOLD, a branch not taken and every other instruction do not; a step that goes on returns to DEFAULT_ADVANCE. -/
def Obligations.BranchTakenStateMachine : Prop :=
  (∀ (i : Instr) (s t : State), s.branchTaken = false → exec i s = .next t → (t.branchTaken = true ↔ Taken s i)) ∧
  (∀ s u : State, step s = .next u → u.runStatus = .running → u.branchTaken = false)

/-! ## Upper immediates and jumps -/

/-- 41_upper_immediate.md R108, R109: encoding and whole effect of LUI and AUIPC. -/
def Obligations.LuiAndAuipc : Prop :=
  (∀ w : Word, Matches w 0x0000007F 0x00000037 → decode w = .ok (.lui (w.extractLsb' 7 5) (w.extractLsb' 12 20))) ∧
  (∀ w : Word, Matches w 0x0000007F 0x00000017 → decode w = .ok (.auipc (w.extractLsb' 7 5) (w.extractLsb' 12 20))) ∧
  (∀ (rd : Reg) (imm20 : BitVec 20) (s : State), ∃ t, exec (.lui rd imm20) s = .next t ∧
    WritesOnlyReg rd (BitVec.ofNat 32 (imm20.toNat * 2 ^ 12)) s t) ∧
  (∀ (rd : Reg) (imm20 : BitVec 20) (s : State), ∃ t, exec (.auipc rd imm20) s = .next t ∧
    WritesOnlyReg rd (BitVec.ofNat 32 (s.pc.toNat + imm20.toNat * 2 ^ 12)) s t)

/-- 42_jumps.md R110: encoding and effect of JAL. That it completes for every target, none being checked, is the
spec's decision D10 (R112; log 18). -/
def Obligations.JalLinksAndJumps : Prop :=
  (∀ w : Word, Matches w 0x0000007F 0x0000006F → decode w = .ok (.jal (w.extractLsb' 7 5) (immJOf w))) ∧
  (∀ (rd : Reg) (offset : BitVec 21) (s : State), ∃ t, exec (.jal rd offset) s = .next t ∧
    LinksAndJumps rd (BitVec.ofNat 32 (s.pc.toNat + 4)) (BitVec.ofInt 32 (s.pc.toNat + offset.toInt)) s t)

/-- 42_jumps.md R111 (any funct3: R77, D29, log 20): encoding and effect of JALR. Bit 0 of the sum is cleared, bit 1
is not; the target is made from the old `x[rs1]`. That it completes for every target, bit 1 not checked, is the spec's
decision D10 (R112; log 18). -/
def Obligations.JalrLinksAndJumps : Prop :=
  (∀ w : Word, Matches w 0x0000007F 0x00000067 →
    decode w = .ok (.jalr (w.extractLsb' 7 5) (w.extractLsb' 15 5) (w.extractLsb' 20 12))) ∧
  (∀ (rd rs1 : Reg) (imm : BitVec 12) (s : State), ∃ t, exec (.jalr rd rs1 imm) s = .next t ∧
    LinksAndJumps rd (BitVec.ofNat 32 (s.pc.toNat + 4))
      (BitVec.ofInt 32 ((s.x rs1).toInt + imm.toInt) &&& 0xFFFFFFFE) s t)

/-! ## Computing instructions (funct3 and funct7 by D8 and D24, log 19, 21) -/

/-- 43_op_imm.md R114, 44_op.md R123, R124: encoding and whole effect of ADDI, ADD and SUB, modulo 2^32. -/
def Obligations.AdditionAndSubtraction : Prop :=
  (∀ w : Word, Matches w 0x0000707F 0x00000013 →
    decode w = .ok (.addi (w.extractLsb' 7 5) (w.extractLsb' 15 5) (w.extractLsb' 20 12))) ∧
  (∀ (rd rs1 : Reg) (imm : BitVec 12) (s : State), ∃ t, exec (.addi rd rs1 imm) s = .next t ∧
    WritesOnlyReg rd (BitVec.ofInt 32 ((s.x rs1).toInt + imm.toInt)) s t) ∧
  (∀ w : Word, Matches w 0xFE00707F 0x00000033 →
    decode w = .ok (.add (w.extractLsb' 7 5) (w.extractLsb' 15 5) (w.extractLsb' 20 5))) ∧
  (∀ w : Word, Matches w 0xFE00707F 0x40000033 →
    decode w = .ok (.sub (w.extractLsb' 7 5) (w.extractLsb' 15 5) (w.extractLsb' 20 5))) ∧
  (∀ (rd rs1 rs2 : Reg) (s : State), ∃ t, exec (.add rd rs1 rs2) s = .next t ∧
    WritesOnlyReg rd (BitVec.ofNat 32 ((s.x rs1).toNat + (s.x rs2).toNat)) s t) ∧
  (∀ (rd rs1 rs2 : Reg) (s : State), ∃ t, exec (.sub rd rs1 rs2) s = .next t ∧
    WritesOnlyReg rd (BitVec.ofInt 32 ((s.x rs1).toInt - (s.x rs2).toInt)) s t)

/-- 43_op_imm.md R115, R116, 44_op.md R126, R127: SLTI and SLT compare signed, SLTU unsigned, and SLTIU sign-extends the
immediate, then compares unsigned (90_conflicts.md C10). -/
def Obligations.SetIfLessThan : Prop :=
  (∀ w : Word, Matches w 0x0000707F 0x00002013 →
    decode w = .ok (.slti (w.extractLsb' 7 5) (w.extractLsb' 15 5) (w.extractLsb' 20 12))) ∧
  (∀ w : Word, Matches w 0x0000707F 0x00003013 →
    decode w = .ok (.sltiu (w.extractLsb' 7 5) (w.extractLsb' 15 5) (w.extractLsb' 20 12))) ∧
  (∀ (rd rs1 : Reg) (imm : BitVec 12) (s : State), ∃ t, exec (.slti rd rs1 imm) s = .next t ∧
    WritesOnlyReg rd (if (s.x rs1).toInt < imm.toInt then 1 else 0) s t) ∧
  (∀ (rd rs1 : Reg) (imm : BitVec 12) (s : State), ∃ t, exec (.sltiu rd rs1 imm) s = .next t ∧
    WritesOnlyReg rd (if ((s.x rs1).toNat : Int) < imm.toInt % 2 ^ 32 then 1 else 0) s t) ∧
  (∀ w : Word, Matches w 0xFE00707F 0x00002033 →
    decode w = .ok (.slt (w.extractLsb' 7 5) (w.extractLsb' 15 5) (w.extractLsb' 20 5))) ∧
  (∀ w : Word, Matches w 0xFE00707F 0x00003033 →
    decode w = .ok (.sltu (w.extractLsb' 7 5) (w.extractLsb' 15 5) (w.extractLsb' 20 5))) ∧
  (∀ (rd rs1 rs2 : Reg) (s : State), ∃ t, exec (.slt rd rs1 rs2) s = .next t ∧
    WritesOnlyReg rd (if (s.x rs1).toInt < (s.x rs2).toInt then 1 else 0) s t) ∧
  (∀ (rd rs1 rs2 : Reg) (s : State), ∃ t, exec (.sltu rd rs1 rs2) s = .next t ∧
    WritesOnlyReg rd (if (s.x rs1).toNat < (s.x rs2).toNat then 1 else 0) s t)

/-- 43_op_imm.md R117 to R119, 44_op.md R128, R131, R132: XORI, ORI, ANDI with the immediate sign-extended, and XOR, OR,
AND. -/
def Obligations.LogicInstructions : Prop :=
  (∀ w : Word, Matches w 0x0000707F 0x00004013 →
    decode w = .ok (.xori (w.extractLsb' 7 5) (w.extractLsb' 15 5) (w.extractLsb' 20 12))) ∧
  (∀ w : Word, Matches w 0x0000707F 0x00006013 →
    decode w = .ok (.ori (w.extractLsb' 7 5) (w.extractLsb' 15 5) (w.extractLsb' 20 12))) ∧
  (∀ w : Word, Matches w 0x0000707F 0x00007013 →
    decode w = .ok (.andi (w.extractLsb' 7 5) (w.extractLsb' 15 5) (w.extractLsb' 20 12))) ∧
  (∀ (rd rs1 : Reg) (imm : BitVec 12) (s : State), ∃ t, exec (.xori rd rs1 imm) s = .next t ∧
    WritesOnlyReg rd (s.x rs1 ^^^ BitVec.ofInt 32 imm.toInt) s t) ∧
  (∀ (rd rs1 : Reg) (imm : BitVec 12) (s : State), ∃ t, exec (.ori rd rs1 imm) s = .next t ∧
    WritesOnlyReg rd (s.x rs1 ||| BitVec.ofInt 32 imm.toInt) s t) ∧
  (∀ (rd rs1 : Reg) (imm : BitVec 12) (s : State), ∃ t, exec (.andi rd rs1 imm) s = .next t ∧
    WritesOnlyReg rd (s.x rs1 &&& BitVec.ofInt 32 imm.toInt) s t) ∧
  (∀ w : Word, Matches w 0xFE00707F 0x00004033 →
    decode w = .ok (.xor (w.extractLsb' 7 5) (w.extractLsb' 15 5) (w.extractLsb' 20 5))) ∧
  (∀ w : Word, Matches w 0xFE00707F 0x00006033 →
    decode w = .ok (.or (w.extractLsb' 7 5) (w.extractLsb' 15 5) (w.extractLsb' 20 5))) ∧
  (∀ w : Word, Matches w 0xFE00707F 0x00007033 →
    decode w = .ok (.and (w.extractLsb' 7 5) (w.extractLsb' 15 5) (w.extractLsb' 20 5))) ∧
  (∀ (rd rs1 rs2 : Reg) (s : State), ∃ t, exec (.xor rd rs1 rs2) s = .next t ∧
    WritesOnlyReg rd (s.x rs1 ^^^ s.x rs2) s t) ∧
  (∀ (rd rs1 rs2 : Reg) (s : State), ∃ t, exec (.or rd rs1 rs2) s = .next t ∧
    WritesOnlyReg rd (s.x rs1 ||| s.x rs2) s t) ∧
  (∀ (rd rs1 rs2 : Reg) (s : State), ∃ t, exec (.and rd rs1 rs2) s = .next t ∧
    WritesOnlyReg rd (s.x rs1 &&& s.x rs2) s t)

/-- 43_op_imm.md R120 to R122, 44_op.md R125, R129, R130: a left shift multiplies by a power of two modulo 2^32, a logical
right shift divides the unsigned value, an arithmetic one the signed value, rounding down; by shamt, or by the low five
bits of `x[rs2]`. -/
def Obligations.ShiftInstructions : Prop :=
  (∀ w : Word, Matches w 0xFE00707F 0x00001013 →
    decode w = .ok (.slli (w.extractLsb' 7 5) (w.extractLsb' 15 5) (w.extractLsb' 20 5))) ∧
  (∀ w : Word, Matches w 0xFE00707F 0x00005013 →
    decode w = .ok (.srli (w.extractLsb' 7 5) (w.extractLsb' 15 5) (w.extractLsb' 20 5))) ∧
  (∀ w : Word, Matches w 0xFE00707F 0x40005013 →
    decode w = .ok (.srai (w.extractLsb' 7 5) (w.extractLsb' 15 5) (w.extractLsb' 20 5))) ∧
  (∀ (rd rs1 : Reg) (shamt : BitVec 5) (s : State), ∃ t, exec (.slli rd rs1 shamt) s = .next t ∧
    WritesOnlyReg rd (BitVec.ofNat 32 ((s.x rs1).toNat * 2 ^ shamt.toNat)) s t) ∧
  (∀ (rd rs1 : Reg) (shamt : BitVec 5) (s : State), ∃ t, exec (.srli rd rs1 shamt) s = .next t ∧
    WritesOnlyReg rd (BitVec.ofNat 32 ((s.x rs1).toNat / 2 ^ shamt.toNat)) s t) ∧
  (∀ (rd rs1 : Reg) (shamt : BitVec 5) (s : State), ∃ t, exec (.srai rd rs1 shamt) s = .next t ∧
    WritesOnlyReg rd (BitVec.ofInt 32 ((s.x rs1).toInt / 2 ^ shamt.toNat)) s t) ∧
  (∀ w : Word, Matches w 0xFE00707F 0x00001033 →
    decode w = .ok (.sll (w.extractLsb' 7 5) (w.extractLsb' 15 5) (w.extractLsb' 20 5))) ∧
  (∀ w : Word, Matches w 0xFE00707F 0x00005033 →
    decode w = .ok (.srl (w.extractLsb' 7 5) (w.extractLsb' 15 5) (w.extractLsb' 20 5))) ∧
  (∀ w : Word, Matches w 0xFE00707F 0x40005033 →
    decode w = .ok (.sra (w.extractLsb' 7 5) (w.extractLsb' 15 5) (w.extractLsb' 20 5))) ∧
  (∀ (rd rs1 rs2 : Reg) (s : State), ∃ t, exec (.sll rd rs1 rs2) s = .next t ∧
    WritesOnlyReg rd (BitVec.ofNat 32 ((s.x rs1).toNat * 2 ^ ((s.x rs2).toNat % 32))) s t) ∧
  (∀ (rd rs1 rs2 : Reg) (s : State), ∃ t, exec (.srl rd rs1 rs2) s = .next t ∧
    WritesOnlyReg rd (BitVec.ofNat 32 ((s.x rs1).toNat / 2 ^ ((s.x rs2).toNat % 32))) s t) ∧
  (∀ (rd rs1 rs2 : Reg) (s : State), ∃ t, exec (.sra rd rs1 rs2) s = .next t ∧
    WritesOnlyReg rd (BitVec.ofInt 32 ((s.x rs1).toInt / 2 ^ ((s.x rs2).toNat % 32))) s t)

/-! ## Loads (funct3 by D24, log 19; OutOfRange by D4, log 17) -/

/-- 45_loads.md R134, R137: LB and LBU, at any alignment. -/
def Obligations.ByteLoads : Prop :=
  (∀ w : Word, Matches w 0x0000707F 0x00000003 →
    decode w = .ok (.lb (w.extractLsb' 7 5) (w.extractLsb' 15 5) (w.extractLsb' 20 12))) ∧
  (∀ w : Word, Matches w 0x0000707F 0x00004003 →
    decode w = .ok (.lbu (w.extractLsb' 7 5) (w.extractLsb' 15 5) (w.extractLsb' 20 12))) ∧
  (∀ (rd rs1 : Reg) (imm : BitVec 12) (s : State),
    let ea := (s.effectiveAddress rs1 imm).toNat
    (s.cfg.InRange ea 1 →
      (∃ t, exec (.lb rd rs1 imm) s = .next t ∧ WritesOnlyReg rd (BitVec.ofInt 32 (s.byte ea).toInt) s t) ∧
      ∃ t, exec (.lbu rd rs1 imm) s = .next t ∧ WritesOnlyReg rd (BitVec.ofNat 32 (s.byte ea).toNat) s t) ∧
    (¬ s.cfg.InRange ea 1 →
      exec (.lb rd rs1 imm) s = .fault (.outOfRange ea 1) ∧ exec (.lbu rd rs1 imm) s = .fault (.outOfRange ea 1)))

/-- 45_loads.md R135, R138: LH and LHU, the low byte at the address. -/
def Obligations.HalfLoads : Prop :=
  (∀ w : Word, Matches w 0x0000707F 0x00001003 →
    decode w = .ok (.lh (w.extractLsb' 7 5) (w.extractLsb' 15 5) (w.extractLsb' 20 12))) ∧
  (∀ w : Word, Matches w 0x0000707F 0x00005003 →
    decode w = .ok (.lhu (w.extractLsb' 7 5) (w.extractLsb' 15 5) (w.extractLsb' 20 12))) ∧
  (∀ (rd rs1 : Reg) (imm : BitVec 12) (s : State),
    let ea := (s.effectiveAddress rs1 imm).toNat
    let half := s.byte (ea + 1) ++ s.byte ea
    (ea % 2 = 0 → s.cfg.InRange ea 2 →
      (∃ t, exec (.lh rd rs1 imm) s = .next t ∧ WritesOnlyReg rd (BitVec.ofInt 32 half.toInt) s t) ∧
      ∃ t, exec (.lhu rd rs1 imm) s = .next t ∧ WritesOnlyReg rd (BitVec.ofNat 32 half.toNat) s t) ∧
    (ea % 2 ≠ 0 → exec (.lh rd rs1 imm) s = .fault (.misalignedAccess ea 2) ∧
      exec (.lhu rd rs1 imm) s = .fault (.misalignedAccess ea 2)) ∧
    (ea % 2 = 0 → ¬ s.cfg.InRange ea 2 → exec (.lh rd rs1 imm) s = .fault (.outOfRange ea 2) ∧
      exec (.lhu rd rs1 imm) s = .fault (.outOfRange ea 2)))

/-- 45_loads.md R136: LW reads the whole word. -/
def Obligations.WordLoad : Prop :=
  (∀ w : Word, Matches w 0x0000707F 0x00002003 →
    decode w = .ok (.lw (w.extractLsb' 7 5) (w.extractLsb' 15 5) (w.extractLsb' 20 12))) ∧
  (∀ (rd rs1 : Reg) (imm : BitVec 12) (s : State),
    let ea := (s.effectiveAddress rs1 imm).toNat
    (ea % 4 = 0 → s.cfg.InRange ea 4 → ∃ t, exec (.lw rd rs1 imm) s = .next t ∧
      WritesOnlyReg rd (s.byte (ea + 3) ++ s.byte (ea + 2) ++ s.byte (ea + 1) ++ s.byte ea) s t) ∧
    (ea % 4 ≠ 0 → exec (.lw rd rs1 imm) s = .fault (.misalignedAccess ea 4)) ∧
    (ea % 4 = 0 → ¬ s.cfg.InRange ea 4 → exec (.lw rd rs1 imm) s = .fault (.outOfRange ea 4)))

/-! ## Stores (funct3 by D24, log 19; OutOfRange by D4, log 17) -/

/-- 46_stores.md R139 to R142: SB, SH and SW store the low 8, 16 and 32 bits of `x[rs2]` and nothing else. -/
def Obligations.StoresWriteLowBytes : Prop :=
  (∀ w : Word, Matches w 0x0000707F 0x00000023 →
    decode w = .ok (.sb (w.extractLsb' 20 5) (w.extractLsb' 15 5) (w.extractLsb' 25 7 ++ w.extractLsb' 7 5))) ∧
  (∀ (rs2 rs1 : Reg) (imm : BitVec 12) (s : State),
    let ea := (s.effectiveAddress rs1 imm).toNat
    (s.cfg.InRange ea 1 →
      ∃ t, exec (.sb rs2 rs1 imm) s = .next t ∧ StoresOnly ea 1 ((s.x rs2).toNat % 2 ^ 8) s t) ∧
    (¬ s.cfg.InRange ea 1 → exec (.sb rs2 rs1 imm) s = .fault (.outOfRange ea 1))) ∧
  (∀ w : Word, Matches w 0x0000707F 0x00001023 →
    decode w = .ok (.sh (w.extractLsb' 20 5) (w.extractLsb' 15 5) (w.extractLsb' 25 7 ++ w.extractLsb' 7 5))) ∧
  (∀ (rs2 rs1 : Reg) (imm : BitVec 12) (s : State),
    let ea := (s.effectiveAddress rs1 imm).toNat
    (ea % 2 = 0 → s.cfg.InRange ea 2 →
      ∃ t, exec (.sh rs2 rs1 imm) s = .next t ∧ StoresOnly ea 2 ((s.x rs2).toNat % 2 ^ 16) s t) ∧
    (ea % 2 ≠ 0 → exec (.sh rs2 rs1 imm) s = .fault (.misalignedAccess ea 2)) ∧
    (ea % 2 = 0 → ¬ s.cfg.InRange ea 2 → exec (.sh rs2 rs1 imm) s = .fault (.outOfRange ea 2))) ∧
  (∀ w : Word, Matches w 0x0000707F 0x00002023 →
    decode w = .ok (.sw (w.extractLsb' 20 5) (w.extractLsb' 15 5) (w.extractLsb' 25 7 ++ w.extractLsb' 7 5))) ∧
  (∀ (rs2 rs1 : Reg) (imm : BitVec 12) (s : State),
    let ea := (s.effectiveAddress rs1 imm).toNat
    (ea % 4 = 0 → s.cfg.InRange ea 4 →
      ∃ t, exec (.sw rs2 rs1 imm) s = .next t ∧ StoresOnly ea 4 (s.x rs2).toNat s t) ∧
    (ea % 4 ≠ 0 → exec (.sw rs2 rs1 imm) s = .fault (.misalignedAccess ea 4)) ∧
    (ea % 4 = 0 → ¬ s.cfg.InRange ea 4 → exec (.sw rs2 rs1 imm) s = .fault (.outOfRange ea 4)))

/-! ## Branches (funct3 by D24, log 19) -/

/-- 47_branches.md R143 to R145: BEQ and BNE; taken, the pc is the branch's own address plus the offset modulo 2^32
and `branchTaken` is set; not taken, nothing changes. That a taken branch completes at every target is the spec's
decision D10 (42_jumps.md R112; log 18). -/
def Obligations.EqualityBranches : Prop :=
  (∀ w : Word, Matches w 0x0000707F 0x00000063 →
    decode w = .ok (.beq (w.extractLsb' 15 5) (w.extractLsb' 20 5) (immBOf w))) ∧
  (∀ w : Word, Matches w 0x0000707F 0x00001063 →
    decode w = .ok (.bne (w.extractLsb' 15 5) (w.extractLsb' 20 5) (immBOf w))) ∧
  (∀ (rs1 rs2 : Reg) (offset : BitVec 13) (s : State),
    let target := BitVec.ofInt 32 (s.pc.toNat + offset.toInt)
    (s.x rs1 = s.x rs2 → ∃ t, exec (.beq rs1 rs2 offset) s = .next t ∧ WritesOnlyPc target s t) ∧
    (s.x rs1 ≠ s.x rs2 → exec (.beq rs1 rs2 offset) s = .next s) ∧
    (s.x rs1 ≠ s.x rs2 → ∃ t, exec (.bne rs1 rs2 offset) s = .next t ∧ WritesOnlyPc target s t) ∧
    (s.x rs1 = s.x rs2 → exec (.bne rs1 rs2 offset) s = .next s))

/-- 47_branches.md R143, R146 to R149: BLT and BGE compare signed, BLTU and BGEU unsigned; taken, the pc is the branch's
own address plus the offset modulo 2^32 and `branchTaken` is set; not taken, nothing changes. That a taken branch
completes at every target is the spec's decision D10 (42_jumps.md R112; log 18). -/
def Obligations.OrderBranches : Prop :=
  (∀ w : Word, Matches w 0x0000707F 0x00004063 →
    decode w = .ok (.blt (w.extractLsb' 15 5) (w.extractLsb' 20 5) (immBOf w))) ∧
  (∀ w : Word, Matches w 0x0000707F 0x00005063 →
    decode w = .ok (.bge (w.extractLsb' 15 5) (w.extractLsb' 20 5) (immBOf w))) ∧
  (∀ (rs1 rs2 : Reg) (offset : BitVec 13) (s : State),
    let target := BitVec.ofInt 32 (s.pc.toNat + offset.toInt)
    ((s.x rs1).toInt < (s.x rs2).toInt →
      (∃ t, exec (.blt rs1 rs2 offset) s = .next t ∧ WritesOnlyPc target s t) ∧
      exec (.bge rs1 rs2 offset) s = .next s) ∧
    ((s.x rs1).toInt ≥ (s.x rs2).toInt →
      (∃ t, exec (.bge rs1 rs2 offset) s = .next t ∧ WritesOnlyPc target s t) ∧
      exec (.blt rs1 rs2 offset) s = .next s)) ∧
  (∀ w : Word, Matches w 0x0000707F 0x00006063 →
    decode w = .ok (.bltu (w.extractLsb' 15 5) (w.extractLsb' 20 5) (immBOf w))) ∧
  (∀ w : Word, Matches w 0x0000707F 0x00007063 →
    decode w = .ok (.bgeu (w.extractLsb' 15 5) (w.extractLsb' 20 5) (immBOf w))) ∧
  (∀ (rs1 rs2 : Reg) (offset : BitVec 13) (s : State),
    let target := BitVec.ofInt 32 (s.pc.toNat + offset.toInt)
    ((s.x rs1).toNat < (s.x rs2).toNat →
      (∃ t, exec (.bltu rs1 rs2 offset) s = .next t ∧ WritesOnlyPc target s t) ∧
      exec (.bgeu rs1 rs2 offset) s = .next s) ∧
    ((s.x rs1).toNat ≥ (s.x rs2).toNat →
      (∃ t, exec (.bgeu rs1 rs2 offset) s = .next t ∧ WritesOnlyPc target s t) ∧
      exec (.bltu rs1 rs2 offset) s = .next s))

/-! ## System and fence -/

/-- 48_system_fence.md R150, R151: ECALL and EBREAK are no-ops at instruction scope; they do not trap. -/
def Obligations.EcallAndEbreakDoNothing : Prop :=
  (∀ w : Word, Matches w 0xFFF0007F 0x00000073 → decode w = .ok .ecall) ∧
  (∀ w : Word, Matches w 0xFFF0007F 0x00100073 → decode w = .ok .ebreak) ∧
  (∀ s : State, exec .ecall s = .next s) ∧ (∀ s : State, exec .ebreak s = .next s)

/-- 48_system_fence.md R152 (every MISC-MEM word: D9, log 20): FENCE is a no-op. -/
def Obligations.FenceDoesNothing : Prop :=
  (∀ w : Word, Matches w 0x0000007F 0x0000000F → decode w = .ok .fence) ∧ (∀ s : State, exec .fence s = .next s)

/-! ## The step -/

/-- 40_step.md R97: when the word at the pc decodes to `i`, the step is `exec i` at the state with the fetch address
captured, then (once the trace line is emitted) the end of the step; an error of the instruction ends it at once. What
the end of a step does: `StepWithoutCommandAdvances`, `ExitCommandEndsTheRun`, `ReadCommandCompletes`,
`WriteCommandCompletes`, `CommandErrors`, `ReadAndWriteCommandErrors`. -/
def Obligations.StepRunsDecodedInstruction : Prop :=
  ∀ (s : State) (w : Word) (i : Instr), s.Ready → s.Fetches w → decode w = .ok i →
    (∀ t, exec i s.captureFetch = .next t → step s = finishStep (traceAfter i s.captureFetch t)) ∧
    (∀ k, exec i s.captureFetch = .fault k → step s = .fault k)

/-- 40_step.md R97 (1), (2), R99 (D10, log 18), R100, 60_exceptions.md R155: the errors of fetch and decode, with the
information of R155. -/
def Obligations.FetchAndDecodeErrors : Prop :=
  ∀ s : State, s.Ready →
    (s.pc.toNat % 4 ≠ 0 → step s = .fault (.misalignedAccess s.pc.toNat 4)) ∧
    (s.pc.toNat % 4 = 0 → ¬ s.cfg.InRange s.pc.toNat 4 → step s = .fault (.outOfRange s.pc.toNat 4)) ∧
    (∀ w, s.Fetches w →
      (decode w = .error .unknownOpcode → step s = .fault (.unknownOpcode w)) ∧
      (decode w = .error .unknownFunct → step s = .fault (.unknownFunct w)) ∧
      (decode w = .error .unknownSysImm → step s = .fault (.unknownSysImm w)))

/-- 40_step.md R103 (with R97 (5) and R104, and 60_exceptions.md R167 for no pending command): a step with no pending
command completes; if `branchTaken`, the flag is cleared and the pc left as the handler set it, otherwise 4 is added
modulo 2^32; the count goes up by one; nothing else changes after the instruction but the trace. The bound on the
count is the model's choice (log 11). -/
def Obligations.StepWithoutCommandAdvances : Prop :=
  ∀ (s t : State) (i : Instr), s.Executes i t → t.valueAt tohostAddr 8 = 0 → s.cycleCount.toNat + 1 < 2 ^ 64 →
    ∃ u, step s = .next u ∧
      (t.branchTaken = true → u.pc = t.pc) ∧
      (t.branchTaken = false → u.pc = BitVec.ofNat 32 (t.pc.toNat + 4)) ∧
      u.branchTaken = false ∧ u.cycleCount.toNat = s.cycleCount.toNat + 1 ∧ u.fetchAddress = s.pc ∧
      (∀ r : Reg, u.x r = t.x r) ∧ (∀ a, u.byte a = t.byte a) ∧ u.cfg = s.cfg ∧ u.fdTable = s.fdTable ∧
      u.runStatus = .running ∧ u.hostOut = s.hostOut ∧ u.hostIn = s.hostIn ∧ u.hostCalls = s.hostCalls

/-- 40_step.md R106: after a step that goes on, the pc is the step's fetch address plus 4 (no branch taken) or the
value set by JAL, JALR or a taken branch, and bit 0 is zero after JALR. -/
def Obligations.PcAfterStep : Prop :=
  ∀ s u : State, s.branchTaken = false → step s = .next u → u.runStatus = .running →
    u.fetchAddress = s.pc ∧
    ∃ (i : Instr) (t : State), s.Executes i t ∧
      ((¬ Taken s i ∧ u.pc = s.pc + 4) ∨ (Taken s i ∧ jumpOrBranch i = true ∧ u.pc = t.pc)) ∧
      (∀ rd rs1 imm, i = .jalr rd rs1 imm → u.pc.getLsbD 0 = false)

/-- 10_state.md R28, 40_step.md R104 (the spec's inference): the count goes up by exactly one in a step that goes on,
and not at all in a step that exits or that the limit stops. Last clause (R28, U14): the model's choice (log 11), a
step that would count past 2^64 - 1 faults. -/
def Obligations.CycleCountCountsCompletedSteps : Prop :=
  (∀ s u : State, step s = .next u →
    (u.runStatus = .running → u.cycleCount.toNat = s.cycleCount.toNat + 1) ∧
    (u.runStatus ≠ .running → u.cycleCount = s.cycleCount)) ∧
  (∀ (s t : State) (i : Instr), s.Executes i t → t.valueAt tohostAddr 8 = 0 → s.cycleCount.toNat + 1 = 2 ^ 64 →
    step s = .fault .cycleCountOverflow)

/-- 40_step.md R107 (D17, log 10): with MAX_CYCLES set to N, a running core whose count has reached N stops without a
step, and at most N steps complete; below the limit, or with MAX_CYCLES absent, the limit stops nothing, and no step
answers Stopped. -/
def Obligations.CycleLimitStopsTheRun : Prop :=
  (∀ (s : State) (n : Nat), s.cfg.valid = true → s.runStatus = .running → s.cfg.maxCycles = some n →
    (n ≤ s.cycleCount.toNat → step s = .next { s with runStatus := .stopped }) ∧
    (s.cycleCount.toNat ≤ n → ∀ u, step s = .next u → u.cycleCount.toNat ≤ n)) ∧
  (∀ s : State, (s.cfg.maxCycles = none ∨ ∃ n, s.cfg.maxCycles = some n ∧ s.cycleCount.toNat < n) →
    limitReached s = false ∧ ∀ u, step s = .next u → u.runStatus ≠ .stopped)

/-- 10_state.md R33 (D27; the outcomes are the model's choice, log 7, 8): no state leaves Exited, Errored or Stopped;
a step runs only in Running. -/
def Obligations.EndedRunsMakeNoStep : Prop :=
  ∀ s : State, s.cfg.valid = true →
    (∀ v, s.runStatus = .exited v → step s = .fault .runEnded) ∧
    (∀ k, s.runStatus = .errored k → step s = .fault k) ∧
    (s.runStatus = .stopped → step s = .fault .runEnded)

/-- 20_memory.md R41 (D5, D6; the outcome is the model's choice, log 12): a step is refused exactly under a
configuration that violates (a), (b) or (c). -/
def Obligations.BadConfigurationIsRefused : Prop :=
  ∀ s : State, (∃ r, step s = .refused r) ↔
    (s.cfg.memBase % 8 ≠ 0 ∨ 2 ^ 32 < s.cfg.memBase + s.cfg.memSize ∨ 0x2000 < s.cfg.memBase ∨
      s.cfg.memBase + s.cfg.memSize < 0x2010)

/-- 20_memory.md R59, 70_reset_and_hazards.md R193 (the spec's inference): a word stored is the word a later fetch at
that address gets. -/
def Obligations.FetchSeesStores : Prop :=
  ∀ (s t u : State) (rs2 rs1 : Reg) (imm : BitVec 12), exec (.sw rs2 rs1 imm) s = .next t →
    u.cfg = t.cfg → u.mem = t.mem → u.pc = s.effectiveAddress rs1 imm → u.Fetches (s.x rs2)

/-! ## HTIF -/

/-- 60_exceptions.md R170, 40_step.md R102 (D12): an EXIT command ends the run in the step whose instruction left
tohost non-zero, with the low 32 bits of a0; the pc is not advanced, the count not incremented, memory (tohost and
fromhost among it) not written. -/
def Obligations.ExitCommandEndsTheRun : Prop :=
  ∀ (s t : State) (i : Instr) (a0 a1 a2 : Nat), s.Executes i t → t.Commands 93 a0 a1 a2 →
    ∃ u, step s = .next u ∧ u.runStatus = .exited (BitVec.ofNat 32 a0) ∧ u.pc = t.pc ∧
      u.branchTaken = t.branchTaken ∧ u.cycleCount = s.cycleCount ∧ (∀ r : Reg, u.x r = t.x r) ∧
      (∀ a, u.byte a = t.byte a) ∧ u.hostOut = t.hostOut ∧ u.fdTable = t.fdTable ∧ u.cfg = t.cfg

/-- 60_exceptions.md R168 (D13, log 22), R169 (D22): a command block that is misaligned or not wholly inside the region
is an error of the step, alignment first, and so is an id other than 93, 63 and 64. -/
def Obligations.CommandErrors : Prop :=
  ∀ (s t : State) (i : Instr), s.Executes i t →
    let p := t.valueAt tohostAddr 8
    (p ≠ 0 → p % 8 ≠ 0 → step s = .fault (.misalignedAccess p 8)) ∧
    (p ≠ 0 → p % 8 = 0 → ¬ t.cfg.InRange p 64 →
      ∃ k < 8, step s = .fault (.outOfRange (p + 8 * k) 8)) ∧
    (∀ id a0 a1 a2, t.Commands id a0 a1 a2 → id ≠ 93 → id ≠ 63 → id ≠ 64 → step s = .fault (.unknownSyscall id))

/-- 60_exceptions.md R167, R171, R173, R175, 40_step.md R97 (3) to (5) (D14, log 13, 14): a READ from a valid slot into a
buffer of the region completes whatever the host answers. The count is -1 or at most len; the bytes of the buffer
outside the HTIF pair are the host's; fromhost holds the count in two's complement, tohost is 0, and no other byte
changes. So does the service, and so does the step whose instruction left the command pending, which then advances the
pc and counts (the bound on the count is the model's choice, log 11). -/
def Obligations.ReadCommandCompletes : Prop :=
  ∀ (t : State) (fd buf len : Nat), t.cfg.valid = true → t.Commands 63 fd buf len → fd < 3 →
    (len = 0 ∨ t.cfg.InRange buf len) →
    (∃ u, htifService t = .ok (.continue, u) ∧ ReadServed buf len t u) ∧
    ∀ (s : State) (i : Instr), s.Executes i t → s.cycleCount.toNat + 1 < 2 ^ 64 →
      ∃ u, step s = .next u ∧ ReadServed buf len t u ∧ StepGoesOn s t u

/-- 60_exceptions.md R167, R172, R173, R176, 40_step.md R97 (3) to (5) (D15, log 13, 15): a WRITE of a buffer of the region
to a valid slot delivers exactly the buffer's bytes to that slot's host file, whatever count the host answers; fromhost
holds the count, tohost is 0, and no other byte changes. So does the service, and so does the step whose instruction
left the command pending, which then advances the pc and counts (the bound on the count is the model's choice, log
11). -/
def Obligations.WriteCommandCompletes : Prop :=
  ∀ (t : State) (fd buf len : Nat) (file : HostFile), t.cfg.valid = true → t.Commands 64 fd buf len →
    t.hostFile fd = some file → (len = 0 ∨ t.cfg.InRange buf len) →
    (∃ u, htifService t = .ok (.continue, u) ∧ WriteServed fd file buf len t u) ∧
    ∀ (s : State) (i : Instr), s.Executes i t → s.cycleCount.toNat + 1 < 2 ^ 64 →
      ∃ u, step s = .next u ∧ WriteServed fd file buf len t u ∧ StepGoesOn s t u

/-- 60_exceptions.md R160, R171, R172 (D14, D15, log 23): the order of the checks of READ (fd before buffer) and WRITE
(buffer before fd), each an error of the service and of the step whose instruction left the command pending. -/
def Obligations.ReadAndWriteCommandErrors : Prop :=
  ∀ (t : State) (fd buf len : Nat), t.cfg.valid = true →
    (t.Commands 63 fd buf len → 3 ≤ fd → ServiceFails t (.invalidFileDescriptor fd)) ∧
    (t.Commands 63 fd buf len → fd < 3 → len ≠ 0 → ¬ t.cfg.InRange buf len →
      ServiceFails t (.outOfRange buf len)) ∧
    (t.Commands 64 fd buf len → len ≠ 0 → ¬ t.cfg.InRange buf len → ServiceFails t (.outOfRange buf len)) ∧
    (t.Commands 64 fd buf len → (len = 0 ∨ t.cfg.InRange buf len) → 3 ≤ fd →
      ServiceFails t (.invalidFileDescriptor fd))

/-- 10_state.md R22, R32, 40_step.md R102, 60_exceptions.md R167: whatever the command, the service leaves every
register, the pc, the flag, the counter, the fetch address, the fd table, the run status and the trace alone; and with
tohost 0, whatever fromhost holds, it does nothing at all. -/
def Obligations.ServiceLeavesTheHartAlone : Prop :=
  (∀ (s t : State) (st : StepStatus), htifService s = .ok (st, t) →
    SameRegs s t ∧ SamePc s t ∧ t.cycleCount = s.cycleCount ∧ t.fetchAddress = s.fetchAddress ∧
    t.fdTable = s.fdTable ∧ t.runStatus = s.runStatus ∧ t.traceLog = s.traceLog ∧ t.cfg = s.cfg) ∧
  (∀ s : State, s.cfg.valid = true → s.valueAt tohostAddr 8 = 0 → htifService s = .ok (.continue, s))

/-- 60_exceptions.md R155, R184, 10_state.md R33: the driver's exit code is the guest's EXIT value, 1 on any error,
`LoaderError` among them, and `STOP_STATUS` for a stopped run. A run that has ended keeps its code whatever is asked of
it; a run that goes on, or has just started, has none. `STOP_STATUS` is a free value (log 28): the claim holds whatever
it is. Two clauses speak of outcomes the model chose: the fault of a step past the last count (log 11), and the answers
of an ended run (log 7, 8). -/
def Obligations.DriverExitStatus : Prop :=
  (∀ (s t : State) (i : Instr) (a0 a1 a2 : Nat), s.Executes i t → t.Commands 93 a0 a1 a2 →
    driverExit s.runStatus (step s) = some (BitVec.ofNat 32 a0)) ∧
  (∀ (s : State) (k : Fault), s.runStatus = .running → step s = .fault k →
    driverExit s.runStatus (step s) = some 1) ∧
  (∀ s : State, s.cfg.valid = true → s.runStatus = .running → limitReached s = true →
    driverExit s.runStatus (step s) = some Config.stopStatus) ∧
  (∀ s u : State, s.runStatus = .running → step s = .next u → u.runStatus = .running →
    driverExit s.runStatus (step s) = none) ∧
  (∀ s : State,
    (∀ v, s.runStatus = .exited v → driverExit s.runStatus (step s) = some v) ∧
    (∀ k, s.runStatus = .errored k → driverExit s.runStatus (step s) = some 1) ∧
    (s.runStatus = .stopped → driverExit s.runStatus (step s) = some Config.stopStatus)) ∧
  (∀ (c : Config) (initMem : List Host.Cell) (e : Executable), c.valid = true →
    (e.valid c = false ∨ e.start = none → driverExit .running (launch c initMem e) = some 1) ∧
    (e.valid c = true → e.start ≠ none → driverExit .running (launch c initMem e) = none))

/-! ## Trace -/

/-- 60_exceptions.md R182: enabling or disabling the trace changes nothing else. A step answers the same, the trace
apart, with TRACE off and no line emitted before. -/
def Obligations.TraceHasNoArchitecturalEffect : Prop :=
  ∀ s : State, untracedOutcome (step s) = untracedOutcome (step s.untraced)

/-- 40_step.md R101, 60_exceptions.md R180: with TRACE set, an executed instruction emits exactly one line, with the
cycle count and the fetch address; without it none. The rest of a line is the model's choice (log 27). -/
def Obligations.TraceEmitsOneLine : Prop :=
  ∀ (s t u : State) (i : Instr), s.Executes i t → step s = .next u →
    (s.cfg.trace = true → ∃ line : TraceLine, u.traceLog = s.traceLog ++ [line] ∧ line.cycle = s.cycleCount ∧
      line.pc = s.pc ∧ line.instr = i) ∧
    (s.cfg.trace = false → u.traceLog = s.traceLog)

/-! ## Bit utilities -/

/-- 95_test_vectors.md I5 and I6, read as 90_conflicts.md C11 says, with 00_scope.md R12 and R17: sign extension is
idempotent, and what is inserted is extracted. -/
def Obligations.BitUtilityInvariants : Prop :=
  (∀ (v : Word) (n : Nat), 1 ≤ n → n ≤ 32 → sext n v ^^^ sext n (sext n v) = 0) ∧
  (∀ (d s : Word) (sh k : Nat), 1 ≤ k → sh + k ≤ 32 →
    (extractBits (insertBits d s sh k) sh k).toNat = s.toNat % 2 ^ k)

/-! ## Pseudo-instructions -/

/-- 30_encoding.md R94 (the spec's from general knowledge, D25, log 36): the expansions of `li` and `la` load the constant
and the address, for every value, and write no other register; the expansion of `la` stands at its AUIPC's address. -/
def Obligations.PseudoLiAndLaLoadTheirValue : Prop :=
  (∀ (rd : Reg) (v : Word) (s : State), ∃ t, execAll (Pseudo.expand (.li rd v)) s = .next t ∧ WritesOnlyReg rd v s t) ∧
  (∀ (rd : Reg) (sym : Word) (s : State),
    ∃ t, execAll (Pseudo.expand (.la rd sym s.pc)) s = .next t ∧ WritesOnlyReg rd sym s t)
end

