-- ==== Sys2Proof/Laws/State.lean ====
section
/-! SUPPORT. One lemma for each field under each named update of the state, so that no proof unfolds a record update. -/

namespace Sys2Proof.Machine

variable (s : State)

/-! ### `State.setX` -/

@[simp] theorem State.setX_cfg (i : Reg) (v : Word) : (s.setX i v).cfg = s.cfg := rfl
@[simp] theorem State.setX_regs (i : Reg) (v : Word) : (s.setX i v).regs = writeRegs s.regs i v := rfl
@[simp] theorem State.setX_pc (i : Reg) (v : Word) : (s.setX i v).pc = s.pc := rfl
@[simp] theorem State.setX_branchTaken (i : Reg) (v : Word) : (s.setX i v).branchTaken = s.branchTaken := rfl
@[simp] theorem State.setX_cycleCount (i : Reg) (v : Word) : (s.setX i v).cycleCount = s.cycleCount := rfl
@[simp] theorem State.setX_fetchAddress (i : Reg) (v : Word) : (s.setX i v).fetchAddress = s.fetchAddress := rfl
@[simp] theorem State.setX_mem (i : Reg) (v : Word) : (s.setX i v).mem = s.mem := rfl
@[simp] theorem State.setX_fdTable (i : Reg) (v : Word) : (s.setX i v).fdTable = s.fdTable := rfl
@[simp] theorem State.setX_runStatus (i : Reg) (v : Word) : (s.setX i v).runStatus = s.runStatus := rfl
@[simp] theorem State.setX_hostOut (i : Reg) (v : Word) : (s.setX i v).hostOut = s.hostOut := rfl
@[simp] theorem State.setX_traceLog (i : Reg) (v : Word) : (s.setX i v).traceLog = s.traceLog := rfl
@[simp] theorem State.setX_hostIn (i : Reg) (v : Word) : (s.setX i v).hostIn = s.hostIn := rfl
@[simp] theorem State.setX_hostCalls (i : Reg) (v : Word) : (s.setX i v).hostCalls = s.hostCalls := rfl

/-! ### `State.withMem` -/

@[simp] theorem State.withMem_cfg (m : Memory) : (s.withMem m).cfg = s.cfg := rfl
@[simp] theorem State.withMem_regs (m : Memory) : (s.withMem m).regs = s.regs := rfl
@[simp] theorem State.withMem_pc (m : Memory) : (s.withMem m).pc = s.pc := rfl
@[simp] theorem State.withMem_branchTaken (m : Memory) : (s.withMem m).branchTaken = s.branchTaken := rfl
@[simp] theorem State.withMem_cycleCount (m : Memory) : (s.withMem m).cycleCount = s.cycleCount := rfl
@[simp] theorem State.withMem_fetchAddress (m : Memory) : (s.withMem m).fetchAddress = s.fetchAddress := rfl
@[simp] theorem State.withMem_mem (m : Memory) : (s.withMem m).mem = m := rfl
@[simp] theorem State.withMem_fdTable (m : Memory) : (s.withMem m).fdTable = s.fdTable := rfl
@[simp] theorem State.withMem_runStatus (m : Memory) : (s.withMem m).runStatus = s.runStatus := rfl
@[simp] theorem State.withMem_hostOut (m : Memory) : (s.withMem m).hostOut = s.hostOut := rfl
@[simp] theorem State.withMem_traceLog (m : Memory) : (s.withMem m).traceLog = s.traceLog := rfl
@[simp] theorem State.withMem_hostIn (m : Memory) : (s.withMem m).hostIn = s.hostIn := rfl
@[simp] theorem State.withMem_hostCalls (m : Memory) : (s.withMem m).hostCalls = s.hostCalls := rfl

/-! ### `State.withStatus` -/

@[simp] theorem State.withStatus_cfg (r : RunStatus) : (s.withStatus r).cfg = s.cfg := rfl
@[simp] theorem State.withStatus_regs (r : RunStatus) : (s.withStatus r).regs = s.regs := rfl
@[simp] theorem State.withStatus_pc (r : RunStatus) : (s.withStatus r).pc = s.pc := rfl
@[simp] theorem State.withStatus_branchTaken (r : RunStatus) : (s.withStatus r).branchTaken = s.branchTaken := rfl
@[simp] theorem State.withStatus_cycleCount (r : RunStatus) : (s.withStatus r).cycleCount = s.cycleCount := rfl
@[simp] theorem State.withStatus_fetchAddress (r : RunStatus) : (s.withStatus r).fetchAddress = s.fetchAddress := rfl
@[simp] theorem State.withStatus_mem (r : RunStatus) : (s.withStatus r).mem = s.mem := rfl
@[simp] theorem State.withStatus_fdTable (r : RunStatus) : (s.withStatus r).fdTable = s.fdTable := rfl
@[simp] theorem State.withStatus_runStatus (r : RunStatus) : (s.withStatus r).runStatus = r := rfl
@[simp] theorem State.withStatus_hostOut (r : RunStatus) : (s.withStatus r).hostOut = s.hostOut := rfl
@[simp] theorem State.withStatus_traceLog (r : RunStatus) : (s.withStatus r).traceLog = s.traceLog := rfl
@[simp] theorem State.withStatus_hostIn (r : RunStatus) : (s.withStatus r).hostIn = s.hostIn := rfl
@[simp] theorem State.withStatus_hostCalls (r : RunStatus) : (s.withStatus r).hostCalls = s.hostCalls := rfl

/-! ### `State.captureFetch` -/

@[simp] theorem State.captureFetch_cfg : (s.captureFetch).cfg = s.cfg := rfl
@[simp] theorem State.captureFetch_regs : (s.captureFetch).regs = s.regs := rfl
@[simp] theorem State.captureFetch_pc : (s.captureFetch).pc = s.pc := rfl
@[simp] theorem State.captureFetch_branchTaken : (s.captureFetch).branchTaken = s.branchTaken := rfl
@[simp] theorem State.captureFetch_cycleCount : (s.captureFetch).cycleCount = s.cycleCount := rfl
@[simp] theorem State.captureFetch_fetchAddress : (s.captureFetch).fetchAddress = s.pc := rfl
@[simp] theorem State.captureFetch_mem : (s.captureFetch).mem = s.mem := rfl
@[simp] theorem State.captureFetch_fdTable : (s.captureFetch).fdTable = s.fdTable := rfl
@[simp] theorem State.captureFetch_runStatus : (s.captureFetch).runStatus = s.runStatus := rfl
@[simp] theorem State.captureFetch_hostOut : (s.captureFetch).hostOut = s.hostOut := rfl
@[simp] theorem State.captureFetch_traceLog : (s.captureFetch).traceLog = s.traceLog := rfl
@[simp] theorem State.captureFetch_hostIn : (s.captureFetch).hostIn = s.hostIn := rfl
@[simp] theorem State.captureFetch_hostCalls : (s.captureFetch).hostCalls = s.hostCalls := rfl

/-! ### `State.countCycle` -/

@[simp] theorem State.countCycle_cfg : (s.countCycle).cfg = s.cfg := rfl
@[simp] theorem State.countCycle_regs : (s.countCycle).regs = s.regs := rfl
@[simp] theorem State.countCycle_pc : (s.countCycle).pc = s.pc := rfl
@[simp] theorem State.countCycle_branchTaken : (s.countCycle).branchTaken = s.branchTaken := rfl
@[simp] theorem State.countCycle_cycleCount : (s.countCycle).cycleCount = s.cycleCount + 1 := rfl
@[simp] theorem State.countCycle_fetchAddress : (s.countCycle).fetchAddress = s.fetchAddress := rfl
@[simp] theorem State.countCycle_mem : (s.countCycle).mem = s.mem := rfl
@[simp] theorem State.countCycle_fdTable : (s.countCycle).fdTable = s.fdTable := rfl
@[simp] theorem State.countCycle_runStatus : (s.countCycle).runStatus = s.runStatus := rfl
@[simp] theorem State.countCycle_hostOut : (s.countCycle).hostOut = s.hostOut := rfl
@[simp] theorem State.countCycle_traceLog : (s.countCycle).traceLog = s.traceLog := rfl
@[simp] theorem State.countCycle_hostIn : (s.countCycle).hostIn = s.hostIn := rfl
@[simp] theorem State.countCycle_hostCalls : (s.countCycle).hostCalls = s.hostCalls := rfl

/-! ### `State.hostAnswered` -/

@[simp] theorem State.hostAnswered_cfg : (s.hostAnswered).cfg = s.cfg := rfl
@[simp] theorem State.hostAnswered_regs : (s.hostAnswered).regs = s.regs := rfl
@[simp] theorem State.hostAnswered_pc : (s.hostAnswered).pc = s.pc := rfl
@[simp] theorem State.hostAnswered_branchTaken : (s.hostAnswered).branchTaken = s.branchTaken := rfl
@[simp] theorem State.hostAnswered_cycleCount : (s.hostAnswered).cycleCount = s.cycleCount := rfl
@[simp] theorem State.hostAnswered_fetchAddress : (s.hostAnswered).fetchAddress = s.fetchAddress := rfl
@[simp] theorem State.hostAnswered_mem : (s.hostAnswered).mem = s.mem := rfl
@[simp] theorem State.hostAnswered_fdTable : (s.hostAnswered).fdTable = s.fdTable := rfl
@[simp] theorem State.hostAnswered_runStatus : (s.hostAnswered).runStatus = s.runStatus := rfl
@[simp] theorem State.hostAnswered_hostOut : (s.hostAnswered).hostOut = s.hostOut := rfl
@[simp] theorem State.hostAnswered_traceLog : (s.hostAnswered).traceLog = s.traceLog := rfl
@[simp] theorem State.hostAnswered_hostIn : (s.hostAnswered).hostIn = s.hostIn.tail := rfl
@[simp] theorem State.hostAnswered_hostCalls : (s.hostAnswered).hostCalls = s.hostCalls + 1 := rfl

/-! ### `State.emitOutput` -/

@[simp] theorem State.emitOutput_cfg (e : OutputEvent) : (s.emitOutput e).cfg = s.cfg := rfl
@[simp] theorem State.emitOutput_regs (e : OutputEvent) : (s.emitOutput e).regs = s.regs := rfl
@[simp] theorem State.emitOutput_pc (e : OutputEvent) : (s.emitOutput e).pc = s.pc := rfl
@[simp] theorem State.emitOutput_branchTaken (e : OutputEvent) : (s.emitOutput e).branchTaken = s.branchTaken := rfl
@[simp] theorem State.emitOutput_cycleCount (e : OutputEvent) : (s.emitOutput e).cycleCount = s.cycleCount := rfl
@[simp] theorem State.emitOutput_fetchAddress (e : OutputEvent) : (s.emitOutput e).fetchAddress = s.fetchAddress := rfl
@[simp] theorem State.emitOutput_mem (e : OutputEvent) : (s.emitOutput e).mem = s.mem := rfl
@[simp] theorem State.emitOutput_fdTable (e : OutputEvent) : (s.emitOutput e).fdTable = s.fdTable := rfl
@[simp] theorem State.emitOutput_runStatus (e : OutputEvent) : (s.emitOutput e).runStatus = s.runStatus := rfl
@[simp] theorem State.emitOutput_hostOut (e : OutputEvent) : (s.emitOutput e).hostOut = s.hostOut ++ [e] := rfl
@[simp] theorem State.emitOutput_traceLog (e : OutputEvent) : (s.emitOutput e).traceLog = s.traceLog := rfl
@[simp] theorem State.emitOutput_hostIn (e : OutputEvent) : (s.emitOutput e).hostIn = s.hostIn := rfl
@[simp] theorem State.emitOutput_hostCalls (e : OutputEvent) : (s.emitOutput e).hostCalls = s.hostCalls := rfl

/-! ### `State.emitTrace` -/

@[simp] theorem State.emitTrace_cfg (l : TraceLine) : (s.emitTrace l).cfg = s.cfg := rfl
@[simp] theorem State.emitTrace_regs (l : TraceLine) : (s.emitTrace l).regs = s.regs := rfl
@[simp] theorem State.emitTrace_pc (l : TraceLine) : (s.emitTrace l).pc = s.pc := rfl
@[simp] theorem State.emitTrace_branchTaken (l : TraceLine) : (s.emitTrace l).branchTaken = s.branchTaken := rfl
@[simp] theorem State.emitTrace_cycleCount (l : TraceLine) : (s.emitTrace l).cycleCount = s.cycleCount := rfl
@[simp] theorem State.emitTrace_fetchAddress (l : TraceLine) : (s.emitTrace l).fetchAddress = s.fetchAddress := rfl
@[simp] theorem State.emitTrace_mem (l : TraceLine) : (s.emitTrace l).mem = s.mem := rfl
@[simp] theorem State.emitTrace_fdTable (l : TraceLine) : (s.emitTrace l).fdTable = s.fdTable := rfl
@[simp] theorem State.emitTrace_runStatus (l : TraceLine) : (s.emitTrace l).runStatus = s.runStatus := rfl
@[simp] theorem State.emitTrace_hostOut (l : TraceLine) : (s.emitTrace l).hostOut = s.hostOut := rfl
@[simp] theorem State.emitTrace_traceLog (l : TraceLine) : (s.emitTrace l).traceLog = s.traceLog ++ [l] := rfl
@[simp] theorem State.emitTrace_hostIn (l : TraceLine) : (s.emitTrace l).hostIn = s.hostIn := rfl
@[simp] theorem State.emitTrace_hostCalls (l : TraceLine) : (s.emitTrace l).hostCalls = s.hostCalls := rfl

/-! ### `State.writePc` -/

@[simp] theorem State.writePc_cfg (t : Word) : (s.writePc t).cfg = s.cfg := rfl
@[simp] theorem State.writePc_regs (t : Word) : (s.writePc t).regs = s.regs := rfl
@[simp] theorem State.writePc_pc (t : Word) : (s.writePc t).pc = t := rfl
@[simp] theorem State.writePc_branchTaken (t : Word) : (s.writePc t).branchTaken = true := rfl
@[simp] theorem State.writePc_cycleCount (t : Word) : (s.writePc t).cycleCount = s.cycleCount := rfl
@[simp] theorem State.writePc_fetchAddress (t : Word) : (s.writePc t).fetchAddress = s.fetchAddress := rfl
@[simp] theorem State.writePc_mem (t : Word) : (s.writePc t).mem = s.mem := rfl
@[simp] theorem State.writePc_fdTable (t : Word) : (s.writePc t).fdTable = s.fdTable := rfl
@[simp] theorem State.writePc_runStatus (t : Word) : (s.writePc t).runStatus = s.runStatus := rfl
@[simp] theorem State.writePc_hostOut (t : Word) : (s.writePc t).hostOut = s.hostOut := rfl
@[simp] theorem State.writePc_traceLog (t : Word) : (s.writePc t).traceLog = s.traceLog := rfl
@[simp] theorem State.writePc_hostIn (t : Word) : (s.writePc t).hostIn = s.hostIn := rfl
@[simp] theorem State.writePc_hostCalls (t : Word) : (s.writePc t).hostCalls = s.hostCalls := rfl

/-! ### `State.advancePc` -/

@[simp] theorem State.advancePc_cfg : (s.advancePc).cfg = s.cfg := rfl
@[simp] theorem State.advancePc_regs : (s.advancePc).regs = s.regs := rfl
@[simp] theorem State.advancePc_pc : (s.advancePc).pc = if s.branchTaken then s.pc else s.pc + 4 := rfl
@[simp] theorem State.advancePc_branchTaken : (s.advancePc).branchTaken = false := rfl
@[simp] theorem State.advancePc_cycleCount : (s.advancePc).cycleCount = s.cycleCount := rfl
@[simp] theorem State.advancePc_fetchAddress : (s.advancePc).fetchAddress = s.fetchAddress := rfl
@[simp] theorem State.advancePc_mem : (s.advancePc).mem = s.mem := rfl
@[simp] theorem State.advancePc_fdTable : (s.advancePc).fdTable = s.fdTable := rfl
@[simp] theorem State.advancePc_runStatus : (s.advancePc).runStatus = s.runStatus := rfl
@[simp] theorem State.advancePc_hostOut : (s.advancePc).hostOut = s.hostOut := rfl
@[simp] theorem State.advancePc_traceLog : (s.advancePc).traceLog = s.traceLog := rfl
@[simp] theorem State.advancePc_hostIn : (s.advancePc).hostIn = s.hostIn := rfl
@[simp] theorem State.advancePc_hostCalls : (s.advancePc).hostCalls = s.hostCalls := rfl

/-! ### `State.layWord` -/

@[simp] theorem State.layWord_cfg (nbits w : Nat) : (s.layWord nbits w).cfg = s.cfg := rfl
@[simp] theorem State.layWord_regs (nbits w : Nat) : (s.layWord nbits w).regs = s.regs := rfl
@[simp] theorem State.layWord_pc (nbits w : Nat) : (s.layWord nbits w).pc = s.pc := rfl
@[simp] theorem State.layWord_branchTaken (nbits w : Nat) : (s.layWord nbits w).branchTaken = s.branchTaken := rfl
@[simp] theorem State.layWord_cycleCount (nbits w : Nat) : (s.layWord nbits w).cycleCount = s.cycleCount := rfl
@[simp] theorem State.layWord_fetchAddress (nbits w : Nat) : (s.layWord nbits w).fetchAddress = s.fetchAddress := rfl
@[simp] theorem State.layWord_mem (nbits w : Nat) : (s.layWord nbits w).mem = s.mem.writeBytes s.pc.toNat (leBytes 4 (w % 2 ^ nbits)) := rfl
@[simp] theorem State.layWord_fdTable (nbits w : Nat) : (s.layWord nbits w).fdTable = s.fdTable := rfl
@[simp] theorem State.layWord_runStatus (nbits w : Nat) : (s.layWord nbits w).runStatus = s.runStatus := rfl
@[simp] theorem State.layWord_hostOut (nbits w : Nat) : (s.layWord nbits w).hostOut = s.hostOut := rfl
@[simp] theorem State.layWord_traceLog (nbits w : Nat) : (s.layWord nbits w).traceLog = s.traceLog := rfl
@[simp] theorem State.layWord_hostIn (nbits w : Nat) : (s.layWord nbits w).hostIn = s.hostIn := rfl
@[simp] theorem State.layWord_hostCalls (nbits w : Nat) : (s.layWord nbits w).hostCalls = s.hostCalls := rfl

/-! ### `State.withFetchWord` -/

@[simp] theorem State.withFetchWord_cfg (nbits w : Nat) : (s.withFetchWord nbits w).cfg = s.cfg := rfl
@[simp] theorem State.withFetchWord_regs (nbits w : Nat) : (s.withFetchWord nbits w).regs = s.regs := rfl
@[simp] theorem State.withFetchWord_pc (nbits w : Nat) : (s.withFetchWord nbits w).pc = s.pc := rfl
@[simp] theorem State.withFetchWord_branchTaken (nbits w : Nat) : (s.withFetchWord nbits w).branchTaken = s.branchTaken := rfl
@[simp] theorem State.withFetchWord_cycleCount (nbits w : Nat) : (s.withFetchWord nbits w).cycleCount = s.cycleCount := rfl
@[simp] theorem State.withFetchWord_fetchAddress (nbits w : Nat) : (s.withFetchWord nbits w).fetchAddress = s.fetchAddress := rfl
@[simp] theorem State.withFetchWord_mem (nbits w : Nat) : (s.withFetchWord nbits w).mem = s.mem.writeBytes s.pc.toNat (leBytes 4 (w % 2 ^ nbits)) := rfl
@[simp] theorem State.withFetchWord_fdTable (nbits w : Nat) : (s.withFetchWord nbits w).fdTable = s.fdTable := rfl
@[simp] theorem State.withFetchWord_runStatus (nbits w : Nat) : (s.withFetchWord nbits w).runStatus = s.runStatus := rfl
@[simp] theorem State.withFetchWord_hostOut (nbits w : Nat) : (s.withFetchWord nbits w).hostOut = s.hostOut := rfl
@[simp] theorem State.withFetchWord_traceLog (nbits w : Nat) : (s.withFetchWord nbits w).traceLog = s.traceLog := rfl
@[simp] theorem State.withFetchWord_hostIn (nbits w : Nat) : (s.withFetchWord nbits w).hostIn = s.hostIn := rfl
@[simp] theorem State.withFetchWord_hostCalls (nbits w : Nat) : (s.withFetchWord nbits w).hostCalls = s.hostCalls := rfl

/-! ### `State.untraced` -/

@[simp] theorem State.untraced_cfg : (s.untraced).cfg = { s.cfg with trace := false } := rfl
@[simp] theorem State.untraced_regs : (s.untraced).regs = s.regs := rfl
@[simp] theorem State.untraced_pc : (s.untraced).pc = s.pc := rfl
@[simp] theorem State.untraced_branchTaken : (s.untraced).branchTaken = s.branchTaken := rfl
@[simp] theorem State.untraced_cycleCount : (s.untraced).cycleCount = s.cycleCount := rfl
@[simp] theorem State.untraced_fetchAddress : (s.untraced).fetchAddress = s.fetchAddress := rfl
@[simp] theorem State.untraced_mem : (s.untraced).mem = s.mem := rfl
@[simp] theorem State.untraced_fdTable : (s.untraced).fdTable = s.fdTable := rfl
@[simp] theorem State.untraced_runStatus : (s.untraced).runStatus = s.runStatus := rfl
@[simp] theorem State.untraced_hostOut : (s.untraced).hostOut = s.hostOut := rfl
@[simp] theorem State.untraced_traceLog : (s.untraced).traceLog = [] := rfl
@[simp] theorem State.untraced_hostIn : (s.untraced).hostIn = s.hostIn := rfl
@[simp] theorem State.untraced_hostCalls : (s.untraced).hostCalls = s.hostCalls := rfl

end Sys2Proof.Machine
end

