-- ==== Sys2Proof/Laws/Memory.lean ====
section
/-! SUPPORT. Memory: a byte read after a write, the bytes a run of writes leaves alone, the canonical form, and values
as little-endian runs of bytes (20_memory.md R43, R47, R48). -/

namespace Sys2Proof.Machine

/-! ### One byte -/

theorem Memory.read_eq_unlisted_of_not_mem (m : Memory) (a : Nat) (h : ∀ c ∈ m, c.1 ≠ a) :
    m.read a = Memory.unlisted := by
  induction m with
  | nil => rfl
  | cons c m ih =>
    rw [Memory.read, if_neg (h c (by simp))]
    exact ih fun d hd => h d (by simp [hd])

theorem Memory.not_mem_erase (m : Memory) (a : Nat) : ∀ c ∈ m.erase a, c.1 ≠ a := by
  simp [Memory.erase]

@[simp] theorem Memory.read_erase_same (m : Memory) (a : Nat) : (m.erase a).read a = Memory.unlisted :=
  Memory.read_eq_unlisted_of_not_mem _ _ (m.not_mem_erase a)

theorem Memory.read_erase_other (m : Memory) {a b : Nat} (h : b ≠ a) : (m.erase a).read b = m.read b := by
  induction m with
  | nil => rfl
  | cons c m ih =>
    by_cases hc : c.1 = a
    · have hb : ¬ c.1 = b := fun e => h (e.symm.trans hc)
      simpa [Memory.erase, hc, Memory.read, hb, Ne.symm h] using ih
    · by_cases hb : c.1 = b
      · simp [Memory.erase, hb, Memory.read, h]
      · simpa [Memory.erase, hc, Memory.read, hb] using ih

theorem Memory.read_insert_other (m : Memory) (c : Host.Cell) {a : Nat} (h : a ≠ c.1) :
    (m.insert c).read a = m.read a := by
  induction m with
  | nil => simp [Memory.insert, Memory.read, Ne.symm h]
  | cons d m ih =>
    unfold Memory.insert
    split <;> simp [Memory.read, Ne.symm h, ih]

theorem Memory.read_insert_same (m : Memory) (c : Host.Cell) (h : ∀ d ∈ m, d.1 ≠ c.1) :
    (m.insert c).read c.1 = c.2 := by
  induction m with
  | nil => simp [Memory.insert, Memory.read]
  | cons d m ih =>
    have hd := h d (by simp)
    unfold Memory.insert
    split
    · simp [Memory.read]
    · simpa [Memory.read, hd] using ih fun e he => h e (by simp [he])

/-- A byte written is read back. -/
@[simp] theorem Memory.read_write_same (m : Memory) (a : Nat) (b : Byte) : (m.write a b).read a = b := by
  unfold Memory.write
  split
  · rename_i h; simp [h]
  · exact Memory.read_insert_same _ (a, b) (m.not_mem_erase a)

/-- A write leaves every other byte alone. -/
theorem Memory.read_write_other (m : Memory) {a c : Nat} (b : Byte) (h : c ≠ a) : (m.write a b).read c = m.read c := by
  unfold Memory.write
  split
  · exact m.read_erase_other h
  · rw [Memory.read_insert_other _ (a, b) h, m.read_erase_other h]

/-! ### The canonical form -/

theorem Memory.mem_erase {m : Memory} {a : Nat} {c : Host.Cell} (h : c ∈ m.erase a) : c ∈ m :=
  List.mem_of_mem_filter h

theorem Memory.mem_insert {m : Memory} {c d : Host.Cell} : d ∈ m.insert c ↔ d = c ∨ d ∈ m := by
  induction m with
  | nil => simp [Memory.insert]
  | cons e m ih =>
    unfold Memory.insert
    split
    · simp
    · simp only [List.mem_cons, ih]; tauto

theorem Memory.pairwise_insert {m : Memory} {c : Host.Cell} (h : m.Pairwise fun c d => c.1 < d.1)
    (hc : ∀ d ∈ m, d.1 ≠ c.1) : (m.insert c).Pairwise fun c d => c.1 < d.1 := by
  induction m with
  | nil => simp [Memory.insert]
  | cons e m ih =>
    rw [List.pairwise_cons] at h
    have he := hc e (by simp)
    unfold Memory.insert
    split
    · rename_i hlt
      refine List.pairwise_cons.2 ⟨?_, List.pairwise_cons.2 h⟩
      rintro d hd
      obtain rfl | hd := List.mem_cons.1 hd
      · exact hlt
      · exact hlt.trans (h.1 d hd)
    · rename_i hge
      refine List.pairwise_cons.2 ⟨?_, ih h.2 fun d hd => hc d (by simp [hd])⟩
      intro d hd
      obtain rfl | hd := Memory.mem_insert.1 hd
      · omega
      · exact h.1 d hd

/-- Writing a byte keeps the canonical form. -/
theorem Memory.wf_write {m : Memory} (h : m.wf) (a : Nat) (b : Byte) : (m.write a b).wf := by
  have he : (m.erase a).wf := ⟨h.1.filter _, fun c hc => h.2 c (Memory.mem_erase hc)⟩
  unfold Memory.write
  split
  · exact he
  · rename_i hb
    refine ⟨Memory.pairwise_insert he.1 (m.not_mem_erase a), fun c hc => ?_⟩
    obtain rfl | hc := Memory.mem_insert.1 hc
    · exact hb
    · exact he.2 c hc

/-- Every memory operation that changes memory keeps the canonical form. -/
theorem Memory.wf_writeBytes {m : Memory} (h : m.wf) (a : Nat) (bs : List Byte) : (m.writeBytes a bs).wf := by
  induction bs generalizing m a with
  | nil => exact h
  | cons b bs ih => exact ih (Memory.wf_write h a b) (a + 1)

theorem Memory.mem_write {m : Memory} {a : Nat} {b : Byte} {c : Host.Cell} (h : c ∈ m.write a b) :
    c.1 = a ∨ c ∈ m := by
  unfold Memory.write at h
  split at h
  · exact .inr (Memory.mem_erase h)
  · obtain rfl | h := Memory.mem_insert.1 h
    · exact .inl rfl
    · exact .inr (Memory.mem_erase h)

/-- A run of writes lists no address but those it wrote and those listed before. -/
theorem Memory.mem_writeBytes {m : Memory} {a : Nat} {bs : List Byte} {c : Host.Cell} (h : c ∈ m.writeBytes a bs) :
    (a ≤ c.1 ∧ c.1 < a + bs.length) ∨ c ∈ m := by
  induction bs generalizing m a with
  | nil => exact .inr h
  | cons b bs ih =>
    obtain h | h := ih h
    · left; simp only [List.length_cons]; omega
    · obtain h | h := Memory.mem_write h
      · left; simp only [List.length_cons]; omega
      · exact .inr h

/-! ### Runs of bytes -/

@[simp] theorem Memory.length_readBytes (m : Memory) (a n : Nat) : (m.readBytes a n).length = n := by
  induction n generalizing a with
  | zero => rfl
  | succ n ih => simp [Memory.readBytes, ih]

theorem Memory.getElem_readBytes (m : Memory) (a n k : Nat) (h : k < (m.readBytes a n).length) :
    (m.readBytes a n)[k] = m.read (a + k) := by
  induction n generalizing a k with
  | zero => simp [Memory.readBytes] at h
  | succ n ih =>
    cases k with
    | zero => rfl
    | succ k =>
      have := ih (a + 1) k (by simpa [Memory.readBytes] using h)
      simp only [Memory.readBytes, List.getElem_cons_succ, this]
      congr 1; omega

/-- A run of writes leaves every byte outside it alone. -/
theorem Memory.read_writeBytes_outside (m : Memory) (a : Nat) (bs : List Byte) {c : Nat}
    (h : c < a ∨ a + bs.length ≤ c) : (m.writeBytes a bs).read c = m.read c := by
  induction bs generalizing m a with
  | nil => rfl
  | cons b bs ih =>
    simp only [List.length_cons] at h
    rw [Memory.writeBytes, ih _ _ (by omega), m.read_write_other b (by omega)]

/-- A run of writes leaves its `k`-th byte at `a + k`. -/
theorem Memory.read_writeBytes_inside (m : Memory) (a : Nat) (bs : List Byte) {k : Nat} (h : k < bs.length) :
    (m.writeBytes a bs).read (a + k) = bs[k] := by
  induction bs generalizing m a k with
  | nil => simp at h
  | cons b bs ih =>
    cases k with
    | zero => simp [Memory.writeBytes, Memory.read_writeBytes_outside]
    | succ k =>
      have := ih (m.write a b) (a + 1) (k := k) (by simpa using h)
      simp only [Memory.writeBytes, List.getElem_cons_succ, ← this]
      congr 1; omega

/-- A run of bytes written is read back. -/
theorem Memory.readBytes_writeBytes_same (m : Memory) (a : Nat) (bs : List Byte) :
    (m.writeBytes a bs).readBytes a bs.length = bs := by
  refine List.ext_getElem (by simp) fun k h₁ h₂ => ?_
  rw [Memory.getElem_readBytes, Memory.read_writeBytes_inside]

/-- Memories that read alike give the same runs of bytes. -/
theorem Memory.readBytes_congr {m m' : Memory} {a n : Nat} (h : ∀ k < n, m'.read (a + k) = m.read (a + k)) :
    m'.readBytes a n = m.readBytes a n :=
  List.ext_getElem (by simp) fun k h₁ h₂ => by
    simp only [Memory.getElem_readBytes]; exact h k (by simpa using h₂)

/-! ### Little-endian values -/

@[simp] theorem length_leBytes (n v : Nat) : (leBytes n v).length = n := by
  induction n generalizing v with
  | zero => rfl
  | succ n ih => simp [leBytes, ih]

/-- Reading back the bytes of `v` gives its low `8 * n` bits. -/
theorem leValue_leBytes (n v : Nat) : leValue (leBytes n v) = v % 2 ^ (8 * n) := by
  induction n generalizing v with
  | zero => simp [leBytes, leValue, Nat.mod_one]
  | succ n ih =>
    have h : 2 ^ (8 * (n + 1)) = 256 * 2 ^ (8 * n) := by rw [Nat.mul_add, Nat.pow_add]; omega
    rw [leBytes, leValue, ih, h, Nat.mod_mul, BitVec.toNat_ofNat]

theorem leValue_lt (bs : List Byte) : leValue bs < 2 ^ (8 * bs.length) := by
  induction bs with
  | nil => simp [leValue]
  | cons b bs ih =>
    have h : 2 ^ (8 * (bs.length + 1)) = 256 * 2 ^ (8 * bs.length) := by rw [Nat.mul_add, Nat.pow_add]; omega
    rw [leValue, List.length_cons, h]
    have := b.isLt
    omega

/-- Byte `k` of `v` is `v[8k+7 : 8k]` (R48). -/
theorem getElem_leBytes (n v k : Nat) (h : k < (leBytes n v).length) :
    (leBytes n v)[k] = BitVec.ofNat 8 (v / 2 ^ (8 * k)) := by
  induction n generalizing v k with
  | zero => simp [leBytes] at h
  | succ n ih =>
    cases k with
    | zero => simp [leBytes]
    | succ k =>
      have := ih (v / 256) k (by simpa [leBytes] using h)
      simp only [leBytes, List.getElem_cons_succ, this, Nat.div_div_eq_div_mul]
      congr 2
      rw [Nat.mul_add, Nat.pow_add]; omega

theorem leValue_append (bs : List Byte) (b : Byte) : leValue (bs ++ [b]) = leValue bs + b.toNat * 2 ^ (8 * bs.length) := by
  induction bs with
  | nil => simp [leValue]
  | cons c bs ih =>
    have h : 2 ^ (8 * (bs.length + 1)) = 256 * 2 ^ (8 * bs.length) := by rw [Nat.mul_add, Nat.pow_add]; omega
    rw [List.cons_append, leValue, ih, leValue, List.length_cons, h]; ring

theorem Memory.readBytes_succ (m : Memory) (a n : Nat) : m.readBytes a (n + 1) = m.readBytes a n ++ [m.read (a + n)] := by
  induction n generalizing a with
  | zero => rfl
  | succ n ih =>
    rw [Memory.readBytes, ih, Memory.readBytes, List.cons_append, Nat.add_assoc, Nat.add_comm 1 n]

/-- The bytes at `a` as one little-endian value: the sum of R47. -/
theorem State.leValue_readBytes (s : State) (a n : Nat) : leValue (s.mem.readBytes a n) = s.valueAt a n := by
  induction n with
  | zero => rfl
  | succ n ih => rw [Memory.readBytes_succ, leValue_append, ih, Memory.length_readBytes]; rfl

theorem State.valueAt_lt (s : State) (a n : Nat) : s.valueAt a n < 2 ^ (8 * n) := by
  rw [← s.leValue_readBytes]
  simpa using leValue_lt (s.mem.readBytes a n)

/-- A value depends on its own bytes alone. -/
theorem State.valueAt_congr {s t : State} {a n : Nat} (h : ∀ k < n, t.byte (a + k) = s.byte (a + k)) :
    t.valueAt a n = s.valueAt a n := by
  rw [← t.leValue_readBytes, ← s.leValue_readBytes, Memory.readBytes_congr h]

end Sys2Proof.Machine
end

