-- ==== Sys2Proof/Laws/Registers.lean ====
section
/-! SUPPORT. The register file: x0 reads 0, a write is read back, and leaves every other register alone (10_state.md
R20, 00_scope.md R13). -/

namespace Sys2Proof.Machine

/-- "reads always return 0" (R20). -/
@[simp] theorem State.x_zero (s : State) : s.x 0 = 0 := rfl

/-- A register reads as the storage at its index, x0 apart. -/
theorem State.x_of_ne_zero (s : State) {r : Reg} (h : r ≠ 0) : s.x r = s.regs[r.toNat]'(r.isLt) := if_neg h

/-- States with the same storage read the same. -/
theorem State.x_congr {s t : State} (h : t.regs = s.regs) (r : Reg) : t.x r = s.x r := by
  simp only [State.x, h]

theorem readRegs_writeRegs_same (regs : Vector Word 32) {r : Reg} (h : r ≠ 0) (v : Word) :
    readRegs (writeRegs regs r v) r = v := by
  rw [readRegs, if_neg h]
  simp only [writeRegs, if_neg h, Vector.getElem_set_self]

theorem readRegs_writeRegs_other (regs : Vector Word 32) {r q : Reg} (h : q ≠ r) (v : Word) :
    readRegs (writeRegs regs r v) q = readRegs regs q := by
  have hn : r.toNat ≠ q.toNat := fun e => h (BitVec.eq_of_toNat_eq e.symm)
  unfold readRegs writeRegs
  split
  · rfl
  · split
    · rfl
    · exact Vector.getElem_set_ne _ _ hn

theorem State.x_setX_same (s : State) {r : Reg} (h : r ≠ 0) (v : Word) : (s.setX r v).x r = v :=
  readRegs_writeRegs_same s.regs h v

theorem State.x_setX_other (s : State) {r q : Reg} (h : q ≠ r) (v : Word) : (s.setX r v).x q = s.x q :=
  readRegs_writeRegs_other s.regs h v

/-- A write to x0 is discarded. -/
theorem State.setX_zero (s : State) (v : Word) : s.setX 0 v = s := rfl

/-- The whole effect of `x[rd] <- v` on what registers read as. -/
theorem State.setX_regWritten (s : State) (rd : Reg) (v : Word) : RegWritten rd v s (s.setX rd v) := by
  refine ⟨?_, fun r h => s.x_setX_other h v⟩
  split
  · rename_i h; rw [h]; rfl
  · rename_i h; exact s.x_setX_same h v

/-- A write never reaches the storage of x0. -/
@[simp] theorem writeRegs_zero (regs : Vector Word 32) (i : Reg) (v : Word) : (writeRegs regs i v)[0] = regs[0] := by
  unfold writeRegs
  split
  · rfl
  · rename_i h
    exact Vector.getElem_set_ne _ _ fun e => h (BitVec.eq_of_toNat_eq e)

@[simp] theorem State.x_withMem (s : State) (m : Memory) (r : Reg) : (s.withMem m).x r = s.x r := rfl
@[simp] theorem State.x_writePc (s : State) (t : Word) (r : Reg) : (s.writePc t).x r = s.x r := rfl
@[simp] theorem State.x_advancePc (s : State) (r : Reg) : s.advancePc.x r = s.x r := rfl
@[simp] theorem State.x_countCycle (s : State) (r : Reg) : s.countCycle.x r = s.x r := rfl
@[simp] theorem State.x_captureFetch (s : State) (r : Reg) : s.captureFetch.x r = s.x r := rfl
@[simp] theorem State.x_withStatus (s : State) (q : RunStatus) (r : Reg) : (s.withStatus q).x r = s.x r := rfl
@[simp] theorem State.x_emitTrace (s : State) (l : TraceLine) (r : Reg) : (s.emitTrace l).x r = s.x r := rfl
@[simp] theorem State.x_emitOutput (s : State) (e : OutputEvent) (r : Reg) : (s.emitOutput e).x r = s.x r := rfl
@[simp] theorem State.x_hostAnswered (s : State) (r : Reg) : s.hostAnswered.x r = s.x r := rfl
@[simp] theorem State.x_untraced (s : State) (r : Reg) : s.untraced.x r = s.x r := rfl

@[simp] theorem State.byte_setX (s : State) (i : Reg) (v : Word) (a : Nat) : (s.setX i v).byte a = s.byte a := rfl
@[simp] theorem State.byte_writePc (s : State) (t : Word) (a : Nat) : (s.writePc t).byte a = s.byte a := rfl
@[simp] theorem State.byte_withMem (s : State) (m : Memory) (a : Nat) : (s.withMem m).byte a = m.read a := rfl

end Sys2Proof.Machine
end

