-- ==== Sys2Proof/Laws/Access.lean ====
section
/-! SUPPORT. The checked accesses: exactly when each completes, with which result, and which error it raises otherwise
(20_memory.md R44 to R49). -/

namespace Sys2Proof.Machine

variable {s t : State} {a n v len : Nat} {k : Fault} {bs : List Byte}

/-! ### The check -/

theorem checkAccess_ok {c : Config} (ha : a % n = 0) (hr : c.InRange a n) : checkAccess c a n = .ok () := by
  simp [checkAccess, ha, hr]

theorem checkAccess_misaligned {c : Config} (ha : a % n ≠ 0) : checkAccess c a n = .error (.misalignedAccess a n) := by
  simp [checkAccess, ha]

theorem checkAccess_outOfRange {c : Config} (ha : a % n = 0) (hr : ¬ c.InRange a n) :
    checkAccess c a n = .error (.outOfRange a n) := by
  simp only [checkAccess, ha, ne_eq, not_true_eq_false, if_false, if_neg hr]

/-! ### MemRead -/

theorem memRead_eq_ok (ha : a % n = 0) (hr : s.cfg.InRange a n) : memRead s a n = .ok (s.valueAt a n) := by
  rw [memRead, checkAccess_ok ha hr, s.leValue_readBytes]

theorem memRead_misaligned (ha : a % n ≠ 0) : memRead s a n = .error (.misalignedAccess a n) := by
  rw [memRead, checkAccess_misaligned ha]

theorem memRead_outOfRange (ha : a % n = 0) (hr : ¬ s.cfg.InRange a n) : memRead s a n = .error (.outOfRange a n) := by
  rw [memRead, checkAccess_outOfRange ha hr]

/-- A read completes exactly when it is aligned and in range, and returns the little-endian value. -/
theorem memRead_ok_iff : memRead s a n = .ok v ↔ a % n = 0 ∧ s.cfg.InRange a n ∧ s.valueAt a n = v := by
  by_cases ha : a % n = 0
  · by_cases hr : s.cfg.InRange a n
    · rw [memRead_eq_ok ha hr, Except.ok.injEq]
      exact ⟨fun h => ⟨ha, hr, h⟩, fun h => h.2.2⟩
    · rw [memRead_outOfRange ha hr]
      exact ⟨fun h => (nomatch h), fun h => absurd h.2.1 hr⟩
  · rw [memRead_misaligned ha]
    exact ⟨fun h => (nomatch h), fun h => absurd h.1 ha⟩

/-- The two errors of a read, alignment first. -/
theorem memRead_error_iff : memRead s a n = .error k ↔
    (a % n ≠ 0 ∧ k = .misalignedAccess a n) ∨ (a % n = 0 ∧ ¬ s.cfg.InRange a n ∧ k = .outOfRange a n) := by
  by_cases ha : a % n = 0
  · by_cases hr : s.cfg.InRange a n
    · rw [memRead_eq_ok ha hr]
      exact ⟨fun h => (nomatch h), fun h => h.elim (fun h => absurd ha h.1) fun h => absurd hr h.2.1⟩
    · rw [memRead_outOfRange ha hr, Except.error.injEq]
      exact ⟨fun h => .inr ⟨ha, hr, h.symm⟩, fun h => h.elim (fun h => absurd ha h.1) fun h => h.2.2.symm⟩
  · rw [memRead_misaligned ha, Except.error.injEq]
    exact ⟨fun h => .inl ⟨ha, h.symm⟩, fun h => h.elim (fun h => h.2.symm) fun h => absurd h.1 ha⟩

/-- A read looks at the configuration and its own bytes alone. -/
theorem memRead_congr (hc : t.cfg = s.cfg) (hb : ∀ k < n, t.byte (a + k) = s.byte (a + k)) :
    memRead t a n = memRead s a n := by
  simp only [memRead, hc, t.leValue_readBytes, s.leValue_readBytes, State.valueAt_congr hb]

/-! ### MemWrite -/

theorem memWrite_eq_ok (ha : a % n = 0) (hr : s.cfg.InRange a n) :
    memWrite s a n v = .ok (s.withMem (s.mem.writeBytes a (leBytes n v))) := by
  rw [memWrite, checkAccess_ok ha hr]

theorem memWrite_misaligned (ha : a % n ≠ 0) : memWrite s a n v = .error (.misalignedAccess a n) := by
  rw [memWrite, checkAccess_misaligned ha]

theorem memWrite_outOfRange (ha : a % n = 0) (hr : ¬ s.cfg.InRange a n) :
    memWrite s a n v = .error (.outOfRange a n) := by
  rw [memWrite, checkAccess_outOfRange ha hr]

/-- A write completes exactly when it is aligned and in range, and its whole effect is the run of bytes. -/
theorem memWrite_ok_iff : memWrite s a n v = .ok t ↔
    a % n = 0 ∧ s.cfg.InRange a n ∧ t = s.withMem (s.mem.writeBytes a (leBytes n v)) := by
  by_cases ha : a % n = 0
  · by_cases hr : s.cfg.InRange a n
    · rw [memWrite_eq_ok ha hr, Except.ok.injEq]
      exact ⟨fun h => ⟨ha, hr, h.symm⟩, fun h => h.2.2.symm⟩
    · rw [memWrite_outOfRange ha hr]
      exact ⟨fun h => (nomatch h), fun h => absurd h.2.1 hr⟩
  · rw [memWrite_misaligned ha]
    exact ⟨fun h => (nomatch h), fun h => absurd h.1 ha⟩

/-- What the bytes of a write read as afterwards. -/
theorem byte_writeBytes_inside {j : Nat} (h : j < n) :
    ((s.withMem (s.mem.writeBytes a (leBytes n v))).byte (a + j)).toNat = v / 2 ^ (8 * j) % 256 := by
  rw [State.byte_withMem, Memory.read_writeBytes_inside _ _ _ (by simpa using h), getElem_leBytes, BitVec.toNat_ofNat]

theorem sameMemoryOutside_writeBytes :
    SameMemoryOutside a n s (s.withMem (s.mem.writeBytes a (leBytes n v))) := by
  intro b hb
  rw [State.byte_withMem, Memory.read_writeBytes_outside _ _ _ (by simpa using hb)]
  rfl

/-- A value written is read back, its low `8 * n` bits. -/
theorem valueAt_writeBytes_same :
    (s.withMem (s.mem.writeBytes a (leBytes n v))).valueAt a n = v % 2 ^ (8 * n) := by
  rw [← State.leValue_readBytes, State.withMem_mem]
  have := Memory.readBytes_writeBytes_same s.mem a (leBytes n v)
  rw [length_leBytes] at this
  rw [this, leValue_leBytes]

/-- A value at bytes a run of writes does not touch is as before. -/
theorem valueAt_writeBytes_outside {b m : Nat} (h : b + m ≤ a ∨ a + bs.length ≤ b) :
    (s.withMem (s.mem.writeBytes a bs)).valueAt b m = s.valueAt b m := by
  refine State.valueAt_congr fun j hj => ?_
  rw [State.byte_withMem, Memory.read_writeBytes_outside _ _ _ (by omega)]
  rfl

/-! ### Block copies -/

theorem checkBlock_ok {c : Config} (h : len = 0 ∨ c.InRange a len) : checkBlock c a len = .ok () := by
  simp only [checkBlock, if_pos h]

theorem checkBlock_outOfRange {c : Config} (h0 : len ≠ 0) (h : ¬ c.InRange a len) :
    checkBlock c a len = .error (.outOfRange a len) := by
  have : ¬ (len = 0 ∨ c.InRange a len) := by tauto
  simp only [checkBlock, if_neg this]

theorem memReadBlock_ok_iff : memReadBlock s a len = .ok bs ↔
    (len = 0 ∨ s.cfg.InRange a len) ∧ s.mem.readBytes a len = bs := by
  by_cases h : len = 0 ∨ s.cfg.InRange a len
  · simp only [memReadBlock, checkBlock_ok h, Except.ok.injEq, h, true_and]
  · rw [memReadBlock, checkBlock_outOfRange (by tauto) (by tauto)]
    simp only [reduceCtorEq, h, false_and]

theorem memWriteBlock_ok_iff : memWriteBlock s a bs = .ok t ↔
    (bs.length = 0 ∨ s.cfg.InRange a bs.length) ∧ t = s.withMem (s.mem.writeBytes a bs) := by
  by_cases h : bs.length = 0 ∨ s.cfg.InRange a bs.length
  · simp only [memWriteBlock, checkBlock_ok h, Except.ok.injEq, h, true_and]
    exact eq_comm
  · rw [memWriteBlock, checkBlock_outOfRange (by tauto) (by tauto)]
    simp only [reduceCtorEq, h, false_and]

/-! ### The memory invariant -/

/-- Writing bytes of the region keeps memory canonical and inside the region. -/
theorem State.MemoryInv.writeBytes (h : s.MemoryInv) (hr : bs.length = 0 ∨ s.cfg.InRange a bs.length) :
    (s.withMem (s.mem.writeBytes a bs)).MemoryInv := by
  refine ⟨Memory.wf_writeBytes h.1 a bs, fun c hc => ?_⟩
  obtain hc | hc := Memory.mem_writeBytes hc
  · obtain h0 | hr := hr
    · omega
    · exact ⟨hr.1.trans hc.1, Nat.le_trans (by omega) hr.2⟩
  · exact h.2 c hc

end Sys2Proof.Machine
end

