-- ==== Sys2Proof/Laws/Decode.lean ====
section
/-! SUPPORT. Words and their fields: a match against a mask of the opcode table is a fact about fields, and the encoder
puts each field where the decoder reads it (30_encoding.md R64, R65). -/

namespace Sys2Proof

/-! ### Masks -/

/-- A match determines every field that its mask covers. -/
theorem field_of_match {w mask bits : Word} (h : w &&& mask = bits) (lo n : Nat)
    (hm : field mask lo n = BitVec.allOnes n) : field w lo n = field bits lo n := by
  subst h
  unfold field at *
  rw [BitVec.extractLsb'_and, hm, BitVec.and_allOnes]

/-- The bits of one field, in place. -/
theorem and_shifted_mask (w : Word) (lo n : Nat) :
    w &&& ((BitVec.allOnes n).setWidth 32 <<< lo) = (field w lo n).setWidth 32 <<< lo := by
  ext j hj
  simp only [field, BitVec.getElem_and, BitVec.getElem_shiftLeft, BitVec.getElem_setWidth, BitVec.getLsbD_allOnes,
    BitVec.getLsbD_extractLsb']
  by_cases h : j < lo
  · simp [h]
  · have e : lo + (j - lo) = j := by omega
    simp [h, e, ← BitVec.getLsbD_eq_getElem, Bool.and_comm]

theorem and_mask_opcode (w : Word) : w &&& (0x0000007F : Word) = (opcodeOf w).setWidth 32 := by
  have h := and_shifted_mask w 0 7
  rwa [BitVec.shiftLeft_zero, BitVec.shiftLeft_zero] at h

theorem and_mask_funct3 (w : Word) :
    w &&& (0x0000707F : Word) = (funct3Of w).setWidth 32 <<< 12 ||| (opcodeOf w).setWidth 32 := by
  rw [← and_mask_opcode, funct3Of, ← and_shifted_mask w 12 3, ← BitVec.and_or_distrib_left]
  rfl

theorem and_mask_funct7 (w : Word) : w &&& (0xFE00707F : Word) =
    (funct7Of w).setWidth 32 <<< 25 ||| ((funct3Of w).setWidth 32 <<< 12 ||| (opcodeOf w).setWidth 32) := by
  rw [← and_mask_funct3, funct7Of, ← and_shifted_mask w 25 7, ← BitVec.and_or_distrib_left]
  rfl

theorem and_mask_system (w : Word) :
    w &&& (0xFFF0007F : Word) = (immIOf w).setWidth 32 <<< 20 ||| (opcodeOf w).setWidth 32 := by
  rw [← and_mask_opcode, immIOf, ← and_shifted_mask w 20 12, ← BitVec.and_or_distrib_left]
  rfl

/-! ### Fields of an encoded word -/

section
variable (f7 : BitVec 7) (rs2 rs1 : Reg) (f3 : BitVec 3) (rd : Reg) (op : BitVec 7)

@[simp] theorem opcodeOf_encodeR : opcodeOf (encodeR f7 rs2 rs1 f3 rd op) = op := by
  refine BitVec.eq_of_getLsbD_eq fun j hj => ?_
  simp only [opcodeOf, field, encodeR, BitVec.getLsbD_extractLsb', BitVec.getLsbD_append]
  interval_cases j <;> simp

@[simp] theorem rdOf_encodeR : rdOf (encodeR f7 rs2 rs1 f3 rd op) = rd := by
  refine BitVec.eq_of_getLsbD_eq fun j hj => ?_
  simp only [rdOf, field, encodeR, BitVec.getLsbD_extractLsb', BitVec.getLsbD_append]
  interval_cases j <;> simp

@[simp] theorem funct3Of_encodeR : funct3Of (encodeR f7 rs2 rs1 f3 rd op) = f3 := by
  refine BitVec.eq_of_getLsbD_eq fun j hj => ?_
  simp only [funct3Of, field, encodeR, BitVec.getLsbD_extractLsb', BitVec.getLsbD_append]
  interval_cases j <;> simp

@[simp] theorem rs1Of_encodeR : rs1Of (encodeR f7 rs2 rs1 f3 rd op) = rs1 := by
  refine BitVec.eq_of_getLsbD_eq fun j hj => ?_
  simp only [rs1Of, field, encodeR, BitVec.getLsbD_extractLsb', BitVec.getLsbD_append]
  interval_cases j <;> simp

@[simp] theorem rs2Of_encodeR : rs2Of (encodeR f7 rs2 rs1 f3 rd op) = rs2 := by
  refine BitVec.eq_of_getLsbD_eq fun j hj => ?_
  simp only [rs2Of, field, encodeR, BitVec.getLsbD_extractLsb', BitVec.getLsbD_append]
  interval_cases j <;> simp

@[simp] theorem funct7Of_encodeR : funct7Of (encodeR f7 rs2 rs1 f3 rd op) = f7 := by
  refine BitVec.eq_of_getLsbD_eq fun j hj => ?_
  simp only [funct7Of, field, encodeR, BitVec.getLsbD_extractLsb', BitVec.getLsbD_append]
  interval_cases j <;> simp

end

section
variable (imm : BitVec 12) (rs1 : Reg) (f3 : BitVec 3) (rd : Reg) (op : BitVec 7)

@[simp] theorem opcodeOf_encodeI : opcodeOf (encodeI imm rs1 f3 rd op) = op := by
  refine BitVec.eq_of_getLsbD_eq fun j hj => ?_
  simp only [opcodeOf, field, encodeI, BitVec.getLsbD_extractLsb', BitVec.getLsbD_append]
  interval_cases j <;> simp

@[simp] theorem rdOf_encodeI : rdOf (encodeI imm rs1 f3 rd op) = rd := by
  refine BitVec.eq_of_getLsbD_eq fun j hj => ?_
  simp only [rdOf, field, encodeI, BitVec.getLsbD_extractLsb', BitVec.getLsbD_append]
  interval_cases j <;> simp

@[simp] theorem funct3Of_encodeI : funct3Of (encodeI imm rs1 f3 rd op) = f3 := by
  refine BitVec.eq_of_getLsbD_eq fun j hj => ?_
  simp only [funct3Of, field, encodeI, BitVec.getLsbD_extractLsb', BitVec.getLsbD_append]
  interval_cases j <;> simp

@[simp] theorem rs1Of_encodeI : rs1Of (encodeI imm rs1 f3 rd op) = rs1 := by
  refine BitVec.eq_of_getLsbD_eq fun j hj => ?_
  simp only [rs1Of, field, encodeI, BitVec.getLsbD_extractLsb', BitVec.getLsbD_append]
  interval_cases j <;> simp

@[simp] theorem immIOf_encodeI : immIOf (encodeI imm rs1 f3 rd op) = imm := by
  refine BitVec.eq_of_getLsbD_eq fun j hj => ?_
  simp only [immIOf, field, encodeI, BitVec.getLsbD_extractLsb', BitVec.getLsbD_append]
  interval_cases j <;> simp

end

section
variable (f7 : BitVec 7) (shamt : BitVec 5) (rs1 : Reg) (f3 : BitVec 3) (rd : Reg)

@[simp] theorem opcodeOf_encodeShift : opcodeOf (encodeShift f7 shamt rs1 f3 rd) = 0x13 := by
  refine BitVec.eq_of_getLsbD_eq fun j hj => ?_
  simp only [opcodeOf, field, encodeShift, BitVec.getLsbD_extractLsb', BitVec.getLsbD_append]
  interval_cases j <;> simp

@[simp] theorem rdOf_encodeShift : rdOf (encodeShift f7 shamt rs1 f3 rd) = rd := by
  refine BitVec.eq_of_getLsbD_eq fun j hj => ?_
  simp only [rdOf, field, encodeShift, BitVec.getLsbD_extractLsb', BitVec.getLsbD_append]
  interval_cases j <;> simp

@[simp] theorem funct3Of_encodeShift : funct3Of (encodeShift f7 shamt rs1 f3 rd) = f3 := by
  refine BitVec.eq_of_getLsbD_eq fun j hj => ?_
  simp only [funct3Of, field, encodeShift, BitVec.getLsbD_extractLsb', BitVec.getLsbD_append]
  interval_cases j <;> simp

@[simp] theorem rs1Of_encodeShift : rs1Of (encodeShift f7 shamt rs1 f3 rd) = rs1 := by
  refine BitVec.eq_of_getLsbD_eq fun j hj => ?_
  simp only [rs1Of, field, encodeShift, BitVec.getLsbD_extractLsb', BitVec.getLsbD_append]
  interval_cases j <;> simp

@[simp] theorem shamtOf_encodeShift : shamtOf (encodeShift f7 shamt rs1 f3 rd) = shamt := by
  refine BitVec.eq_of_getLsbD_eq fun j hj => ?_
  simp only [shamtOf, field, encodeShift, BitVec.getLsbD_extractLsb', BitVec.getLsbD_append]
  interval_cases j <;> simp

@[simp] theorem funct7Of_encodeShift : funct7Of (encodeShift f7 shamt rs1 f3 rd) = f7 := by
  refine BitVec.eq_of_getLsbD_eq fun j hj => ?_
  simp only [funct7Of, field, encodeShift, BitVec.getLsbD_extractLsb', BitVec.getLsbD_append]
  interval_cases j <;> simp

end

section
variable (imm : BitVec 12) (rs2 rs1 : Reg) (f3 : BitVec 3)

@[simp] theorem opcodeOf_encodeS : opcodeOf (encodeS imm rs2 rs1 f3) = 0x23 := by
  refine BitVec.eq_of_getLsbD_eq fun j hj => ?_
  simp only [opcodeOf, field, encodeS, BitVec.getLsbD_extractLsb', BitVec.getLsbD_append]
  interval_cases j <;> simp

@[simp] theorem funct3Of_encodeS : funct3Of (encodeS imm rs2 rs1 f3) = f3 := by
  refine BitVec.eq_of_getLsbD_eq fun j hj => ?_
  simp only [funct3Of, field, encodeS, BitVec.getLsbD_extractLsb', BitVec.getLsbD_append]
  interval_cases j <;> simp

@[simp] theorem rs1Of_encodeS : rs1Of (encodeS imm rs2 rs1 f3) = rs1 := by
  refine BitVec.eq_of_getLsbD_eq fun j hj => ?_
  simp only [rs1Of, field, encodeS, BitVec.getLsbD_extractLsb', BitVec.getLsbD_append]
  interval_cases j <;> simp

@[simp] theorem rs2Of_encodeS : rs2Of (encodeS imm rs2 rs1 f3) = rs2 := by
  refine BitVec.eq_of_getLsbD_eq fun j hj => ?_
  simp only [rs2Of, field, encodeS, BitVec.getLsbD_extractLsb', BitVec.getLsbD_append]
  interval_cases j <;> simp

@[simp] theorem immSOf_encodeS : immSOf (encodeS imm rs2 rs1 f3) = imm := by
  refine BitVec.eq_of_getLsbD_eq fun j hj => ?_
  simp only [immSOf, field, encodeS, BitVec.getLsbD_extractLsb', BitVec.getLsbD_append]
  interval_cases j <;> simp

end

section
variable (offset : BitVec 13) (rs2 rs1 : Reg) (f3 : BitVec 3)

@[simp] theorem opcodeOf_encodeB : opcodeOf (encodeB offset rs2 rs1 f3) = 0x63 := by
  refine BitVec.eq_of_getLsbD_eq fun j hj => ?_
  simp only [opcodeOf, field, encodeB, BitVec.getLsbD_extractLsb', BitVec.getLsbD_append]
  interval_cases j <;> simp

@[simp] theorem funct3Of_encodeB : funct3Of (encodeB offset rs2 rs1 f3) = f3 := by
  refine BitVec.eq_of_getLsbD_eq fun j hj => ?_
  simp only [funct3Of, field, encodeB, BitVec.getLsbD_extractLsb', BitVec.getLsbD_append]
  interval_cases j <;> simp

@[simp] theorem rs1Of_encodeB : rs1Of (encodeB offset rs2 rs1 f3) = rs1 := by
  refine BitVec.eq_of_getLsbD_eq fun j hj => ?_
  simp only [rs1Of, field, encodeB, BitVec.getLsbD_extractLsb', BitVec.getLsbD_append]
  interval_cases j <;> simp

@[simp] theorem rs2Of_encodeB : rs2Of (encodeB offset rs2 rs1 f3) = rs2 := by
  refine BitVec.eq_of_getLsbD_eq fun j hj => ?_
  simp only [rs2Of, field, encodeB, BitVec.getLsbD_extractLsb', BitVec.getLsbD_append]
  interval_cases j <;> simp

@[simp] theorem immBOf_encodeB : immBOf (encodeB offset rs2 rs1 f3) = offset &&& ~~~1 := by
  refine BitVec.eq_of_getLsbD_eq fun j hj => ?_
  simp only [immBOf, field, encodeB, BitVec.getLsbD_extractLsb', BitVec.getLsbD_append]
  interval_cases j <;> simp

end

section
variable (imm20 : BitVec 20) (rd : Reg) (op : BitVec 7)

@[simp] theorem opcodeOf_encodeU : opcodeOf (encodeU imm20 rd op) = op := by
  refine BitVec.eq_of_getLsbD_eq fun j hj => ?_
  simp only [opcodeOf, field, encodeU, BitVec.getLsbD_extractLsb', BitVec.getLsbD_append]
  interval_cases j <;> simp

@[simp] theorem rdOf_encodeU : rdOf (encodeU imm20 rd op) = rd := by
  refine BitVec.eq_of_getLsbD_eq fun j hj => ?_
  simp only [rdOf, field, encodeU, BitVec.getLsbD_extractLsb', BitVec.getLsbD_append]
  interval_cases j <;> simp

@[simp] theorem immUOf_encodeU : immUOf (encodeU imm20 rd op) = imm20 := by
  refine BitVec.eq_of_getLsbD_eq fun j hj => ?_
  simp only [immUOf, field, encodeU, BitVec.getLsbD_extractLsb', BitVec.getLsbD_append]
  interval_cases j <;> simp

end

section
variable (offset : BitVec 21) (rd : Reg) (op : BitVec 7)

@[simp] theorem opcodeOf_encodeJ : opcodeOf (encodeJ offset rd op) = op := by
  refine BitVec.eq_of_getLsbD_eq fun j hj => ?_
  simp only [opcodeOf, field, encodeJ, BitVec.getLsbD_extractLsb', BitVec.getLsbD_append]
  interval_cases j <;> simp

@[simp] theorem rdOf_encodeJ : rdOf (encodeJ offset rd op) = rd := by
  refine BitVec.eq_of_getLsbD_eq fun j hj => ?_
  simp only [rdOf, field, encodeJ, BitVec.getLsbD_extractLsb', BitVec.getLsbD_append]
  interval_cases j <;> simp

@[simp] theorem immJOf_encodeJ : immJOf (encodeJ offset rd op) = offset &&& ~~~1 := by
  refine BitVec.eq_of_getLsbD_eq fun j hj => ?_
  simp only [immJOf, field, encodeJ, BitVec.getLsbD_extractLsb', BitVec.getLsbD_append]
  interval_cases j <;> simp

end

/-- An even branch offset comes back whole. -/
theorem even_branch_offset {offset : BitVec 13} (h : branchOffsetEven offset) : offset &&& ~~~1 = offset := by
  refine BitVec.eq_of_getLsbD_eq fun j hj => ?_
  rw [branchOffsetEven] at h
  interval_cases j <;> simp_all

/-- An even JAL offset comes back whole. -/
theorem even_jump_offset {offset : BitVec 21} (h : jumpOffsetEven offset) : offset &&& ~~~1 = offset := by
  refine BitVec.eq_of_getLsbD_eq fun j hj => ?_
  rw [jumpOffsetEven] at h
  interval_cases j <;> simp_all

/-- Bit 0 of a decoded branch offset is 0. -/
theorem branchOffsetEven_immBOf (w : Word) : branchOffsetEven (immBOf w) := by
  simp only [branchOffsetEven, immBOf, BitVec.getLsbD_append]; rfl

/-- Bit 0 of a decoded JAL offset is 0. -/
theorem jumpOffsetEven_immJOf (w : Word) : jumpOffsetEven (immJOf w) := by
  simp only [jumpOffsetEven, immJOf, BitVec.getLsbD_append]; rfl

end Sys2Proof
end

