-- ==== Sys2Proof/Laws/Htif.lean ====
section
/-! SUPPORT. The HTIF service: what it can do to the state at all, and each of its ways of ending (60_exceptions.md
R167 to R173). -/

namespace Sys2Proof.Machine

variable {s t u : State} {k : Fault} {st : StepStatus}

/-- What the service never touches ("reads and writes no register", 10_state.md R22; R102). -/
structure ServiceFrame (s t : State) : Prop where
  cfg : t.cfg = s.cfg
  regs : t.regs = s.regs
  pc : t.pc = s.pc
  branchTaken : t.branchTaken = s.branchTaken
  cycleCount : t.cycleCount = s.cycleCount
  fetchAddress : t.fetchAddress = s.fetchAddress
  fdTable : t.fdTable = s.fdTable
  runStatus : t.runStatus = s.runStatus
  traceLog : t.traceLog = s.traceLog
  memory : s.MemoryInv → t.MemoryInv

theorem ServiceFrame.refl (s : State) : ServiceFrame s s := ⟨rfl, rfl, rfl, rfl, rfl, rfl, rfl, rfl, rfl, id⟩

theorem ServiceFrame.trans (h₁ : ServiceFrame s t) (h₂ : ServiceFrame t u) : ServiceFrame s u where
  cfg := h₂.cfg.trans h₁.cfg
  regs := h₂.regs.trans h₁.regs
  pc := h₂.pc.trans h₁.pc
  branchTaken := h₂.branchTaken.trans h₁.branchTaken
  cycleCount := h₂.cycleCount.trans h₁.cycleCount
  fetchAddress := h₂.fetchAddress.trans h₁.fetchAddress
  fdTable := h₂.fdTable.trans h₁.fdTable
  runStatus := h₂.runStatus.trans h₁.runStatus
  traceLog := h₂.traceLog.trans h₁.traceLog
  memory := fun h => h₂.memory (h₁.memory h)

theorem ServiceFrame.of_memWrite {a n v : Nat} (h : memWrite s a n v = .ok t) : ServiceFrame s t := by
  obtain ⟨-, hr, rfl⟩ := memWrite_ok_iff.1 h
  exact ⟨rfl, rfl, rfl, rfl, rfl, rfl, rfl, rfl, rfl, fun hm => hm.writeBytes (.inr (by simpa using hr))⟩

theorem ServiceFrame.of_memWriteBlock {a : Nat} {bs : List Byte} (h : memWriteBlock s a bs = .ok t) :
    ServiceFrame s t := by
  obtain ⟨hr, rfl⟩ := memWriteBlock_ok_iff.1 h
  exact ⟨rfl, rfl, rfl, rfl, rfl, rfl, rfl, rfl, rfl, fun hm => hm.writeBytes hr⟩

theorem ServiceFrame.hostAnswered (s : State) : ServiceFrame s s.hostAnswered :=
  ⟨rfl, rfl, rfl, rfl, rfl, rfl, rfl, rfl, rfl, id⟩

theorem ServiceFrame.emitOutput (s : State) (e : OutputEvent) : ServiceFrame s (s.emitOutput e) :=
  ⟨rfl, rfl, rfl, rfl, rfl, rfl, rfl, rfl, rfl, id⟩

/-! ### The commands -/

@[simp] theorem length_fillBuffer (call len k : Nat) (bs : List Byte) : (fillBuffer call len k bs).length = len := by
  induction len generalizing k bs with
  | zero => cases bs <;> rfl
  | succ len ih => cases bs <;> simp [fillBuffer, ih]

@[simp] theorem State.length_hostBuffer (s : State) (len : Nat) : (s.hostBuffer len).length = len :=
  length_fillBuffer _ _ _ _

/-- A count the host returns is -1 or at most `len` (R175, R176). -/
theorem HostAnswer.bounded_le {a : HostAnswer} {len r : Nat} (h : a.bounded len = some r) : r ≤ len := by
  obtain ⟨q, -, rfl⟩ := Option.map_eq_some_iff.1 h
  exact Nat.min_le_right q len

/-- An fd names a slot exactly below 3 (R177). -/
theorem State.hostFile_eq_none_iff (s : State) (fd : Nat) : s.hostFile fd = none ↔ 3 ≤ fd := by
  simp [State.hostFile]

/-- Everything a completed READ does (R171). -/
theorem htifRead_ok {fd buf len : Nat} (h : htifRead s fd buf len = .ok t) :
    fd < 3 ∧ (len = 0 ∨ s.cfg.InRange buf len) ∧
      writeFromhost (s.hostAnswered.withMem (s.mem.writeBytes buf (s.hostBuffer len))) (s.hostAnswer.bounded len) =
        .ok t := by
  unfold htifRead at h
  split at h
  · cases h
  · rename_i f hf
    have hlt : fd < 3 := by
      by_contra hge
      rw [(s.hostFile_eq_none_iff fd).2 (by omega)] at hf
      cases hf
    split at h
    · cases h
    · rename_i w hw
      obtain ⟨hr, rfl⟩ := memWriteBlock_ok_iff.1 hw
      exact ⟨hlt, by simpa using hr, h⟩

/-- Everything a completed WRITE does (R172). -/
theorem htifWrite_ok {fd buf len : Nat} (h : htifWrite s fd buf len = .ok t) :
    (len = 0 ∨ s.cfg.InRange buf len) ∧ ∃ file, s.hostFile fd = some file ∧
      writeFromhost (s.hostAnswered.emitOutput ⟨fd, file, s.mem.readBytes buf len⟩) (s.hostAnswer.bounded len) =
        .ok t := by
  unfold htifWrite at h
  split at h
  · cases h
  · rename_i bytes hb
    obtain ⟨hr, rfl⟩ := memReadBlock_ok_iff.1 hb
    split at h
    · cases h
    · rename_i file hf
      exact ⟨hr, file, hf, h⟩

theorem ServiceFrame.of_htifRead {fd buf len : Nat} (h : htifRead s fd buf len = .ok t) : ServiceFrame s t := by
  unfold htifRead at h
  split at h
  · cases h
  · split at h
    · cases h
    · rename_i w hw
      exact ((ServiceFrame.hostAnswered s).trans (.of_memWriteBlock hw)).trans (.of_memWrite h)

theorem ServiceFrame.of_htifWrite {fd buf len : Nat} (h : htifWrite s fd buf len = .ok t) : ServiceFrame s t := by
  obtain ⟨-, file, -, h⟩ := htifWrite_ok h
  exact ((ServiceFrame.hostAnswered s).trans (.emitOutput _ _)).trans (.of_memWrite h)

theorem endCommand_ok {e : Except Fault State} (h : endCommand e = .ok (st, t)) :
    ∃ u, e = .ok u ∧ clearTohost u = .ok t ∧ st = .continue := by
  unfold endCommand at h
  split at h
  · cases h
  · rename_i u
    split at h
    · cases h
    · rename_i w hw
      cases h
      exact ⟨u, rfl, hw, rfl⟩

/-- Serving a command: an EXIT changes nothing; a READ or WRITE is done, then tohost is cleared (R167). -/
theorem serveCommand_ok {c : Command} (h : serveCommand s c = .ok (st, t)) :
    (c.id = sysExit ∧ st = .exit (BitVec.ofNat 32 c.a0) ∧ t = s) ∨
    (c.id = sysRead ∧ st = .continue ∧ ∃ u, htifRead s c.a0 c.a1 c.a2 = .ok u ∧ clearTohost u = .ok t) ∨
    (c.id = sysWrite ∧ st = .continue ∧ ∃ u, htifWrite s c.a0 c.a1 c.a2 = .ok u ∧ clearTohost u = .ok t) := by
  unfold serveCommand at h
  split at h
  · rename_i hid; cases h; exact .inl ⟨hid, rfl, rfl⟩
  · split at h
    · rename_i hid
      obtain ⟨u, hu, hc, rfl⟩ := endCommand_ok h
      exact .inr (.inl ⟨hid, rfl, u, hu, hc⟩)
    · split at h
      · rename_i hid
        obtain ⟨u, hu, hc, rfl⟩ := endCommand_ok h
        exact .inr (.inr ⟨hid, rfl, u, hu, hc⟩)
      · cases h

theorem ServiceFrame.of_serveCommand {c : Command} (h : serveCommand s c = .ok (st, t)) : ServiceFrame s t := by
  obtain ⟨-, -, rfl⟩ | ⟨-, -, u, hu, hc⟩ | ⟨-, -, u, hu, hc⟩ := serveCommand_ok h
  · exact .refl _
  · exact (ServiceFrame.of_htifRead hu).trans (.of_memWrite hc)
  · exact (ServiceFrame.of_htifWrite hu).trans (.of_memWrite hc)

/-! ### The service -/

/-- Every way the service completes: no pending command, or a command block served (R167). -/
theorem htifService_ok (h : htifService s = .ok (st, t)) :
    (s.valueAt tohostAddr 8 = 0 ∧ st = .continue ∧ t = s) ∨
    (s.valueAt tohostAddr 8 ≠ 0 ∧ ∃ c, readCommandBlock s (s.valueAt tohostAddr 8) = .ok c ∧
      serveCommand s c = .ok (st, t)) := by
  unfold htifService at h
  split at h
  · cases h
  · rename_i p hp
    obtain ⟨-, -, rfl⟩ := memRead_ok_iff.1 hp
    split at h
    · rename_i h0; cases h; exact .inl ⟨h0, rfl, rfl⟩
    · rename_i h0
      split at h
      · cases h
      · rename_i c hc
        exact .inr ⟨h0, c, hc, h⟩

theorem ServiceFrame.of_htifService (h : htifService s = .ok (st, t)) : ServiceFrame s t := by
  obtain ⟨-, -, rfl⟩ | ⟨-, c, -, hc⟩ := htifService_ok h
  · exact .refl _
  · exact .of_serveCommand hc

/-- What an admissible configuration says (20_memory.md R41). -/
theorem Config.valid_iff (c : Config) : c.valid = true ↔
    c.memBase % 8 = 0 ∧ c.memBase + c.memSize ≤ 2 ^ 32 ∧ c.memBase ≤ 0x2000 ∧ 0x2010 ≤ c.memBase + c.memSize := by
  simp only [Config.valid, Bool.and_eq_true, decide_eq_true_eq, and_assoc]
  exact Iff.rfl

/-- tohost and fromhost lie inside the region (R41 (c)). -/
theorem Config.inRange_tohost {c : Config} (h : c.valid = true) : c.InRange tohostAddr 8 := by
  have := (Config.valid_iff c).1 h
  simp only [Config.InRange, tohostAddr]; omega

theorem Config.inRange_fromhost {c : Config} (h : c.valid = true) : c.InRange fromhostAddr 8 := by
  have := (Config.valid_iff c).1 h
  simp only [Config.InRange, fromhostAddr]; omega

/-- With no pending command the service does nothing (R167). -/
theorem htifService_idle (hc : s.cfg.valid = true) (h : s.valueAt tohostAddr 8 = 0) :
    htifService s = .ok (.continue, s) := by
  rw [htifService, memRead_eq_ok (by decide) (Config.inRange_tohost hc)]
  simp [h]

/-- With a command pending the service serves the block tohost points to (R167, R168). -/
theorem htifService_pending (hc : s.cfg.valid = true) (h : s.valueAt tohostAddr 8 ≠ 0) :
    htifService s =
      match readCommandBlock s (s.valueAt tohostAddr 8) with
      | .error k => .error k
      | .ok c => serveCommand s c := by
  rw [htifService, memRead_eq_ok (by decide) (Config.inRange_tohost hc)]
  refine (if_neg h).trans ?_
  cases readCommandBlock s (s.valueAt tohostAddr 8) <;> rfl

/-- `count` aligned doublewords of the region are read as they stand. -/
theorem readDoublewords_eq_ok {p count : Nat} (ha : p % 8 = 0) (hr : s.cfg.InRange p (8 * count)) :
    readDoublewords s p count = .ok ((List.range count).map fun j => s.valueAt (p + 8 * j) 8) := by
  induction count generalizing p with
  | zero => rfl
  | succ count ih =>
    simp only [Config.InRange] at hr
    rw [readDoublewords, memRead_eq_ok ha ⟨hr.1, by omega⟩, ih (p := p + 8) (by omega) ⟨by omega, by omega⟩,
      List.range_succ_eq_map]
    simp [Function.comp_def, Nat.mul_add, Nat.add_assoc, Nat.add_comm 8]

/-- A misaligned block pointer is the error of its first doubleword. -/
theorem readDoublewords_misaligned {p count : Nat} (ha : p % 8 ≠ 0) :
    readDoublewords s p (count + 1) = .error (.misalignedAccess p 8) := by
  rw [readDoublewords, memRead_misaligned ha]

theorem readCommandBlock_misaligned {p : Nat} (ha : p % 8 ≠ 0) :
    readCommandBlock s p = .error (.misalignedAccess p 8) := by
  simp [readCommandBlock, readDoublewords_misaligned ha]

/-- An aligned run of doublewords that leaves the region is the error of the first one outside. -/
theorem readDoublewords_outOfRange {p count : Nat} (ha : p % 8 = 0) (hc : 0 < count)
    (hr : ¬ s.cfg.InRange p (8 * count)) : ∃ k < count, readDoublewords s p count = .error (.outOfRange (p + 8 * k) 8) := by
  induction count generalizing p with
  | zero => omega
  | succ n ih =>
    by_cases h8 : s.cfg.InRange p 8
    · simp only [Config.InRange] at hr h8
      have hn : 0 < n := by rcases n with _ | n <;> omega
      obtain ⟨k, hk, e⟩ := ih (p := p + 8) (by omega) hn (by simp only [Config.InRange]; omega)
      refine ⟨k + 1, by omega, ?_⟩
      rw [readDoublewords, memRead_eq_ok ha h8]
      simp only [e, Nat.mul_add, Nat.add_assoc, Nat.add_comm 8]
    · exact ⟨0, by omega, by rw [readDoublewords, memRead_outOfRange ha h8]; rfl⟩

theorem readCommandBlock_outOfRange {p : Nat} (ha : p % 8 = 0) (hr : ¬ s.cfg.InRange p 64) :
    ∃ k < 8, readCommandBlock s p = .error (.outOfRange (p + 8 * k) 8) := by
  obtain ⟨k, hk, e⟩ := readDoublewords_outOfRange (s := s) (count := 8) ha (by decide) hr
  exact ⟨k, hk, by rw [readCommandBlock, e]⟩

/-- A block pointer that is a multiple of 8 with 64 bytes in the region gives its command (R168). -/
theorem readCommandBlock_eq_ok {p : Nat} (ha : p % 8 = 0) (hr : s.cfg.InRange p 64) :
    readCommandBlock s p =
      .ok ⟨s.valueAt p 8, s.valueAt (p + 8) 8, s.valueAt (p + 16) 8, s.valueAt (p + 24) 8⟩ := by
  have hr' : s.cfg.InRange p (8 * 8) := hr
  simp only [readCommandBlock, readDoublewords_eq_ok ha hr', List.range_succ_eq_map, List.range_zero,
    List.map_cons, List.map_nil, List.getD_cons_zero, List.getD_cons_succ, Nat.succ_eq_add_one]
  norm_num

/-- A command block in place is served (R167, R168). -/
theorem htifService_commands {id a0 a1 a2 : Nat} (hc : s.cfg.valid = true) (h : s.Commands id a0 a1 a2) :
    htifService s = serveCommand s ⟨id, a0, a1, a2⟩ := by
  rw [htifService_pending hc h.pending, readCommandBlock_eq_ok h.aligned h.inRange, h.id, h.a0, h.a1, h.a2]

/-! ### The end of a command -/

theorem writeFromhost_eq_ok (hc : s.cfg.valid = true) (r : Option Nat) :
    writeFromhost s r = .ok (s.withMem (s.mem.writeBytes fromhostAddr (leBytes 8 (countDoubleword r)))) :=
  memWrite_eq_ok (by decide) (Config.inRange_fromhost hc)

theorem clearTohost_eq_ok (hc : s.cfg.valid = true) :
    clearTohost s = .ok (s.withMem (s.mem.writeBytes tohostAddr (leBytes 8 0))) :=
  memWrite_eq_ok (by decide) (Config.inRange_tohost hc)

/-- `fromhost <- r`, then `tohost <- 0`: both doublewords hold what they should, and nothing else changes (R171 to
R173). -/
theorem endCommand_writeFromhost (hc : s.cfg.valid = true) {r : Option Nat} (hr : countDoubleword r < 2 ^ 64) :
    ∃ t, endCommand (writeFromhost s r) = .ok (.continue, t) ∧ t.valueAt tohostAddr 8 = 0 ∧
      t.valueAt fromhostAddr 8 = countDoubleword r ∧ (∀ a, a < 0x2000 ∨ 0x2010 ≤ a → t.byte a = s.byte a) ∧
      t.hostCalls = s.hostCalls ∧ t.hostIn = s.hostIn ∧ t.hostOut = s.hostOut := by
  rw [writeFromhost_eq_ok hc, endCommand, clearTohost_eq_ok (by exact hc)]
  refine ⟨_, rfl, ?_, ?_, fun a ha => ?_, rfl, rfl, rfl⟩
  · rw [valueAt_writeBytes_same]; rfl
  · rw [valueAt_writeBytes_outside (by right; simp [tohostAddr, fromhostAddr]), valueAt_writeBytes_same]
    exact Nat.mod_eq_of_lt hr
  · rw [State.byte_withMem, Memory.read_writeBytes_outside _ _ _ (by simp [tohostAddr]; omega), State.withMem_mem,
      Memory.read_writeBytes_outside _ _ _ (by simp [fromhostAddr]; omega)]
    rfl

/-- The count of a call whose buffer is a buffer of the region fits a doubleword. -/
theorem countDoubleword_bounded_lt {buf len : Nat} (a : HostAnswer) (hc : s.cfg.valid = true)
    (h : len = 0 ∨ s.cfg.InRange buf len) : countDoubleword (a.bounded len) < 2 ^ 64 := by
  cases e : a.bounded len with
  | none => decide
  | some r =>
    have hle := HostAnswer.bounded_le e
    have hv := (Config.valid_iff _).1 hc
    simp only [Config.InRange] at h
    simp only [countDoubleword]
    omega

end Sys2Proof.Machine
end

