-- ==== Sys2Proof/Laws/Launch.lean ====
section
/-! SUPPORT. The reset sequence: everything a launch that starts a run has done, and what the copied segments leave in
memory (70_reset_and_hazards.md R185 to R188). -/

namespace Sys2Proof.Machine

variable {c : Config} {initMem : List Host.Cell} {e : Executable} {t : State}

/-- A launch that answers a state had an admissible configuration and a loadable executable with a `_start`. -/
theorem launch_next (h : launch c initMem e = .next t) : c.valid = true ∧ e.valid c = true ∧ ∃ entry,
    e.start = some entry ∧ t = State.constructed c (loadSegments (initialMemory c initMem) e.segments) entry := by
  unfold launch at h
  split at h
  · split at h
    · split at h
      · rename_i hc he _ entry hs; cases h; exact ⟨hc, he, entry, hs, rfl⟩
      · cases h
    · cases h
  · cases h

theorem loadSegments_append (m : Memory) (a b : List Segment) :
    loadSegments m (a ++ b) = loadSegments (loadSegments m a) b := by
  simp [loadSegments]

/-- Cells written at other addresses leave a byte alone. -/
theorem read_foldl_write_outside {a : Nat} (cells : List Host.Cell) (m : Memory) (h : ∀ d ∈ cells, d.1 ≠ a) :
    (cells.foldl (fun m d => m.write d.1 d.2) m).read a = m.read a := by
  induction cells generalizing m with
  | nil => rfl
  | cons d cells ih =>
    rw [List.foldl_cons, ih _ fun x hx => h x (List.mem_cons_of_mem _ hx),
      Memory.read_write_other _ _ (Ne.symm (h d (by simp)))]

/-- A byte of the region has the value of the last cell of INIT_MEM for it. -/
theorem read_initialMemory {a : Nat} {b : Byte} {before after : List Host.Cell} (hr : c.InRange a 1)
    (h : ∀ d ∈ after, d.1 ≠ a) : (initialMemory c (before ++ (a, b) :: after)).read a = b := by
  have hf : (before ++ (a, b) :: after).filter (fun d => decide (c.InRange d.1 1)) =
      before.filter (fun d => decide (c.InRange d.1 1)) ++
        (a, b) :: after.filter fun d => decide (c.InRange d.1 1) := by
    rw [List.filter_append, List.filter_cons, if_pos (decide_eq_true hr)]
  rw [initialMemory, hf, List.foldl_append, List.foldl_cons,
    read_foldl_write_outside _ _ fun d hd => h d (List.mem_of_mem_filter hd), Memory.read_write_same]

/-- A byte that no segment covers is as before. -/
theorem read_loadSegments_outside {a : Nat} (segments : List Segment) (m : Memory)
    (h : ∀ g ∈ segments, a < g.paddr ∨ g.paddr + g.bytes.length ≤ a) : (loadSegments m segments).read a = m.read a := by
  induction segments generalizing m with
  | nil => rfl
  | cons g gs ih =>
    show (loadSegments (m.writeBytes g.paddr g.bytes) gs).read a = _
    rw [ih _ fun x hx => h x (List.mem_cons_of_mem _ hx), Memory.read_writeBytes_outside _ _ _ (h g (by simp))]

end Sys2Proof.Machine
end

