-- ==== Sys2Proof/Laws/Meaning.lean ====
section
/-! SUPPORT. The shared forms of meanings, each with everything it can do; and what `exec` can do at all. -/

namespace Sys2Proof.Machine

variable {s t : State} {rd : Reg} {v w ea target : Word} {n : Nat} {ext : Word → Word} {k : Fault}

theorem SameOutside.refl (s : State) : SameOutside s s := ⟨rfl, rfl, rfl, rfl, rfl, rfl, rfl, rfl, rfl⟩

/-! ### Comparisons and the shift amount -/

theorem lessSigned_iff (a b : Word) : lessSigned a b = true ↔ a.toInt < b.toInt := by simp [lessSigned, BitVec.slt]

theorem lessUnsigned_iff (a b : Word) : lessUnsigned a b = true ↔ a.toNat < b.toNat := by
  simp [lessUnsigned, BitVec.ult]

theorem shiftAmount_eq (s : State) (r : Reg) : s.shiftAmount r = (s.x r).toNat % 32 := by
  simp only [State.shiftAmount, BitVec.toNat_and]
  exact Nat.and_two_pow_sub_one_eq_mod _ 5

/-! ### writeResult -/

theorem writeResult_eq : writeResult rd v s = .next (s.setX rd v) := rfl

/-- `x[rd] <- v` writes that register and nothing else. -/
theorem setX_writesOnlyReg (s : State) (rd : Reg) (v : Word) : WritesOnlyReg rd v s (s.setX rd v) where
  reg := s.setX_regWritten rd v
  pc := ⟨rfl, rfl⟩
  memory := fun _ => rfl
  rest := ⟨rfl, rfl, rfl, rfl, rfl, rfl, rfl, rfl, rfl⟩

/-! ### loadInto -/

theorem loadInto_eq_next (ha : ea.toNat % n = 0) (hr : s.cfg.InRange ea.toNat n) :
    loadInto rd n ext ea s = .next (s.setX rd (ext (BitVec.ofNat 32 (s.valueAt ea.toNat n)))) := by
  rw [loadInto, memRead_eq_ok ha hr]; rfl

theorem loadInto_misaligned (ha : ea.toNat % n ≠ 0) :
    loadInto rd n ext ea s = .fault (.misalignedAccess ea.toNat n) := by
  rw [loadInto, memRead_misaligned ha]; rfl

theorem loadInto_outOfRange (ha : ea.toNat % n = 0) (hr : ¬ s.cfg.InRange ea.toNat n) :
    loadInto rd n ext ea s = .fault (.outOfRange ea.toNat n) := by
  rw [loadInto, memRead_outOfRange ha hr]; rfl

/-- Everything a load can do. -/
theorem loadInto_cases : (∃ u, loadInto rd n ext ea s = .next (s.setX rd u)) ∨
    loadInto rd n ext ea s = .fault (.misalignedAccess ea.toNat n) ∨
    loadInto rd n ext ea s = .fault (.outOfRange ea.toNat n) := by
  by_cases ha : ea.toNat % n = 0
  · by_cases hr : s.cfg.InRange ea.toNat n
    · exact .inl ⟨_, loadInto_eq_next ha hr⟩
    · exact .inr (.inr (loadInto_outOfRange ha hr))
  · exact .inr (.inl (loadInto_misaligned ha))

/-- A load that answers a next state was aligned and in range, and wrote rd alone. -/
theorem loadInto_next (h : loadInto rd n ext ea s = .next t) : ea.toNat % n = 0 ∧ s.cfg.InRange ea.toNat n ∧
    t = s.setX rd (ext (BitVec.ofNat 32 (s.valueAt ea.toNat n))) := by
  by_cases ha : ea.toNat % n = 0
  · by_cases hr : s.cfg.InRange ea.toNat n
    · rw [loadInto_eq_next ha hr] at h; cases h; exact ⟨ha, hr, rfl⟩
    · rw [loadInto_outOfRange ha hr] at h; cases h
  · rw [loadInto_misaligned ha] at h; cases h

/-! ### storeFrom -/

theorem storeFrom_eq_next (ha : ea.toNat % n = 0) (hr : s.cfg.InRange ea.toNat n) :
    storeFrom n ea w s = .next (s.withMem (s.mem.writeBytes ea.toNat (leBytes n w.toNat))) := by
  rw [storeFrom, memWrite_eq_ok ha hr]

theorem storeFrom_misaligned (ha : ea.toNat % n ≠ 0) :
    storeFrom n ea w s = .fault (.misalignedAccess ea.toNat n) := by
  rw [storeFrom, memWrite_misaligned ha]; rfl

theorem storeFrom_outOfRange (ha : ea.toNat % n = 0) (hr : ¬ s.cfg.InRange ea.toNat n) :
    storeFrom n ea w s = .fault (.outOfRange ea.toNat n) := by
  rw [storeFrom, memWrite_outOfRange ha hr]; rfl

/-- The whole effect of a write of `n` bytes. -/
theorem writeBytes_storesOnly (s : State) (a n v : Nat) :
    StoresOnly a n v s (s.withMem (s.mem.writeBytes a (leBytes n v))) where
  stored := fun _ h => byte_writeBytes_inside h
  memory := sameMemoryOutside_writeBytes
  regs := fun _ => rfl
  pc := ⟨rfl, rfl⟩
  rest := ⟨rfl, rfl, rfl, rfl, rfl, rfl, rfl, rfl, rfl⟩

/-- Everything a store can do. -/
theorem storeFrom_cases :
    (s.cfg.InRange ea.toNat n ∧
      storeFrom n ea w s = .next (s.withMem (s.mem.writeBytes ea.toNat (leBytes n w.toNat)))) ∨
    storeFrom n ea w s = .fault (.misalignedAccess ea.toNat n) ∨
    storeFrom n ea w s = .fault (.outOfRange ea.toNat n) := by
  by_cases ha : ea.toNat % n = 0
  · by_cases hr : s.cfg.InRange ea.toNat n
    · exact .inl ⟨hr, storeFrom_eq_next ha hr⟩
    · exact .inr (.inr (storeFrom_outOfRange ha hr))
  · exact .inr (.inl (storeFrom_misaligned ha))

/-- A store that answers a next state was aligned and in range, and wrote its bytes alone. -/
theorem storeFrom_next (h : storeFrom n ea w s = .next t) : ea.toNat % n = 0 ∧ s.cfg.InRange ea.toNat n ∧
    t = s.withMem (s.mem.writeBytes ea.toNat (leBytes n w.toNat)) := by
  by_cases ha : ea.toNat % n = 0
  · by_cases hr : s.cfg.InRange ea.toNat n
    · rw [storeFrom_eq_next ha hr] at h; cases h; exact ⟨ha, hr, rfl⟩
    · rw [storeFrom_outOfRange ha hr] at h; cases h
  · rw [storeFrom_misaligned ha] at h; cases h

/-! ### branchIf, linkAndJump -/

theorem branchIf_taken {c : Bool} {offset : BitVec 13} (h : c = true) :
    branchIf c offset s = .next (s.writePc (s.branchTarget offset)) := by simp [branchIf, h]

theorem branchIf_not_taken {c : Bool} {offset : BitVec 13} (h : c = false) : branchIf c offset s = .next s := by
  simp [branchIf, h]

/-- Everything a branch can do. -/
theorem branchIf_next {c : Bool} {offset : BitVec 13} (h : branchIf c offset s = .next t) :
    (c = true ∧ t = s.writePc (s.branchTarget offset)) ∨ (c = false ∧ t = s) := by
  cases c
  · cases h; exact .inr ⟨rfl, rfl⟩
  · cases h; exact .inl ⟨rfl, rfl⟩

theorem writePc_writesOnlyPc (s : State) (target : Word) : WritesOnlyPc target s (s.writePc target) where
  pc := rfl
  flag := rfl
  regs := fun _ => rfl
  memory := fun _ => rfl
  rest := ⟨rfl, rfl, rfl, rfl, rfl, rfl, rfl, rfl, rfl⟩

theorem linkAndJump_eq : linkAndJump rd target s = .next ((s.setX rd s.linkValue).writePc target) := rfl

/-! ### exec -/

/-- The next states an instruction can lead to, with the part of the state each may write (40_step.md R101: "at most
one register, at most one memory location, at most the pc"). -/
inductive ExecNext (i : Instr) (s : State) : State → Prop where
  | reg (rd : Reg) (v : Word) (h : i.rd? = some rd) : ExecNext i s (s.setX rd v)
  | link (rd : Reg) (target : Word) (h : i.rd? = some rd) : ExecNext i s ((s.setX rd s.linkValue).writePc target)
  | branch (target : Word) (h : i.rd? = none) : ExecNext i s (s.writePc target)
  | store (a : Nat) (bs : List Byte) (h : i.rd? = none) (hr : s.cfg.InRange a bs.length) :
      ExecNext i s (s.withMem (s.mem.writeBytes a bs))
  | same (h : i.rd? = none) : ExecNext i s s

/-- What `exec` can do at all: a next state of `ExecNext`, or one of the two access errors. -/
inductive ExecOutcome (i : Instr) (s : State) : Host.Outcome State Fault Refusal → Prop where
  | next (t : State) (h : ExecNext i s t) : ExecOutcome i s (.next t)
  | misaligned (a n : Nat) : ExecOutcome i s (.fault (.misalignedAccess a n))
  | outOfRange (a n : Nat) : ExecOutcome i s (.fault (.outOfRange a n))

theorem ExecOutcome.writeResult {i : Instr} (h : i.rd? = some rd) : ExecOutcome i s (writeResult rd v s) :=
  .next _ (.reg rd v h)

theorem ExecOutcome.linkAndJump {i : Instr} (h : i.rd? = some rd) : ExecOutcome i s (linkAndJump rd target s) :=
  .next _ (.link rd target h)

theorem ExecOutcome.branchIf {i : Instr} (h : i.rd? = none) (c : Bool) (offset : BitVec 13) :
    ExecOutcome i s (branchIf c offset s) := by
  cases c
  · exact .next _ (.same h)
  · exact .next _ (.branch _ h)

theorem ExecOutcome.loadInto {i : Instr} (h : i.rd? = some rd) : ExecOutcome i s (loadInto rd n ext ea s) := by
  obtain ⟨u, e⟩ | e | e := loadInto_cases (s := s) (rd := rd) (n := n) (ext := ext) (ea := ea) <;> rw [e]
  · exact .next _ (.reg rd u h)
  · exact .misaligned _ _
  · exact .outOfRange _ _

theorem ExecOutcome.storeFrom {i : Instr} (h : i.rd? = none) : ExecOutcome i s (storeFrom n ea w s) := by
  obtain ⟨hr, e⟩ | e | e := storeFrom_cases (s := s) (n := n) (ea := ea) (w := w) <;> rw [e]
  · exact .next _ (.store _ _ h (by simpa using hr))
  · exact .misaligned _ _
  · exact .outOfRange _ _

/-- Said once for every instruction: `exec` answers within `ExecOutcome`. -/
theorem exec_outcome (i : Instr) (s : State) : ExecOutcome i s (exec i s) := by
  cases i <;>
    first
    | exact .writeResult rfl
    | exact .linkAndJump rfl
    | exact .branchIf rfl _ _
    | exact .loadInto rfl
    | exact .storeFrom rfl
    | exact .next _ (.same rfl)

/-- The next state of an instruction, by cases. -/
theorem execNext_of_exec {i : Instr} (h : exec i s = .next t) : ExecNext i s t := by
  have := exec_outcome i s
  rw [h] at this
  cases this
  assumption

/-- No instruction is refused. -/
theorem exec_ne_refused (i : Instr) (s : State) (r : Refusal) : exec i s ≠ .refused r := by
  intro h
  have := exec_outcome i s
  rw [h] at this
  cases this

/-- No instruction writes what the step and the host own. -/
theorem ExecNext.sameOutside {i : Instr} (h : ExecNext i s t) : SameOutside s t := by
  cases h <;> exact ⟨rfl, rfl, rfl, rfl, rfl, rfl, rfl, rfl, rfl⟩

/-- An instruction keeps memory canonical and inside the region. -/
theorem ExecNext.memoryInv {i : Instr} (h : ExecNext i s t) (hs : s.MemoryInv) : t.MemoryInv := by
  cases h with
  | store a bs _ hr => exact hs.writeBytes (.inr hr)
  | _ => exact hs

/-- An instruction leaves the storage of x0 alone. -/
theorem ExecNext.zero {i : Instr} (h : ExecNext i s t) : t.regs[0] = s.regs[0] := by
  cases h with
  | reg rd v _ => exact writeRegs_zero _ _ _
  | link rd target _ => exact writeRegs_zero _ _ _
  | _ => rfl

end Sys2Proof.Machine
end

