-- ==== Sys2Proof/Laws/PerInstr.lean ====
section
/-! SUPPORT. Facts about every instruction as syntax, one lemma for each constructor. -/

namespace Sys2Proof.Laws.EncodeBearsRow

/-- The word of an instruction matches the row of the opcode table that bears the instruction's mnemonic. -/
def Statement (i : Instr) : Prop := ∃ row ∈ opcodeTable, row.mnemonic = i.mnemonic ∧ row.holds (encode i) = true

theorem lui (rd : Reg) (imm20 : BitVec 20) : Statement (.lui rd imm20) :=
  ⟨⟨"LUI", 0x00000037, 0x0000007F⟩, by decide, rfl, by
    refine decide_eq_true ((and_mask_opcode _).trans ?_); simp [encode]⟩

theorem auipc (rd : Reg) (imm20 : BitVec 20) : Statement (.auipc rd imm20) :=
  ⟨⟨"AUIPC", 0x00000017, 0x0000007F⟩, by decide, rfl, by
    refine decide_eq_true ((and_mask_opcode _).trans ?_); simp [encode]⟩

theorem jal (rd : Reg) (offset : BitVec 21) : Statement (.jal rd offset) :=
  ⟨⟨"JAL", 0x0000006F, 0x0000007F⟩, by decide, rfl, by
    refine decide_eq_true ((and_mask_opcode _).trans ?_); simp [encode]⟩

theorem jalr (rd : Reg) (rs1 : Reg) (imm : BitVec 12) : Statement (.jalr rd rs1 imm) :=
  ⟨⟨"JALR", 0x00000067, 0x0000007F⟩, by decide, rfl, by
    refine decide_eq_true ((and_mask_opcode _).trans ?_); simp [encode]⟩

theorem beq (rs1 : Reg) (rs2 : Reg) (offset : BitVec 13) : Statement (.beq rs1 rs2 offset) :=
  ⟨⟨"BEQ", 0x00000063, 0x0000707F⟩, by decide, rfl, by
    refine decide_eq_true ((and_mask_funct3 _).trans ?_); simp [encode]⟩

theorem bne (rs1 : Reg) (rs2 : Reg) (offset : BitVec 13) : Statement (.bne rs1 rs2 offset) :=
  ⟨⟨"BNE", 0x00001063, 0x0000707F⟩, by decide, rfl, by
    refine decide_eq_true ((and_mask_funct3 _).trans ?_); simp [encode]⟩

theorem blt (rs1 : Reg) (rs2 : Reg) (offset : BitVec 13) : Statement (.blt rs1 rs2 offset) :=
  ⟨⟨"BLT", 0x00004063, 0x0000707F⟩, by decide, rfl, by
    refine decide_eq_true ((and_mask_funct3 _).trans ?_); simp [encode]⟩

theorem bge (rs1 : Reg) (rs2 : Reg) (offset : BitVec 13) : Statement (.bge rs1 rs2 offset) :=
  ⟨⟨"BGE", 0x00005063, 0x0000707F⟩, by decide, rfl, by
    refine decide_eq_true ((and_mask_funct3 _).trans ?_); simp [encode]⟩

theorem bltu (rs1 : Reg) (rs2 : Reg) (offset : BitVec 13) : Statement (.bltu rs1 rs2 offset) :=
  ⟨⟨"BLTU", 0x00006063, 0x0000707F⟩, by decide, rfl, by
    refine decide_eq_true ((and_mask_funct3 _).trans ?_); simp [encode]⟩

theorem bgeu (rs1 : Reg) (rs2 : Reg) (offset : BitVec 13) : Statement (.bgeu rs1 rs2 offset) :=
  ⟨⟨"BGEU", 0x00007063, 0x0000707F⟩, by decide, rfl, by
    refine decide_eq_true ((and_mask_funct3 _).trans ?_); simp [encode]⟩

theorem lb (rd : Reg) (rs1 : Reg) (imm : BitVec 12) : Statement (.lb rd rs1 imm) :=
  ⟨⟨"LB", 0x00000003, 0x0000707F⟩, by decide, rfl, by
    refine decide_eq_true ((and_mask_funct3 _).trans ?_); simp [encode]⟩

theorem lh (rd : Reg) (rs1 : Reg) (imm : BitVec 12) : Statement (.lh rd rs1 imm) :=
  ⟨⟨"LH", 0x00001003, 0x0000707F⟩, by decide, rfl, by
    refine decide_eq_true ((and_mask_funct3 _).trans ?_); simp [encode]⟩

theorem lw (rd : Reg) (rs1 : Reg) (imm : BitVec 12) : Statement (.lw rd rs1 imm) :=
  ⟨⟨"LW", 0x00002003, 0x0000707F⟩, by decide, rfl, by
    refine decide_eq_true ((and_mask_funct3 _).trans ?_); simp [encode]⟩

theorem lbu (rd : Reg) (rs1 : Reg) (imm : BitVec 12) : Statement (.lbu rd rs1 imm) :=
  ⟨⟨"LBU", 0x00004003, 0x0000707F⟩, by decide, rfl, by
    refine decide_eq_true ((and_mask_funct3 _).trans ?_); simp [encode]⟩

theorem lhu (rd : Reg) (rs1 : Reg) (imm : BitVec 12) : Statement (.lhu rd rs1 imm) :=
  ⟨⟨"LHU", 0x00005003, 0x0000707F⟩, by decide, rfl, by
    refine decide_eq_true ((and_mask_funct3 _).trans ?_); simp [encode]⟩

theorem sb (rs2 : Reg) (rs1 : Reg) (imm : BitVec 12) : Statement (.sb rs2 rs1 imm) :=
  ⟨⟨"SB", 0x00000023, 0x0000707F⟩, by decide, rfl, by
    refine decide_eq_true ((and_mask_funct3 _).trans ?_); simp [encode]⟩

theorem sh (rs2 : Reg) (rs1 : Reg) (imm : BitVec 12) : Statement (.sh rs2 rs1 imm) :=
  ⟨⟨"SH", 0x00001023, 0x0000707F⟩, by decide, rfl, by
    refine decide_eq_true ((and_mask_funct3 _).trans ?_); simp [encode]⟩

theorem sw (rs2 : Reg) (rs1 : Reg) (imm : BitVec 12) : Statement (.sw rs2 rs1 imm) :=
  ⟨⟨"SW", 0x00002023, 0x0000707F⟩, by decide, rfl, by
    refine decide_eq_true ((and_mask_funct3 _).trans ?_); simp [encode]⟩

theorem addi (rd : Reg) (rs1 : Reg) (imm : BitVec 12) : Statement (.addi rd rs1 imm) :=
  ⟨⟨"ADDI", 0x00000013, 0x0000707F⟩, by decide, rfl, by
    refine decide_eq_true ((and_mask_funct3 _).trans ?_); simp [encode]⟩

theorem slti (rd : Reg) (rs1 : Reg) (imm : BitVec 12) : Statement (.slti rd rs1 imm) :=
  ⟨⟨"SLTI", 0x00002013, 0x0000707F⟩, by decide, rfl, by
    refine decide_eq_true ((and_mask_funct3 _).trans ?_); simp [encode]⟩

theorem sltiu (rd : Reg) (rs1 : Reg) (imm : BitVec 12) : Statement (.sltiu rd rs1 imm) :=
  ⟨⟨"SLTIU", 0x00003013, 0x0000707F⟩, by decide, rfl, by
    refine decide_eq_true ((and_mask_funct3 _).trans ?_); simp [encode]⟩

theorem xori (rd : Reg) (rs1 : Reg) (imm : BitVec 12) : Statement (.xori rd rs1 imm) :=
  ⟨⟨"XORI", 0x00004013, 0x0000707F⟩, by decide, rfl, by
    refine decide_eq_true ((and_mask_funct3 _).trans ?_); simp [encode]⟩

theorem ori (rd : Reg) (rs1 : Reg) (imm : BitVec 12) : Statement (.ori rd rs1 imm) :=
  ⟨⟨"ORI", 0x00006013, 0x0000707F⟩, by decide, rfl, by
    refine decide_eq_true ((and_mask_funct3 _).trans ?_); simp [encode]⟩

theorem andi (rd : Reg) (rs1 : Reg) (imm : BitVec 12) : Statement (.andi rd rs1 imm) :=
  ⟨⟨"ANDI", 0x00007013, 0x0000707F⟩, by decide, rfl, by
    refine decide_eq_true ((and_mask_funct3 _).trans ?_); simp [encode]⟩

theorem slli (rd : Reg) (rs1 : Reg) (shamt : BitVec 5) : Statement (.slli rd rs1 shamt) :=
  ⟨⟨"SLLI", 0x00001013, 0xFE00707F⟩, by decide, rfl, by
    refine decide_eq_true ((and_mask_funct7 _).trans ?_); simp [encode]⟩

theorem srli (rd : Reg) (rs1 : Reg) (shamt : BitVec 5) : Statement (.srli rd rs1 shamt) :=
  ⟨⟨"SRLI", 0x00005013, 0xFE00707F⟩, by decide, rfl, by
    refine decide_eq_true ((and_mask_funct7 _).trans ?_); simp [encode]⟩

theorem srai (rd : Reg) (rs1 : Reg) (shamt : BitVec 5) : Statement (.srai rd rs1 shamt) :=
  ⟨⟨"SRAI", 0x40005013, 0xFE00707F⟩, by decide, rfl, by
    refine decide_eq_true ((and_mask_funct7 _).trans ?_); simp [encode]⟩

theorem add (rd : Reg) (rs1 : Reg) (rs2 : Reg) : Statement (.add rd rs1 rs2) :=
  ⟨⟨"ADD", 0x00000033, 0xFE00707F⟩, by decide, rfl, by
    refine decide_eq_true ((and_mask_funct7 _).trans ?_); simp [encode]⟩

theorem sub (rd : Reg) (rs1 : Reg) (rs2 : Reg) : Statement (.sub rd rs1 rs2) :=
  ⟨⟨"SUB", 0x40000033, 0xFE00707F⟩, by decide, rfl, by
    refine decide_eq_true ((and_mask_funct7 _).trans ?_); simp [encode]⟩

theorem sll (rd : Reg) (rs1 : Reg) (rs2 : Reg) : Statement (.sll rd rs1 rs2) :=
  ⟨⟨"SLL", 0x00001033, 0xFE00707F⟩, by decide, rfl, by
    refine decide_eq_true ((and_mask_funct7 _).trans ?_); simp [encode]⟩

theorem slt (rd : Reg) (rs1 : Reg) (rs2 : Reg) : Statement (.slt rd rs1 rs2) :=
  ⟨⟨"SLT", 0x00002033, 0xFE00707F⟩, by decide, rfl, by
    refine decide_eq_true ((and_mask_funct7 _).trans ?_); simp [encode]⟩

theorem sltu (rd : Reg) (rs1 : Reg) (rs2 : Reg) : Statement (.sltu rd rs1 rs2) :=
  ⟨⟨"SLTU", 0x00003033, 0xFE00707F⟩, by decide, rfl, by
    refine decide_eq_true ((and_mask_funct7 _).trans ?_); simp [encode]⟩

theorem xor (rd : Reg) (rs1 : Reg) (rs2 : Reg) : Statement (.xor rd rs1 rs2) :=
  ⟨⟨"XOR", 0x00004033, 0xFE00707F⟩, by decide, rfl, by
    refine decide_eq_true ((and_mask_funct7 _).trans ?_); simp [encode]⟩

theorem srl (rd : Reg) (rs1 : Reg) (rs2 : Reg) : Statement (.srl rd rs1 rs2) :=
  ⟨⟨"SRL", 0x00005033, 0xFE00707F⟩, by decide, rfl, by
    refine decide_eq_true ((and_mask_funct7 _).trans ?_); simp [encode]⟩

theorem sra (rd : Reg) (rs1 : Reg) (rs2 : Reg) : Statement (.sra rd rs1 rs2) :=
  ⟨⟨"SRA", 0x40005033, 0xFE00707F⟩, by decide, rfl, by
    refine decide_eq_true ((and_mask_funct7 _).trans ?_); simp [encode]⟩

theorem or (rd : Reg) (rs1 : Reg) (rs2 : Reg) : Statement (.or rd rs1 rs2) :=
  ⟨⟨"OR", 0x00006033, 0xFE00707F⟩, by decide, rfl, by
    refine decide_eq_true ((and_mask_funct7 _).trans ?_); simp [encode]⟩

theorem and (rd : Reg) (rs1 : Reg) (rs2 : Reg) : Statement (.and rd rs1 rs2) :=
  ⟨⟨"AND", 0x00007033, 0xFE00707F⟩, by decide, rfl, by
    refine decide_eq_true ((and_mask_funct7 _).trans ?_); simp [encode]⟩

theorem fence : Statement (.fence) :=
  ⟨⟨"FENCE", 0x0000000F, 0x0000007F⟩, by decide, rfl, by decide⟩

theorem ecall : Statement (.ecall) :=
  ⟨⟨"ECALL", 0x00000073, 0xFFF0007F⟩, by decide, rfl, by decide⟩

theorem ebreak : Statement (.ebreak) :=
  ⟨⟨"EBREAK", 0x00100073, 0xFFF0007F⟩, by decide, rfl, by decide⟩

end Sys2Proof.Laws.EncodeBearsRow
end

