-- ==== Sys2Proof/Laws/Step.lean ====
section
/-! SUPPORT. The step: its parts, and everything a step that answers a next state can have done (40_step.md R97,
R107). -/

namespace Sys2Proof.Machine

variable {s t u : State} {i : Instr} {k : Fault}

/-- The trace line changes the trace alone. -/
theorem traceAfter_eq (i : Instr) (s t : State) :
    traceAfter i s t = { t with traceLog := if s.cfg.trace then t.traceLog ++ [traceLine i s t] else t.traceLog } := by
  unfold traceAfter
  split <;> simp [State.emitTrace, *]

@[simp] theorem traceAfter_cfg : (traceAfter i s t).cfg = t.cfg := by rw [traceAfter_eq]
@[simp] theorem traceAfter_regs : (traceAfter i s t).regs = t.regs := by rw [traceAfter_eq]
@[simp] theorem traceAfter_pc : (traceAfter i s t).pc = t.pc := by rw [traceAfter_eq]
@[simp] theorem traceAfter_branchTaken : (traceAfter i s t).branchTaken = t.branchTaken := by rw [traceAfter_eq]
@[simp] theorem traceAfter_cycleCount : (traceAfter i s t).cycleCount = t.cycleCount := by rw [traceAfter_eq]
@[simp] theorem traceAfter_fetchAddress : (traceAfter i s t).fetchAddress = t.fetchAddress := by rw [traceAfter_eq]
@[simp] theorem traceAfter_mem : (traceAfter i s t).mem = t.mem := by rw [traceAfter_eq]
@[simp] theorem traceAfter_fdTable : (traceAfter i s t).fdTable = t.fdTable := by rw [traceAfter_eq]
@[simp] theorem traceAfter_runStatus : (traceAfter i s t).runStatus = t.runStatus := by rw [traceAfter_eq]
@[simp] theorem traceAfter_hostOut : (traceAfter i s t).hostOut = t.hostOut := by rw [traceAfter_eq]
@[simp] theorem traceAfter_hostIn : (traceAfter i s t).hostIn = t.hostIn := by rw [traceAfter_eq]
@[simp] theorem traceAfter_hostCalls : (traceAfter i s t).hostCalls = t.hostCalls := by rw [traceAfter_eq]
@[simp] theorem traceAfter_x (r : Reg) : (traceAfter i s t).x r = t.x r := by rw [traceAfter_eq]; rfl
@[simp] theorem traceAfter_byte (a : Nat) : (traceAfter i s t).byte a = t.byte a := by rw [traceAfter_eq]; rfl
theorem traceAfter_valueAt (a n : Nat) : (traceAfter i s t).valueAt a n = t.valueAt a n :=
  State.valueAt_congr fun j _ => traceAfter_byte (a + j)

/-! ### Completing a step -/

theorem completeStep_eq_next (h : s.cycleCount ≠ BitVec.allOnes 64) :
    completeStep s = .next s.advancePc.countCycle := by
  rw [completeStep, if_neg h]

theorem completeStep_next (h : completeStep s = .next t) :
    s.cycleCount ≠ BitVec.allOnes 64 ∧ t = s.advancePc.countCycle := by
  unfold completeStep at h
  split at h
  · cases h
  · rename_i hc; cases h; exact ⟨hc, rfl⟩

/-- The two ways of finishing a step: an exit, which leaves at once, or the pc advance and the count. -/
theorem finishStep_next (h : finishStep s = .next t) :
    (∃ v u, htifService s = .ok (.exit v, u) ∧ t = u.withStatus (.exited v)) ∨
    (∃ u, htifService s = .ok (.continue, u) ∧ u.cycleCount ≠ BitVec.allOnes 64 ∧ t = u.advancePc.countCycle) := by
  unfold finishStep at h
  split at h
  · cases h
  · rename_i v u hu; cases h; exact .inl ⟨v, u, hu, rfl⟩
  · rename_i u hu
    obtain ⟨hc, rfl⟩ := completeStep_next h
    exact .inr ⟨u, hu, hc, rfl⟩

/-- A step of the core: the fetched instruction executed, its trace line, then the end of the step. -/
theorem coreStep_next (h : coreStep s = .next t) :
    ∃ i u, fetchInstr s.captureFetch = .ok i ∧ exec i s.captureFetch = .next u ∧
      finishStep (traceAfter i s.captureFetch u) = .next t := by
  unfold coreStep at h
  split at h
  · cases h
  · rename_i i hi
    split at h
    · rename_i u hu; exact ⟨i, u, hi, hu, h⟩
    · cases h
    · cases h

/-- The fetch of an aligned word of the region (R99), whatever `captureFetch` has done before. -/
theorem fetchWord_of_fetches {w : Word} (h : s.Fetches w) : fetchWord s.captureFetch = .ok w := by
  have hv : s.captureFetch.valueAt s.pc.toNat 4 = s.valueAt s.pc.toNat 4 := State.valueAt_congr fun _ _ => rfl
  rw [fetchWord, State.captureFetch_pc, memRead_eq_ok h.aligned (by exact h.inRange)]
  simp only [hv, h.word]

theorem fetchInstr_of_fetches {w : Word} (h : s.Fetches w) (hd : decode w = .ok i) :
    fetchInstr s.captureFetch = .ok i := by
  simp [fetchInstr, fetchWord_of_fetches h, hd]

/-- The trace line leaves a command block as it is. -/
theorem State.Commands.traceAfter {id a0 a1 a2 : Nat} (h : t.Commands id a0 a1 a2) :
    (traceAfter i s t).Commands id a0 a1 a2 := by
  obtain ⟨h1, h2, h3, h4, h5, h6, h7⟩ := h
  constructor <;> simp only [traceAfter_valueAt, traceAfter_cfg] <;> assumption

/-- A service that ends in an error ends the step in it. -/
theorem finishStep_error (h : htifService s = .error k) : finishStep s = .fault k := by
  rw [finishStep, h]; rfl

/-- A service that goes on, below the last count, is followed by the pc advance and the count. -/
theorem finishStep_continue (h : htifService s = .ok (.continue, u)) (hc : u.cycleCount ≠ BitVec.allOnes 64) :
    finishStep s = .next u.advancePc.countCycle := by
  rw [finishStep, h]; exact completeStep_eq_next hc

/-! ### One turn -/

/-- A running core below its limit makes a step. -/
theorem step_eq_coreStep (hc : s.cfg.valid = true) (hr : s.runStatus = .running) (hl : limitReached s = false) :
    step s = coreStep s := by
  simp [step, runTurn, hc, hr, hl]

/-- A step whose instruction completes goes on to the end of the step. -/
theorem coreStep_of_exec (hf : fetchInstr s.captureFetch = .ok i) (he : exec i s.captureFetch = .next t) :
    coreStep s = finishStep (traceAfter i s.captureFetch t) := by
  simp [coreStep, hf, he]

/-- Everything a step that answers a next state can have done: stopped at the limit, or made a step. -/
theorem step_next (h : step s = .next t) :
    s.cfg.valid = true ∧ s.runStatus = .running ∧
      ((limitReached s = true ∧ t = s.withStatus .stopped) ∨ (limitReached s = false ∧ coreStep s = .next t)) := by
  unfold step runTurn at h
  split at h
  · rename_i hc
    split at h
    · rename_i hr
      split at h
      · rename_i hl; cases h; exact ⟨hc, hr, .inl ⟨hl, rfl⟩⟩
      · rename_i hl; exact ⟨hc, hr, .inr ⟨by simpa using hl, h⟩⟩
    · cases h
    · cases h
    · cases h
  · cases h

end Sys2Proof.Machine
end

