-- ==== Sys2Proof/Tests/Slice0.lean ====
section
/-! SUPPORT. The model's own tests. Unless a comment says otherwise, an expected value is that of the vector of
95_test_vectors.md named beside it; none is the model's own answer. The last part shows, for every obligation with
hypotheses, a state and operands that meet them (`witness_<Name>`). -/

namespace Sys2Proof.Tests

open Sys2Proof Sys2Proof.Machine

/-! ### Well-formedness: each check refuses an ill-formed term (30_encoding.md R70, R72) -/

theorem test_odd_jal_is_ill_formed : ¬ (Instr.jal 1 7).WellFormed := by decide
theorem test_odd_beq_is_ill_formed : ¬ (Instr.beq 1 2 5).WellFormed := by decide
theorem test_odd_bne_is_ill_formed : ¬ (Instr.bne 1 2 1).WellFormed := by decide
theorem test_odd_blt_is_ill_formed : ¬ (Instr.blt 1 2 3).WellFormed := by decide
theorem test_odd_bge_is_ill_formed : ¬ (Instr.bge 1 2 4095).WellFormed := by decide
theorem test_odd_bltu_is_ill_formed : ¬ (Instr.bltu 1 2 (-1)).WellFormed := by decide
theorem test_odd_bgeu_is_ill_formed : ¬ (Instr.bgeu 1 2 9).WellFormed := by decide
theorem test_even_offsets_are_well_formed :
    (Instr.jal 1 6).WellFormed ∧ (Instr.beq 0 0 4094).WellFormed ∧ (Instr.bne 0 0 (-4096)).WellFormed := by decide

/-! ### Decoding: every constructor, from a written-out word -/

/-- U-1, U-4, J-2, J-7. -/
theorem test_decode_upper_and_jumps :
    decode 0x123450B7 = .ok (.lui 1 0x12345) ∧ decode 0x00001297 = .ok (.auipc 5 1) ∧
    decode 0xFF9FF06F = .ok (.jal 0 (-8)) ∧ decode 0xFFF302E7 = .ok (.jalr 5 6 (-1)) := by decide

/-- BR-1, BR-3, BR-4, BR-6, BR-5, BR-8; BR-11 and BR-12 for the ends of the offset's range. -/
theorem test_decode_branches :
    decode 0x00208863 = .ok (.beq 1 2 16) ∧ decode 0xFE209EE3 = .ok (.bne 1 2 (-4)) ∧
    decode 0x0020C463 = .ok (.blt 1 2 8) ∧ decode 0x0020D463 = .ok (.bge 1 2 8) ∧
    decode 0x0020E463 = .ok (.bltu 1 2 8) ∧ decode 0x0020F463 = .ok (.bgeu 1 2 8) ∧
    decode 0x80001063 = .ok (.bne 0 0 (-4096)) ∧ decode 0x7E000FE3 = .ok (.beq 0 0 4094) := by decide

/-- LD-2, LD-4, LD-8, LD-3, LD-5; ST-1, ST-2, ST-4. -/
theorem test_decode_loads_and_stores :
    decode 0x00308103 = .ok (.lb 2 1 3) ∧ decode 0x00209103 = .ok (.lh 2 1 2) ∧
    decode 0xFFC0A103 = .ok (.lw 2 1 (-4)) ∧ decode 0x0030C103 = .ok (.lbu 2 1 3) ∧
    decode 0x0020D103 = .ok (.lhu 2 1 2) ∧ decode 0x002080A3 = .ok (.sb 2 1 1) ∧
    decode 0x00209123 = .ok (.sh 2 1 2) ∧ decode 0xFE20AE23 = .ok (.sw 2 1 (-4)) := by decide

/-- OI-3, OI-5, OI-7, OI-10, OI-11, OI-12, OI-14, OI-15, OI-16. -/
theorem test_decode_op_imm :
    decode 0x80008093 = .ok (.addi 1 1 (-2048)) ∧ decode 0xFFF0A113 = .ok (.slti 2 1 (-1)) ∧
    decode 0xFFF0B113 = .ok (.sltiu 2 1 (-1)) ∧ decode 0xFFF0C113 = .ok (.xori 2 1 (-1)) ∧
    decode 0x8000E113 = .ok (.ori 2 1 (-2048)) ∧ decode 0x7FF0F113 = .ok (.andi 2 1 2047) ∧
    decode 0x01F09113 = .ok (.slli 2 1 31) ∧ decode 0x0010D113 = .ok (.srli 2 1 1) ∧
    decode 0x4010D113 = .ok (.srai 2 1 1) := by decide

/-- OP-1, OP-3, OP-5, OP-7, OP-8, OP-10 (rs2 = x1), OP-11, OP-13, OP-15, OP-16. -/
theorem test_decode_op :
    decode 0x002081B3 = .ok (.add 3 1 2) ∧ decode 0x402081B3 = .ok (.sub 3 1 2) ∧
    decode 0x002091B3 = .ok (.sll 3 1 2) ∧ decode 0x0020A1B3 = .ok (.slt 3 1 2) ∧
    decode 0x0020B1B3 = .ok (.sltu 3 1 2) ∧ decode 0x0010C1B3 = .ok (.xor 3 1 1) ∧
    decode 0x0020D1B3 = .ok (.srl 3 1 2) ∧ decode 0x4020D1B3 = .ok (.sra 3 1 2) ∧
    decode 0x0020E1B3 = .ok (.or 3 1 2) ∧ decode 0x0020F1B3 = .ok (.and 3 1 2) := by decide

/-- SY-1 to SY-5; the fields SYSTEM and MISC-MEM do not check are ignored, and JALR's funct3 is not checked (J-9). -/
theorem test_decode_system_and_unchecked_fields :
    decode 0x00000073 = .ok .ecall ∧ decode 0x00100073 = .ok .ebreak ∧ decode 0x0FF0000F = .ok .fence ∧
    decode 0x0000100F = .ok .fence ∧ decode 0x000010F3 = .ok .ecall ∧ decode 0x00001067 = .ok (.jalr 0 0 0) := by
  decide

/-- DC-1 to DC-3, and each other reserved opcode of R86 once by a word of that opcode. -/
theorem test_decode_unknown_opcodes :
    decode 0x00000000 = .error .unknownOpcode ∧ decode 0xFFFFFFFF = .error .unknownOpcode ∧
    decode 0x0000002F = .error .unknownOpcode ∧ decode 0x0000001B = .error .unknownOpcode ∧
    decode 0x00000007 = .error .unknownOpcode ∧ decode 0x00000053 = .error .unknownOpcode := by decide

/-- OI-20, OI-21, OP-19, OP-20, OP-21, LD-16, ST-9, BR-14. -/
theorem test_decode_unknown_funct :
    decode 0x02009113 = .error .unknownFunct ∧ decode 0x6010D113 = .error .unknownFunct ∧
    decode 0x022081B3 = .error .unknownFunct ∧ decode 0x602081B3 = .error .unknownFunct ∧
    decode 0x02208133 = .error .unknownFunct ∧ decode 0x0000B103 = .error .unknownFunct ∧
    decode 0x0020B023 = .error .unknownFunct ∧ decode 0x0020A463 = .error .unknownFunct := by decide

/-- SY-6, SY-7, SY-8. -/
theorem test_decode_unknown_sys_imm :
    decode 0xC00020F3 = .error .unknownSysImm ∧ decode 0x30200073 = .error .unknownSysImm ∧
    decode 0x10500073 = .error .unknownSysImm := by decide

/-- The words of the programs P1 and P3: the encoder writes what the document prints. -/
theorem test_encode_words_of_the_document :
    encode (.lui 29 2) = 0x00002EB7 ∧ encode (.sw 28 29 0) = 0x01CEA023 ∧ encode (.addi 6 6 (-128)) = 0xF8030313 ∧
    encode (.sb 12 5 3) = 0x00C281A3 ∧ encode (.bne 1 0 (-8)) = 0xFE009CE3 ∧ encode (.jal 1 12) = 0x00C000EF ∧
    encode (.srai 16 13 4) = 0x4046D813 ∧ encode (.sub 15 13 6) = 0x406687B3 ∧ encode .fence = 0x0FF0000F := by decide

/-- The programs' own constants: P3 loads 0x9234EF80 and P5 0x000A6948 by these pairs, P1 loads 0x3000 by one LUI. -/
theorem test_pseudo_expansions : (Pseudo.li 6 0x9234EF80).expand = [.lui 6 0x9234F, .addi 6 6 (-128)] ∧
    (Pseudo.li 6 0x000A6948).expand = [.lui 6 0xA7, .addi 6 6 (-1720)] ∧ (Pseudo.li 28 0x3000).expand = [.lui 28 3] ∧
    (Pseudo.li 2 0xFFFFFFFF).expand = [.addi 2 0 (-1)] ∧ Pseudo.ret.expand.map encode = [0x00008067] ∧
    Pseudo.nop.expand.map encode = [0x00000013] := by decide

theorem test_abi_names : abiName 1 = "ra" ∧ abiName 9 = "s1" ∧ abiName 10 = "a0" ∧ abiName 18 = "s2" ∧
    abiName 31 = "t6" := by decide

theorem test_decodeTableWord : decodeTableWord 32 0x123450B7 = some (.lui 1 0x12345) ∧ decodeTableWord 32 0 = none := by
  decide

/-! ### One step: helpers -/

/-- The state after reset with these registers written. -/
def regsAt (writes : List (Reg × Word)) : State := writes.foldl (fun s w => s.setX w.1 w.2) State.reset

/-- With a little-endian value of `n` bytes in memory. -/
def holding (s : State) (a n v : Nat) : State := s.withMem (s.mem.writeBytes a (leBytes n v))

/-- One step of the instruction word, from the state with these registers. -/
def run (writes : List (Reg × Word)) (w : Nat) : Host.Outcome State Fault Refusal :=
  step ((regsAt writes).withFetchWord 32 w)

def nextOf : Host.Outcome State Fault Refusal → Option State
  | .next t => some t
  | _ => none

def faultOf : Host.Outcome State Fault Refusal → Option Fault
  | .fault k => some k
  | _ => none

def reg? (o : Host.Outcome State Fault Refusal) (r : Reg) : Option Word := (nextOf o).map fun t => t.x r
def pc? (o : Host.Outcome State Fault Refusal) : Option Word := (nextOf o).map State.pc
def word? (o : Host.Outcome State Fault Refusal) (a n : Nat) : Option Nat := (nextOf o).map fun t => t.valueAt a n

/-! ### One step: upper immediates and jumps -/

/-- U-1. -/
theorem test_lui : reg? (run [] 0x123450B7) 1 = some 0x12345000 ∧ pc? (run [] 0x123450B7) = some 0x10004 := by decide
/-- U-3. -/
theorem test_lui_to_x0 : reg? (run [] 0x12345037) 0 = some 0 ∧ pc? (run [] 0x12345037) = some 0x10004 := by decide
/-- U-5. -/
theorem test_auipc_negative : reg? (run [] 0xFFFFF297) 5 = some 0xF000 := by decide
/-- J-1. -/
theorem test_jal : reg? (run [] 0x008000EF) 1 = some 0x10004 ∧ pc? (run [] 0x008000EF) = some 0x10008 := by decide
/-- J-2. -/
theorem test_jal_backward : pc? (run [] 0xFF9FF06F) = some 0xFFF8 := by decide
/-- J-6: the old x1 forms the target. -/
theorem test_jalr_same_register :
    reg? (run [(1, 0x10100)] 0x004080E7) 1 = some 0x10004 ∧ pc? (run [(1, 0x10100)] 0x004080E7) = some 0x10104 := by
  decide
/-- J-7: bit 0 of the sum is cleared, bit 1 is not. -/
theorem test_jalr_clears_bit_0 : pc? (run [(6, 0x10010)] 0xFFF302E7) = some 0x1000E := by decide

/-! ### One step: OP-IMM -/

/-- OI-2. -/
theorem test_addi_wraps : reg? (run [(1, 0xFFFFFFFF)] 0x00108093) 1 = some 0 := by decide
/-- OI-3. -/
theorem test_addi_most_negative : reg? (run [(1, 0x80000000)] 0x80008093) 1 = some 0x7FFFF800 := by decide
/-- OI-5. -/
theorem test_slti_signed : reg? (run [(1, 0x80000000)] 0xFFF0A113) 2 = some 1 := by decide
/-- OI-7. -/
theorem test_sltiu_extends_then_unsigned : reg? (run [(1, 0xFFFFFFFE)] 0xFFF0B113) 2 = some 1 := by decide
/-- OI-9. -/
theorem test_sltiu_not_less : reg? (run [(1, 5)] 0x0010B113) 2 = some 0 := by decide
/-- OI-10. -/
theorem test_xori : reg? (run [(1, 0x0F0F0F0F)] 0xFFF0C113) 2 = some 0xF0F0F0F0 := by decide
/-- OI-11. -/
theorem test_ori : reg? (run [(1, 1)] 0x8000E113) 2 = some 0xFFFFF801 := by decide
/-- OI-13. -/
theorem test_andi : reg? (run [(1, 0x12345678)] 0xFF00F113) 2 = some 0x12345670 := by decide
/-- OI-14. -/
theorem test_slli : reg? (run [(1, 3)] 0x01F09113) 2 = some 0x80000000 := by decide
/-- OI-15. -/
theorem test_srli : reg? (run [(1, 0x80000000)] 0x0010D113) 2 = some 0x40000000 := by decide
/-- OI-16. -/
theorem test_srai : reg? (run [(1, 0x80000000)] 0x4010D113) 2 = some 0xC0000000 := by decide
/-- OI-18. -/
theorem test_srai_positive : reg? (run [(1, 0x7FFFFFF0)] 0x4040D113) 2 = some 0x07FFFFFF := by decide

/-! ### One step: OP -/

/-- OP-2. -/
theorem test_add_wraps : reg? (run [(1, 0xFFFFFFFF), (2, 1)] 0x002081B3) 3 = some 0 := by decide
/-- OP-17: the destination is both sources. -/
theorem test_add_same_register : reg? (run [(1, 0x40000000)] 0x001080B3) 1 = some 0x80000000 := by decide
/-- OP-3. -/
theorem test_sub_borrow : reg? (run [(1, 0), (2, 1)] 0x402081B3) 3 = some 0xFFFFFFFF := by decide
/-- OP-5: an amount of 33. -/
theorem test_sll : reg? (run [(1, 1), (2, 33)] 0x002091B3) 3 = some 2 := by decide
/-- OP-7. -/
theorem test_slt_signed : reg? (run [(1, 0xFFFFFFFF), (2, 1)] 0x0020A1B3) 3 = some 1 := by decide
/-- OP-8. -/
theorem test_sltu_unsigned : reg? (run [(1, 0xFFFFFFFF), (2, 1)] 0x0020B1B3) 3 = some 0 := by decide
/-- OP-9. -/
theorem test_sltu_snez : reg? (run [(2, 7)] 0x002031B3) 3 = some 1 := by decide
/-- OP-10. -/
theorem test_xor : reg? (run [(1, 0x1234)] 0x0010C1B3) 3 = some 0 := by decide
/-- OP-11: an amount of 32. -/
theorem test_srl_by_width : reg? (run [(1, 0x80000000), (2, 32)] 0x0020D1B3) 3 = some 0x80000000 := by decide
/-- OP-13: an amount of 63. -/
theorem test_sra : reg? (run [(1, 0x80000000), (2, 63)] 0x4020D1B3) 3 = some 0xFFFFFFFF := by decide
/-- OP-15. -/
theorem test_or : reg? (run [(1, 0xF0), (2, 0x0F)] 0x0020E1B3) 3 = some 0xFF := by decide
/-- OP-16. -/
theorem test_and : reg? (run [(1, 0xF0F0), (2, 0xFF00)] 0x0020F1B3) 3 = some 0xF000 := by decide
/-- OP-18. -/
theorem test_add_to_x0 : reg? (run [(1, 1), (2, 2)] 0x00208033) 0 = some 0 := by decide

/-! ### One step: loads and stores -/

/-- `mem32[0x4000]` and x1. -/
def memAt (v : Nat) (writes : List (Reg × Word)) (w : Nat) : Host.Outcome State Fault Refusal :=
  step ((holding (regsAt writes) 0x4000 4 v).withFetchWord 32 w)

/-- LD-2. -/
theorem test_lb : reg? (memAt 0x8081F2F3 [(1, 0x4000)] 0x00308103) 2 = some 0xFFFFFF80 := by decide
/-- LD-3. -/
theorem test_lbu : reg? (memAt 0x8081F2F3 [(1, 0x4000)] 0x0030C103) 2 = some 0x80 := by decide
/-- LD-4. -/
theorem test_lh : reg? (memAt 0x8081F2F3 [(1, 0x4000)] 0x00209103) 2 = some 0xFFFF8081 := by decide
/-- LD-5. -/
theorem test_lhu : reg? (memAt 0x8081F2F3 [(1, 0x4000)] 0x0020D103) 2 = some 0x8081 := by decide
/-- LD-8. -/
theorem test_lw_negative_offset : reg? (memAt 0x8081F2F3 [(1, 0x4004)] 0xFFC0A103) 2 = some 0x8081F2F3 := by decide
/-- LD-13: the address wraps to 0. -/
theorem test_lw_wraps : reg? (memAt 0x8081F2F3 [(1, 0xFFFFFFFF)] 0x0010A103) 2 = some 0 := by decide
/-- LD-9, LD-10. -/
theorem test_load_misaligned : faultOf (memAt 0 [(1, 0x4000)] 0x00109103) = some (.misalignedAccess 0x4001 2) ∧
    faultOf (memAt 0 [(1, 0x4000)] 0x0020A103) = some (.misalignedAccess 0x4002 4) := by decide
/-- LD-11, LD-12, LD-17. -/
theorem test_load_out_of_range : faultOf (memAt 0 [(1, 0x100000)] 0x0000A103) = some (.outOfRange 0x100000 4) ∧
    faultOf (memAt 0 [(1, 0xFFFFFFFF)] 0x00008103) = some (.outOfRange 0xFFFFFFFF 1) ∧
    faultOf (memAt 0 [(1, 0x100000)] 0x0020A103) = some (.misalignedAccess 0x100002 4) := by decide
/-- ST-1. -/
theorem test_sb : word? (memAt 0x11223344 [(1, 0x4000), (2, 0x123456AB)] 0x002080A3) 0x4000 4 = some 0x1122AB44 := by
  decide
/-- ST-2. -/
theorem test_sh : word? (memAt 0x11223344 [(1, 0x4000), (2, 0x1234BEEF)] 0x00209123) 0x4000 4 = some 0xBEEF3344 := by
  decide
/-- ST-4. -/
theorem test_sw_negative_offset :
    word? (memAt 0x11223344 [(1, 0x4008), (2, 0xCAFEF00D)] 0xFE20AE23) 0x4004 4 = some 0xCAFEF00D ∧
    word? (memAt 0x11223344 [(1, 0x4008), (2, 0xCAFEF00D)] 0xFE20AE23) 0x4000 4 = some 0x11223344 := by decide
/-- ST-5, ST-6, ST-7. -/
theorem test_store_errors : faultOf (memAt 0 [(1, 0x4000), (2, 1)] 0x002091A3) = some (.misalignedAccess 0x4003 2) ∧
    faultOf (memAt 0 [(1, 0x4000), (2, 1)] 0x0020A123) = some (.misalignedAccess 0x4002 4) ∧
    faultOf (memAt 0 [(1, 0x100000), (2, 1)] 0x00208023) = some (.outOfRange 0x100000 1) := by decide

/-! ### One step: branches -/

/-- BR-1, BR-2. -/
theorem test_beq : pc? (run [(1, 5), (2, 5)] 0x00208863) = some 0x10010 ∧
    pc? (run [(1, 5), (2, 6)] 0x00208863) = some 0x10004 := by decide
/-- BR-3 with the pc of reset: -4 from 0x10000; `branchTaken` is consumed. -/
theorem test_bne : pc? (run [(1, 1), (2, 2)] 0xFE209EE3) = some 0xFFFC ∧
    (nextOf (run [(1, 1), (2, 2)] 0xFE209EE3)).map State.branchTaken = some false := by decide
/-- BR-4. -/
theorem test_blt_signed : pc? (run [(1, 0xFFFFFFFF), (2, 0)] 0x0020C463) = some 0x10008 := by decide
/-- BR-5. -/
theorem test_bltu_unsigned : pc? (run [(1, 0xFFFFFFFF), (2, 0)] 0x0020E463) = some 0x10004 := by decide
/-- BR-6, BR-7. -/
theorem test_bge_signed : pc? (run [(1, 0x80000000), (2, 0x80000000)] 0x0020D463) = some 0x10008 ∧
    pc? (run [(1, 0x80000000), (2, 0x7FFFFFFF)] 0x0020D463) = some 0x10004 := by decide
/-- BR-8. -/
theorem test_bgeu_unsigned : pc? (run [(1, 0x80000000), (2, 0x7FFFFFFF)] 0x0020F463) = some 0x10008 := by decide
/-- BR-10: taken to the fall-through address. -/
theorem test_beq_to_next : pc? (run [] 0x00000263) = some 0x10004 := by decide

/-! ### One step: system, fence, fetch and decode errors, the counter -/

/-- SY-1, SY-2, SY-3: the pc goes on, the counter counts. -/
theorem test_ecall : pc? (run [] 0x00000073) = some 0x10004 ∧
    (nextOf (run [] 0x00000073)).map State.cycleCount = some 1 := by decide
theorem test_ebreak : pc? (run [] 0x00100073) = some 0x10004 := by decide
theorem test_fence : pc? (run [] 0x0FF0000F) = some 0x10004 := by decide
/-- SY-5: a CSR word with immediate 0 is ECALL. -/
theorem test_csr_word_is_ecall : reg? (run [(1, 9)] 0x000010F3) 1 = some 9 := by decide
/-- DC-1, OI-20, SY-6. -/
theorem test_decode_errors_end_the_step : faultOf (run [] 0) = some (.unknownOpcode 0) ∧
    faultOf (run [] 0x02009113) = some (.unknownFunct 0x02009113) ∧
    faultOf (run [] 0xC00020F3) = some (.unknownSysImm 0xC00020F3) := by decide
/-- DC-4, DC-5, DC-6. -/
theorem test_fetch_errors :
    faultOf (step { State.reset with pc := 0x10002 }) = some (.misalignedAccess 0x10002 4) ∧
    faultOf (step { State.reset with pc := 0x10001 }) = some (.misalignedAccess 0x10001 4) ∧
    faultOf (step { State.reset with pc := 0x100000 }) = some (.outOfRange 0x100000 4) := by decide

/-! ### HTIF: the state at service is that after a FENCE -/

/-- tohost, and doublewords of the command block at 0x3000. -/
def withBlock (s : State) (tohost : Nat) (block : List Nat) : State :=
  (block.zipIdx.foldl (fun s d => holding s (0x3000 + 8 * d.2) 8 d.1) (holding s tohostAddr 8 tohost)).withFetchWord 32
    0x0FF0000F

def htif (tohost : Nat) (block : List Nat) : Host.Outcome State Fault Refusal :=
  step (withBlock State.reset tohost block)

def status? (o : Host.Outcome State Fault Refusal) : Option RunStatus := (nextOf o).map State.runStatus

/-- H-2: tohost is kept, pc and counter do not advance. -/
theorem test_htif_exit : status? (htif 0x3000 [93, 42]) = some (.exited 42) ∧
    word? (htif 0x3000 [93, 42]) tohostAddr 8 = some 0x3000 ∧ pc? (htif 0x3000 [93, 42]) = some 0x10000 := by decide
/-- H-3. -/
theorem test_htif_exit_low_word : status? (htif 0x3000 [93, 0x100000007]) = some (.exited 7) := by decide
/-- H-4, H-8. -/
theorem test_htif_errors : faultOf (htif 0x3004 []) = some (.misalignedAccess 0x3004 8) ∧
    faultOf (htif 0x3000 [1]) = some (.unknownSyscall 1) := by decide
/-- H-6. -/
theorem test_htif_block_past_the_end : faultOf (htif 0xFFFC8 []) = some (.outOfRange 0x100000 8) := by decide
/-- H-7. -/
theorem test_htif_pointer_above_32_bits : faultOf (htif 0x100003000 []) = some (.outOfRange 0x100003000 8) := by decide
/-- H-5: the block fits exactly. -/
theorem test_htif_block_at_the_end :
    status? (step (holding (holding (withBlock State.reset 0xFFFC0 []) 0xFFFC0 8 93) 0xFFFC8 8 1)) =
      some (.exited 1) := by decide

/-- The bytes "Hi\n" at 0x3100, and the host's next answer. -/
def withHost (answer : HostAnswer) (block : List Nat) : Host.Outcome State Fault Refusal :=
  step (withBlock { holding State.reset 0x3100 3 0x0A6948 with hostIn := [answer] } 0x3000 block)

/-- H-9 with a complete write, and with r = -1. -/
theorem test_htif_write :
    (nextOf (withHost ⟨some 3, []⟩ [64, 1, 0x3100, 3])).map State.hostOut =
      some [⟨1, .stdout, [0x48, 0x69, 0x0A]⟩] ∧
    word? (withHost ⟨some 3, []⟩ [64, 1, 0x3100, 3]) fromhostAddr 8 = some 3 ∧
    word? (withHost ⟨some 3, []⟩ [64, 1, 0x3100, 3]) tohostAddr 8 = some 0 ∧
    word? (withHost ⟨none, []⟩ [64, 1, 0x3100, 3]) fromhostAddr 8 = some 0xFFFFFFFFFFFFFFFF := by decide
/-- H-10, H-11: the buffer is checked before the fd. -/
theorem test_htif_write_errors :
    faultOf (withHost ⟨none, []⟩ [64, 3, 0x3100, 3]) = some (.invalidFileDescriptor 3) ∧
    faultOf (withHost ⟨none, []⟩ [64, 3, 0xFFFFE, 3]) = some (.outOfRange 0xFFFFE 3) := by decide
/-- H-12: an empty write from any address. -/
theorem test_htif_empty_write :
    word? (withHost ⟨some 5, []⟩ [64, 1, 0xFFFFFFFF, 0]) fromhostAddr 8 = some 0 := by decide
/-- H-13, with a local buffer whose two bytes past the count are 9 and 0 (any value will do). -/
theorem test_htif_read :
    word? (withHost ⟨some 2, [0x61, 0x62, 9, 0]⟩ [63, 0, 0x3100, 4]) 0x3100 2 = some 0x6261 ∧
    word? (withHost ⟨some 2, [0x61, 0x62, 9, 0]⟩ [63, 0, 0x3100, 4]) fromhostAddr 8 = some 2 ∧
    word? (withHost ⟨some 2, [0x61, 0x62, 9, 0]⟩ [63, 0, 0x3100, 4]) tohostAddr 8 = some 0 := by decide
/-- H-14, H-15. -/
theorem test_htif_read_errors :
    faultOf (withHost ⟨none, []⟩ [63, 5, 0x3100, 4]) = some (.invalidFileDescriptor 5) ∧
    faultOf (withHost ⟨none, []⟩ [63, 0, 0xFFFFE, 4]) = some (.outOfRange 0xFFFFE 4) := by decide

/-! ### Bit utilities (95_test_vectors.md E1 and the instances of I5 and I6) and byte order -/

theorem test_bit_utilities : sext 12 0xFFF = 0xFFFFFFFF ∧ sext 8 0x80 = 0xFFFFFF80 ∧ sext 8 0xFFFFFF80 = 0xFFFFFF80 ∧
    insertBits 0xFFFFFFFF 0x5 4 4 = 0xFFFFFF5F ∧ extractBits 0xFFFFFF5F 4 4 = 0x5 ∧ insertBits 0 0x1FF 0 8 = 0xFF ∧
    insertBits 0x12345678 0xCAFEBABE 0 32 = 0xCAFEBABE := by decide
/-- 00_scope.md R17, by hand: 0, 1, 4 and 5 round up to 0, 4, 4 and 8. -/
theorem test_round_up : roundUpToMultipleOf4 0 = 0 ∧ roundUpToMultipleOf4 1 = 4 ∧ roundUpToMultipleOf4 4 = 4 ∧
    roundUpToMultipleOf4 5 = 8 := by decide
/-- A write of what an unlisted byte reads as takes the entry off the list (the model's canonical form, log 3). -/
theorem test_memory_canonical : Memory.write [(4, 7)] 4 0 = [] ∧ Memory.write [(4, 7)] 2 1 = [(2, 1), (4, 7)] := by decide

/-! ## Witnesses: for every obligation with hypotheses, a state and operands that meet them, clause by clause -/

/-! ### Launch -/

/-- One segment of four bytes that ends at the end of the region, and one that covers its last byte. -/
def exampleExecutable : Executable where
  elfMagic := true
  elfClass32 := true
  elfData2Lsb := true
  etExec := true
  machine := 243
  version := 1
  segments := [⟨0xFFFFC, true, [1, 2, 3, 4]⟩, ⟨0xFFFFF, true, [9]⟩]
  start := some 0x10000

theorem witness_LaunchConstructsTheCore : Config.ofSpecExamples.valid = true ∧
    exampleExecutable.valid Config.ofSpecExamples = true ∧ exampleExecutable.start = some 0x10000 := by decide

/-- Byte 2 of the first segment is not covered by the later one; 0xFFFFB is covered by none; INIT_MEM gives byte 5 once
and byte 6 twice. -/
theorem witness_LaunchCopiesSegments :
    (∃ t, launch Config.ofSpecExamples [(6, 1), (5, 7), (6, 2)] exampleExecutable = .next t ∧ t.byte 5 = 7) ∧
    [(6, 1), (5, 7), (6, 2)] = [(6, 1)] ++ ((5, 7) : Host.Cell) :: [(6, 2)] ∧
    (∀ d ∈ [(6, 1)] ++ [((6, 2) : Host.Cell)], d.1 ≠ 5) ∧ Config.ofSpecExamples.InRange 5 1 ∧
    (∀ h ∈ exampleExecutable.segments, 5 < h.paddr ∨ h.paddr + h.bytes.length ≤ 5) ∧
    exampleExecutable.segments = [] ++ ⟨0xFFFFC, true, [1, 2, 3, 4]⟩ :: [⟨0xFFFFF, true, [9]⟩] ∧
    (∀ h ∈ [(⟨0xFFFFF, true, [9]⟩ : Segment)], 0xFFFFC + 2 < h.paddr ∨ h.paddr + h.bytes.length ≤ 0xFFFFC + 2) ∧
    (∀ h ∈ exampleExecutable.segments, 0xFFFFB < h.paddr ∨ h.paddr + h.bytes.length ≤ 0xFFFFB) :=
  ⟨⟨_, rfl, rfl⟩, rfl, by decide, by decide, by decide, rfl, by decide, by decide⟩

theorem witness_LaunchMeetsInvariant : ∃ t, launch Config.ofSpecExamples [(5, 7)] exampleExecutable = .next t := ⟨_, rfl⟩

/-- A violated configuration; and, under an admissible one, each condition of R187 and the missing `_start`. -/
theorem witness_LaunchRefusesBadInput : (⟨4, 0x100000, none, false⟩ : Config).valid = false ∧
    Config.ofSpecExamples.valid = true ∧
    { exampleExecutable with elfMagic := false }.elfMagic = false ∧
    { exampleExecutable with elfClass32 := false }.elfClass32 = false ∧
    { exampleExecutable with elfData2Lsb := false }.elfData2Lsb = false ∧
    { exampleExecutable with etExec := false }.etExec = false ∧
    { exampleExecutable with machine := 62 }.machine ≠ 243 ∧ { exampleExecutable with version := 0 }.version ≠ 1 ∧
    (⟨0x4000, false, []⟩ : Segment).offsetInFile = false ∧
    Config.ofSpecExamples.memBase + Config.ofSpecExamples.memSize < 0xFFFFF + [(1 : Byte), 2].length ∧
    { exampleExecutable with start := none }.start = none := by decide

/-- A segment below the region. -/
theorem witness_LaunchRefusesBadInput_below :
    (⟨0x1000, 0x2000, none, false⟩ : Config).valid = true ∧ 0xFFF < (⟨0x1000, 0x2000, none, false⟩ : Config).memBase := by
  decide

/-! ### The invariant, encoding -/

theorem reset_inv : State.reset.Inv :=
  ⟨by decide, ⟨by decide, by simp [State.reset]⟩, by decide, fun _ => rfl, rfl⟩

/-- A state that meets the invariant and steps: FENCE at the pc of reset. -/
theorem witness_StepKeepsInvariant : ∃ s t, s.Inv ∧ step s = .next t :=
  ⟨State.reset.withFetchWord 32 0x0FF0000F, _,
    ⟨by decide, reset_inv.memory.writeBytes (.inr (by decide)), by decide, fun _ => rfl, rfl⟩, rfl⟩

theorem witness_DecodeEncodeRoundTrip :
    (Instr.bgeu 31 31 (-4096)).WellFormed ∧ (Instr.jal 31 1048574).WellFormed ∧ Instr.fence.WellFormed := by decide

theorem witness_EncodeDecodeRoundTrip : decode 0xFE209EE3 = .ok (.bne 1 2 (-4)) ∧
    (∀ rd rs1 imm, Instr.bne 1 2 (-4) ≠ .jalr rd rs1 imm) ∧ Instr.bne 1 2 (-4) ≠ .fence ∧
    Instr.bne 1 2 (-4) ≠ .ecall ∧ Instr.bne 1 2 (-4) ≠ .ebreak :=
  ⟨by decide, fun _ _ _ h => Instr.noConfusion h, by decide, by decide, by decide⟩

/-- Every row of the opcode table has a word that matches it: the hypothesis of every encoding clause. -/
theorem witness_rows_match : ∀ row ∈ opcodeTable, Matches row.bits row.mask row.bits := by decide

theorem witness_DecodeAgreesWithOpcodeTable : decode 0x123450B7 = .ok (.lui 1 0x12345) ∧
    (⟨"LUI", 0x00000037, 0x0000007F⟩ : OpcodeRow) ∈ opcodeTable ∧ Matches 0x123450B7 0x0000007F 0x00000037 := by decide

theorem witness_UnknownOpcodeExactly : (0x00000000 : Word).extractLsb' 0 2 ≠ 0b11#2 ∧
    (0x0000002F : Word).extractLsb' 0 7 ∈ [0x2F#7] := by decide

/-- One word for each clause of the list of R87. -/
theorem witness_UnknownFunctExactly :
    (0x0020A463 : Word).extractLsb' 12 3 = 0b010#3 ∧ (0x0000B103 : Word).extractLsb' 12 3 = 0b011#3 ∧
    (0x0020B023 : Word).extractLsb' 12 3 = 0b011#3 ∧ (0x02009113 : Word).extractLsb' 25 7 = 1#7 ∧
    (0x6010D113 : Word).extractLsb' 25 7 = 0b0110000#7 ∧ (0x022081B3 : Word).extractLsb' 25 7 = 1#7 ∧
    (0x402091B3 : Word).extractLsb' 25 7 = 0b0100000#7 := by decide

theorem witness_SystemWordsSelectByImmediate : (0xC00020F3 : Word).extractLsb' 20 12 = 0xC00#12 ∧
    (0x000010F3 : Word).extractLsb' 20 12 = 0#12 ∧ (0x00100073 : Word).extractLsb' 20 12 = 1#12 := by decide

/-! ### Memory: the ends of the region and of each alignment -/

theorem witness_MemReadChecksThenSums : (8 : Nat) ∈ [1, 2, 4, 8] ∧
    (0xFFFF9 : Word).extractLsb' 0 3 ≠ 0 ∧ (0xFFFFE : Word).extractLsb' 0 2 ≠ 0 ∧ (0xFFFFF : Word).extractLsb' 0 1 ≠ 0 ∧
    ¬ State.reset.cfg.InRange (0x100000 : Word).toNat 8 ∧ (0x100000 : Word).extractLsb' 0 3 = 0 ∧
    State.reset.cfg.InRange (0xFFFF8 : Word).toNat 8 ∧ (0xFFFF8 : Word).extractLsb' 0 3 = 0 := by decide

theorem witness_MemWriteStoresItsBytesOnly :
    memRead State.reset (0xFFFF9 : Word).toNat 8 = .error (.misalignedAccess 0xFFFF9 8) ∧
    memRead State.reset (0x100000 : Word).toNat 8 = .error (.outOfRange 0x100000 8) ∧
    memRead State.reset (0xFFFF8 : Word).toNat 8 = .ok 0 := ⟨rfl, rfl, rfl⟩

theorem witness_MixedWidthViews : memRead State.reset 0xFFFFC 4 = .ok 0 ∧ memRead State.reset 0xFFFF8 8 = .ok 0 ∧
    ∃ t, memWrite State.reset (0xFFFFC + 3) 1 0xAB = .ok t := ⟨rfl, rfl, _, rfl⟩

theorem witness_BlockCopies : ([] : List Byte) = [] ∧ ([1, 2] : List Byte) ≠ [] ∧
    ¬ State.reset.cfg.InRange 0xFFFFF ([1, 2] : List Byte).length ∧
    State.reset.cfg.InRange 0xFFFFE ([1, 2] : List Byte).length := by decide

/-! ### Instructions as a whole -/

/-- A load into x0 that faults. -/
theorem witness_RegisterZeroIsHardwired : exec (.lw 0 1 2) State.reset = .fault (.misalignedAccess 2 4) := rfl

theorem witness_EveryInstructionFrame : (∃ t, exec (.sh 2 1 0) State.reset = .next t) ∧ isStore (.sh 2 1 0) = true ∧
    accessWidth (.sh 2 1 0) = some 2 ∧ (∃ t, exec (.lb 2 1 0) State.reset = .next t) ∧
    jumpOrBranch (.lb 2 1 0) = false ∧ isStore (.lb 2 1 0) = false := ⟨⟨_, rfl⟩, rfl, rfl, ⟨_, rfl⟩, rfl, rfl⟩

theorem witness_ExecutionErrorsExactly : accessWidth (.add 1 2 3) = none ∧ accessWidth (.lw 2 1 0) = some 4 ∧
    accessAddress (regsAt [(1, 0x100002)]) (.lw 2 1 0) % 4 ≠ 0 ∧
    accessAddress (regsAt [(1, 0x100000)]) (.lw 2 1 0) % 4 = 0 ∧
    ¬ (regsAt [(1, 0x100000)]).cfg.InRange (accessAddress (regsAt [(1, 0x100000)]) (.lw 2 1 0)) 4 ∧
    (regsAt [(1, 0xFFFFC)]).cfg.InRange (accessAddress (regsAt [(1, 0xFFFFC)]) (.lw 2 1 0)) 4 := by decide

/-- The two states differ in x5, which neither instruction reads. -/
theorem witness_ReadsOnlySourceRegisters :
    (∀ r : Reg, (Instr.lw 2 1 2).rs1? = some r ∨ (Instr.lw 2 1 2).rs2? = some r →
      { State.reset with regs := (regsAt [(5, 9)]).regs }.x r = State.reset.x r) ∧
    exec (.lw 2 1 2) State.reset = .fault (.misalignedAccess 2 4) ∧
    (∀ r : Reg, (Instr.add 3 1 2).rs1? = some r ∨ (Instr.add 3 1 2).rs2? = some r →
      { State.reset with regs := (regsAt [(5, 9)]).regs }.x r = State.reset.x r) ∧
    ∃ t, exec (.add 3 1 2) State.reset = .next t := ⟨by decide, rfl, by decide, _, rfl⟩

theorem witness_BranchTakenStateMachine : State.reset.branchTaken = false ∧
    (∃ t, exec (.beq 1 2 8) State.reset = .next t) ∧
    ∃ u, step (State.reset.withFetchWord 32 0x00208863) = .next u ∧ u.runStatus = .running :=
  ⟨rfl, ⟨_, rfl⟩, _, rfl, rfl⟩

/-! ### Loads, stores, branches: the end of the region, and both sides of each condition -/

theorem witness_ByteLoads : State.reset.cfg.InRange ((regsAt [(1, 0xFFFFF)]).effectiveAddress 1 0).toNat 1 ∧
    ¬ State.reset.cfg.InRange ((regsAt [(1, 0xFFFFF)]).effectiveAddress 1 1).toNat 1 := by decide

theorem witness_HalfLoads : ((regsAt [(1, 0xFFFFE)]).effectiveAddress 1 0).toNat % 2 = 0 ∧
    State.reset.cfg.InRange ((regsAt [(1, 0xFFFFE)]).effectiveAddress 1 0).toNat 2 ∧
    ((regsAt [(1, 0xFFFFE)]).effectiveAddress 1 1).toNat % 2 ≠ 0 ∧
    ((regsAt [(1, 0xFFFFE)]).effectiveAddress 1 2).toNat % 2 = 0 ∧
    ¬ State.reset.cfg.InRange ((regsAt [(1, 0xFFFFE)]).effectiveAddress 1 2).toNat 2 := by decide

theorem witness_WordLoad : ((regsAt [(1, 0xFFFFC)]).effectiveAddress 1 0).toNat % 4 = 0 ∧
    State.reset.cfg.InRange ((regsAt [(1, 0xFFFFC)]).effectiveAddress 1 0).toNat 4 ∧
    ((regsAt [(1, 0xFFFFC)]).effectiveAddress 1 2).toNat % 4 ≠ 0 ∧
    ((regsAt [(1, 0xFFFFC)]).effectiveAddress 1 4).toNat % 4 = 0 ∧
    ¬ State.reset.cfg.InRange ((regsAt [(1, 0xFFFFC)]).effectiveAddress 1 4).toNat 4 := by decide

/-- The addresses of the three loads serve the three stores. -/
theorem witness_StoresWriteLowBytes : State.reset.cfg.InRange ((regsAt [(1, 0xFFFFC)]).effectiveAddress 1 3).toNat 1 ∧
    ¬ State.reset.cfg.InRange ((regsAt [(1, 0xFFFFC)]).effectiveAddress 1 4).toNat 1 ∧
    State.reset.cfg.InRange ((regsAt [(1, 0xFFFFC)]).effectiveAddress 1 2).toNat 2 ∧
    ((regsAt [(1, 0xFFFFC)]).effectiveAddress 1 3).toNat % 2 ≠ 0 ∧
    ¬ State.reset.cfg.InRange ((regsAt [(1, 0xFFFFC)]).effectiveAddress 1 4).toNat 2 ∧
    State.reset.cfg.InRange ((regsAt [(1, 0xFFFFC)]).effectiveAddress 1 0).toNat 4 ∧
    ((regsAt [(1, 0xFFFFC)]).effectiveAddress 1 2).toNat % 4 ≠ 0 ∧
    ¬ State.reset.cfg.InRange ((regsAt [(1, 0xFFFFC)]).effectiveAddress 1 4).toNat 4 := by decide

theorem witness_EqualityBranches : (regsAt [(1, 5), (2, 5)]).x 1 = (regsAt [(1, 5), (2, 5)]).x 2 ∧
    (regsAt [(1, 5)]).x 1 ≠ (regsAt [(1, 5)]).x 2 := by decide

/-- Unequal operands in each direction, and equal ones, where the clauses meet. -/
theorem witness_OrderBranches :
    ((regsAt [(1, 5), (2, 5)]).x 1).toInt ≥ ((regsAt [(1, 5), (2, 5)]).x 2).toInt ∧
    ¬ ((regsAt [(1, 5), (2, 5)]).x 1).toInt < ((regsAt [(1, 5), (2, 5)]).x 2).toInt ∧
    ((regsAt [(1, 5), (2, 5)]).x 1).toNat ≥ ((regsAt [(1, 5), (2, 5)]).x 2).toNat ∧
    ¬ ((regsAt [(1, 5), (2, 5)]).x 1).toNat < ((regsAt [(1, 5), (2, 5)]).x 2).toNat ∧
    ((regsAt [(1, 0x80000000)]).x 1).toInt < ((regsAt [(1, 0x80000000)]).x 2).toInt ∧
    ((regsAt [(1, 0x80000000)]).x 2).toInt ≥ ((regsAt [(1, 0x80000000)]).x 1).toInt ∧
    ((regsAt [(1, 0x80000000)]).x 2).toNat < ((regsAt [(1, 0x80000000)]).x 1).toNat ∧
    ((regsAt [(1, 0x80000000)]).x 1).toNat ≥ ((regsAt [(1, 0x80000000)]).x 2).toNat := by decide

/-! ### Steps -/

/-- A state ready to run the word at the pc of reset. -/
def ready (s : State) (w : Nat) : State := s.withFetchWord 32 w

theorem ready_ready : (ready State.reset 0x0FF0000F).Ready := ⟨rfl, rfl, rfl⟩

theorem ready_fetches : (ready State.reset 0x0FF0000F).Fetches 0x0FF0000F := ⟨by decide, by decide, by decide⟩

theorem ready_executes : ∃ t, (ready State.reset 0x0FF0000F).Executes .fence t :=
  ⟨_, ready_ready, ⟨_, ready_fetches, by decide⟩, rfl⟩

theorem witness_StepRunsDecodedInstruction : (ready State.reset 0x0FF0000F).Ready ∧
    (ready State.reset 0x0FF0000F).Fetches 0x0FF0000F ∧ decode 0x0FF0000F = .ok .fence ∧
    (∃ t, exec .fence (ready State.reset 0x0FF0000F).captureFetch = .next t) ∧
    exec (.lw 2 1 2) (ready State.reset 0x0020A103).captureFetch = .fault (.misalignedAccess 2 4) :=
  ⟨ready_ready, ready_fetches, by decide, ⟨_, rfl⟩, rfl⟩

theorem witness_FetchAndDecodeErrors : State.reset.Ready ∧
    { State.reset with pc := 0x10002 }.pc.toNat % 4 ≠ 0 ∧
    ({ State.reset with pc := 0x100000 }.pc.toNat % 4 = 0 ∧ ¬ State.reset.cfg.InRange 0x100000 4) ∧
    ((ready State.reset 0).Fetches 0 ∧ decode 0 = .error .unknownOpcode) ∧
    ((ready State.reset 0x02009113).Fetches 0x02009113 ∧ decode 0x02009113 = .error .unknownFunct) ∧
    ((ready State.reset 0xC00020F3).Fetches 0xC00020F3 ∧ decode 0xC00020F3 = .error .unknownSysImm) :=
  ⟨⟨rfl, rfl, rfl⟩, by decide, by decide, ⟨⟨by decide, by decide, by decide⟩, by decide⟩,
    ⟨⟨by decide, by decide, by decide⟩, by decide⟩, ⟨⟨by decide, by decide, by decide⟩, by decide⟩⟩

/-- At the last count there is, by an instruction that branches and by one that does not. -/
theorem witness_StepWithoutCommandAdvances :
    (∃ t, (ready { State.reset with cycleCount := 0xFFFFFFFFFFFFFFFE } 0x00208863).Executes (.beq 1 2 16) t ∧
      t.valueAt tohostAddr 8 = 0 ∧ t.branchTaken = true) ∧
    (∃ t, (ready { State.reset with cycleCount := 0xFFFFFFFFFFFFFFFE } 0x0FF0000F).Executes .fence t ∧
      t.valueAt tohostAddr 8 = 0 ∧ t.branchTaken = false) ∧
    (0xFFFFFFFFFFFFFFFE : BitVec 64).toNat + 1 < 2 ^ 64 :=
  ⟨⟨_, ⟨⟨rfl, rfl, rfl⟩, ⟨0x00208863, ⟨by decide, by decide, by decide⟩, by decide⟩, rfl⟩, by decide, rfl⟩,
    ⟨_, ⟨⟨rfl, rfl, rfl⟩, ⟨0x0FF0000F, ⟨by decide, by decide, by decide⟩, by decide⟩, rfl⟩, by decide, rfl⟩, by decide⟩

theorem witness_PcAfterStep : (ready State.reset 0xFFF302E7).branchTaken = false ∧
    ∃ u, step (ready State.reset 0x008300E7) = .next u ∧ u.runStatus = .running := ⟨rfl, _, rfl, rfl⟩

/-- A step that goes on, a step that ends the run, and a step at the last count. -/
theorem witness_CycleCountCountsCompletedSteps :
    (∃ u, step (ready State.reset 0x0FF0000F) = .next u ∧ u.runStatus = .running) ∧
    (∃ u, htif 0x3000 [93, 42] = .next u ∧ u.runStatus ≠ .running) ∧
    ∃ t, (ready { State.reset with cycleCount := BitVec.allOnes 64 } 0x0FF0000F).Executes .fence t ∧
      t.valueAt tohostAddr 8 = 0 ∧ (BitVec.allOnes 64).toNat + 1 = 2 ^ 64 :=
  ⟨⟨_, rfl, rfl⟩, ⟨_, rfl, by decide⟩, _,
    ⟨⟨rfl, rfl, rfl⟩, ⟨0x0FF0000F, ⟨by decide, by decide, by decide⟩, by decide⟩, rfl⟩, by decide, by decide⟩

/-- A limit of 3 at the counts 3 (reached) and 2 (one more step, not stopped); and no limit at the last count that
goes on. -/
theorem witness_CycleLimitStopsTheRun :
    (⟨0, 0x100000, some 3, false⟩ : Config).valid = true ∧ 3 ≤ (3 : BitVec 64).toNat ∧ (2 : BitVec 64).toNat ≤ 3 ∧
    ∃ u, step (ready { State.reset with cfg := ⟨0, 0x100000, some 3, false⟩, cycleCount := 2 } 0x0FF0000F) = .next u ∧
      (2 : BitVec 64).toNat < 3 ∧ u.runStatus ≠ .stopped ∧
    State.reset.cfg.maxCycles = none ∧
    ∃ u, step (ready { State.reset with cycleCount := 0xFFFFFFFFFFFFFFFE } 0x0FF0000F) = .next u ∧
      u.runStatus ≠ .stopped :=
  ⟨by decide, by decide, by decide, _, rfl, by decide, by decide, rfl, _, rfl, by decide⟩

theorem witness_EndedRunsMakeNoStep : State.reset.cfg.valid = true ∧
    (State.reset.withStatus (.exited 1)).runStatus = .exited 1 ∧
    (State.reset.withStatus (.errored .runEnded)).runStatus = .errored .runEnded ∧
    (State.reset.withStatus .stopped).runStatus = .stopped := ⟨by decide, rfl, rfl, rfl⟩

/-- Each way to violate the configuration rule, one past its bound, and the smallest region that meets it. -/
theorem witness_BadConfigurationIsRefused : (⟨4, 0x100000, none, false⟩ : Config).valid = false ∧
    (⟨0x2000, 0xFFFFE001, none, false⟩ : Config).valid = false ∧ (⟨0x2008, 0x1000, none, false⟩ : Config).valid = false ∧
    (⟨0x2000, 0xF, none, false⟩ : Config).valid = false ∧ (⟨0x2000, 0x10, none, false⟩ : Config).valid = true := by decide

theorem witness_FetchSeesStores : ∃ t, exec (.sw 2 1 0) State.reset = .next t ∧
    { t with pc := State.reset.effectiveAddress 1 0 }.pc = State.reset.effectiveAddress 1 0 := ⟨_, rfl, rfl⟩

/-! ### HTIF and trace -/

theorem fence_executes (s : State) (hr : s.Ready) (hf : s.Fetches 0x0FF0000F) : s.Executes .fence s.captureFetch :=
  ⟨hr, ⟨_, hf, by decide⟩, rfl⟩

theorem witness_ExitCommandEndsTheRun : ∃ t, (withBlock State.reset 0x3000 [93, 42]).Executes .fence t ∧
    t.Commands 93 42 0 0 :=
  ⟨_, fence_executes _ ⟨rfl, rfl, rfl⟩ ⟨by decide, by decide, by decide⟩,
    ⟨by decide, by decide, by decide, by decide, by decide, by decide, by decide⟩⟩

/-- A misaligned block, a block that ends one doubleword past the region, and an unknown id. -/
theorem witness_CommandErrors :
    (∃ t, (withBlock State.reset 0x3004 []).Executes .fence t ∧ t.valueAt tohostAddr 8 % 8 ≠ 0) ∧
    (∃ t, (withBlock State.reset 0xFFFC8 []).Executes .fence t ∧ t.valueAt tohostAddr 8 ≠ 0 ∧
      t.valueAt tohostAddr 8 % 8 = 0 ∧ ¬ t.cfg.InRange (t.valueAt tohostAddr 8) 64) ∧
    (∃ t, (withBlock State.reset 0x3000 [1]).Executes .fence t ∧ t.Commands 1 0 0 0) :=
  ⟨⟨_, fence_executes _ ⟨rfl, rfl, rfl⟩ ⟨by decide, by decide, by decide⟩, by decide⟩,
    ⟨_, fence_executes _ ⟨rfl, rfl, rfl⟩ ⟨by decide, by decide, by decide⟩, by decide, by decide, by decide⟩,
    _, fence_executes _ ⟨rfl, rfl, rfl⟩ ⟨by decide, by decide, by decide⟩,
    ⟨by decide, by decide, by decide, by decide, by decide, by decide, by decide⟩⟩

/-- A step that leaves a command pending, at the last count that goes on. -/
def atLastCount (s : State) : State := { s with cycleCount := 0xFFFFFFFFFFFFFFFE }

/-- A buffer that ends at the end of the region, and an empty one anywhere; the host's answer an error, and a count over
the length. -/
theorem witness_ReadCommandCompletes : (∃ t,
      (atLastCount (withBlock State.reset 0x3000 [63, 2, 0xFFFFC, 4])).Executes .fence t ∧ t.cfg.valid = true ∧
      t.Commands 63 2 0xFFFFC 4 ∧ t.cfg.InRange 0xFFFFC 4) ∧
    (atLastCount State.reset).cycleCount.toNat + 1 < 2 ^ 64 ∧
    (withBlock State.reset 0x3000 [63, 0, 0xFFFFFFFF, 0]).Commands 63 0 0xFFFFFFFF 0 ∧
    { State.reset with hostIn := [⟨none, []⟩] }.hostAnswer.bounded 4 = none ∧
    { State.reset with hostIn := [⟨some 9, []⟩] }.hostAnswer.bounded 4 = some 4 :=
  ⟨⟨_, fence_executes _ ⟨rfl, rfl, rfl⟩ ⟨by decide, by decide, by decide⟩, rfl,
      ⟨by decide, by decide, by decide, by decide, by decide, by decide, by decide⟩, by decide⟩, by decide,
    ⟨by decide, by decide, by decide, by decide, by decide, by decide, by decide⟩, rfl, rfl⟩

theorem witness_WriteCommandCompletes : (∃ t,
      (atLastCount (withBlock State.reset 0x3000 [64, 2, 0xFFFFC, 4])).Executes .fence t ∧ t.cfg.valid = true ∧
      t.Commands 64 2 0xFFFFC 4 ∧ t.hostFile 2 = some .stderr ∧ t.cfg.InRange 0xFFFFC 4) ∧
    (atLastCount State.reset).cycleCount.toNat + 1 < 2 ^ 64 ∧
    (withBlock State.reset 0x3000 [64, 0, 0xFFFFFFFF, 0]).Commands 64 0 0xFFFFFFFF 0 :=
  ⟨⟨_, fence_executes _ ⟨rfl, rfl, rfl⟩ ⟨by decide, by decide, by decide⟩, rfl,
      ⟨by decide, by decide, by decide, by decide, by decide, by decide, by decide⟩, rfl, by decide⟩, by decide,
    ⟨by decide, by decide, by decide, by decide, by decide, by decide, by decide⟩⟩

/-- A step that leaves this command pending. -/
theorem commands_of_fence {s : State} {id a0 a1 a2 : Nat} (hr : s.Ready) (hf : s.Fetches 0x0FF0000F)
    (hc : s.captureFetch.Commands id a0 a1 a2) : ∃ t, s.Executes .fence t ∧ t.Commands id a0 a1 a2 :=
  ⟨_, fence_executes s hr hf, hc⟩

theorem witness_ReadAndWriteCommandErrors :
    (∃ t, (withBlock State.reset 0x3000 [63, 3, 0x3100, 4]).Executes .fence t ∧ t.Commands 63 3 0x3100 4) ∧
    (∃ t, (withBlock State.reset 0x3000 [63, 0, 0xFFFFD, 4]).Executes .fence t ∧ t.Commands 63 0 0xFFFFD 4) ∧
    ¬ State.reset.cfg.InRange 0xFFFFD 4 ∧
    (∃ t, (withBlock State.reset 0x3000 [64, 0, 0xFFFFD, 4]).Executes .fence t ∧ t.Commands 64 0 0xFFFFD 4) ∧
    (∃ t, (withBlock State.reset 0x3000 [64, 3, 0xFFFFC, 4]).Executes .fence t ∧ t.Commands 64 3 0xFFFFC 4) ∧
    State.reset.cfg.InRange 0xFFFFC 4 :=
  ⟨commands_of_fence ⟨rfl, rfl, rfl⟩ ⟨by decide, by decide, by decide⟩
      ⟨by decide, by decide, by decide, by decide, by decide, by decide, by decide⟩,
    commands_of_fence ⟨rfl, rfl, rfl⟩ ⟨by decide, by decide, by decide⟩
      ⟨by decide, by decide, by decide, by decide, by decide, by decide, by decide⟩, by decide,
    commands_of_fence ⟨rfl, rfl, rfl⟩ ⟨by decide, by decide, by decide⟩
      ⟨by decide, by decide, by decide, by decide, by decide, by decide, by decide⟩,
    commands_of_fence ⟨rfl, rfl, rfl⟩ ⟨by decide, by decide, by decide⟩
      ⟨by decide, by decide, by decide, by decide, by decide, by decide, by decide⟩, by decide⟩

theorem witness_ServiceLeavesTheHartAlone : (∃ st t, htifService State.reset = .ok (st, t)) ∧
    State.reset.cfg.valid = true ∧ State.reset.valueAt tohostAddr 8 = 0 := ⟨⟨_, _, rfl⟩, by decide, by decide⟩

/-- An EXIT (its step is `witness_ExitCommandEndsTheRun`), an error, the limit, a step that goes on, each ended run, and
a launch that fails and one that does not. -/
theorem witness_DriverExitStatus : htif 0x3000 [93, 42] = step (withBlock State.reset 0x3000 [93, 42]) ∧
    (State.reset.runStatus = .running ∧ step (ready State.reset 0) = .fault (.unknownOpcode 0)) ∧
    limitReached { State.reset with cfg := ⟨0, 0x100000, some 0, false⟩ } = true ∧
    (∃ u, step (ready State.reset 0x0FF0000F) = .next u ∧ u.runStatus = .running) ∧
    (State.reset.withStatus (.exited 7)).runStatus = .exited 7 ∧
    (State.reset.withStatus (.errored (.unknownOpcode 0))).runStatus = .errored (.unknownOpcode 0) ∧
    (State.reset.withStatus .stopped).runStatus = .stopped ∧ Config.ofSpecExamples.valid = true ∧
    { exampleExecutable with elfMagic := false }.valid Config.ofSpecExamples = false ∧
    exampleExecutable.valid Config.ofSpecExamples = true ∧ exampleExecutable.start ≠ none :=
  ⟨rfl, ⟨rfl, rfl⟩, by decide, ⟨_, rfl, rfl⟩, rfl, rfl, rfl, by decide, by decide, by decide, by decide⟩

/-- R184: a step asked of a run that has exited with 7 leaves the code 7; R155: `LoaderError` gives 1. -/
theorem test_driver_exit : driverExit (.exited 7) (step (State.reset.withStatus (.exited 7))) = some 7 ∧
    driverExit .running (launch Config.ofSpecExamples [] { exampleExecutable with start := none }) = some 1 := by decide

/-- With TRACE set, and without. -/
theorem witness_TraceEmitsOneLine :
    (∃ t u, (ready { State.reset with cfg := ⟨0, 0x100000, none, true⟩ } 0x0FF0000F).Executes .fence t ∧
      step (ready { State.reset with cfg := ⟨0, 0x100000, none, true⟩ } 0x0FF0000F) = .next u) ∧
    ∃ t u, (ready State.reset 0x0FF0000F).Executes .fence t ∧ step (ready State.reset 0x0FF0000F) = .next u :=
  ⟨⟨_, _, fence_executes _ ⟨rfl, rfl, rfl⟩ ⟨by decide, by decide, by decide⟩, rfl⟩,
    _, _, fence_executes _ ⟨rfl, rfl, rfl⟩ ⟨by decide, by decide, by decide⟩, rfl⟩

/-- The widest and the narrowest field. -/
theorem witness_BitUtilityInvariants : (1 ≤ 32 ∧ 32 ≤ 32) ∧ (1 ≤ 32 ∧ 0 + 32 ≤ 32) ∧ (1 ≤ 1 ∧ 31 + 1 ≤ 32) := by decide

end Sys2Proof.Tests
end

section
/-! SUPPORT. The bit utilities of 00_scope.md R12 and R17: what `sext`, `insertBits` and `extractBits` do to each other,
and the bits they give. -/

namespace Sys2Proof

variable {n sh k i : Nat} {v d s : Word}

/-! ### Sign extension -/

/-- Below bit `n`, sign extension changes nothing (R12). -/
theorem setWidth_sext (hn : n ≤ 32) : (sext n v).setWidth n = v.setWidth n := by
  ext i hi
  have hi32 : i < 32 := by omega
  simp [sext, BitVec.getElem_signExtend, hi, hi32]

theorem sext_sext (hn : n ≤ 32) : sext n (sext n v) = sext n v :=
  congrArg (BitVec.signExtend 32) (setWidth_sext hn)

/-! ### Masks and fields -/

@[simp] theorem getElem_lowMask (hi : i < 32) : (lowMask n)[i] = decide (i < n) := by
  rw [← BitVec.getLsbD_eq_getElem hi, lowMask, BitVec.getLsbD_ofNat, Nat.testBit_two_pow_sub_one]
  simp [hi]

theorem toNat_and_lowMask (hk : k ≤ 32) : (s &&& lowMask k).toNat = s.toNat % 2 ^ k := by
  have hpow : 2 ^ k ≤ 2 ^ 32 := Nat.pow_le_pow_right (by decide) hk
  have hpos := Nat.two_pow_pos k
  have hmask : (lowMask k).toNat = 2 ^ k - 1 := Nat.mod_eq_of_lt (by omega)
  rw [BitVec.toNat_and, hmask, Nat.and_two_pow_sub_one_eq_mod]

/-- Bit `i` of an extracted field is bit `sh + i` of the word, and 0 from bit `k` on (R9). -/
theorem getElem_extractBits (hi : i < 32) :
    (extractBits v sh k)[i] = (v.getLsbD (sh + i) && decide (i < k)) := by
  simp [extractBits]

/-- Inside the inserted field `[sh, sh + k)` stand the low bits of the source (R17). -/
theorem getLsbD_insertBits_field (hi : i < k) (hw : sh + i < 32) :
    (insertBits d s sh k).getLsbD (sh + i) = s.getLsbD i := by
  have hi32 : i < 32 := by omega
  simp [insertBits, hi, hw, hi32]

/-- What is extracted from an inserted field is the source's low bits (90_conflicts.md C11). -/
theorem extractBits_insertBits (hw : sh + k ≤ 32) : extractBits (insertBits d s sh k) sh k = s &&& lowMask k := by
  ext i hi
  rw [getElem_extractBits hi, BitVec.getElem_and, getElem_lowMask hi]
  by_cases hik : i < k
  · rw [getLsbD_insertBits_field hik (by omega), BitVec.getLsbD_eq_getElem hi]
  · simp [hik]

/-- Settles O58: an extended value keeps its low bits, and an extracted field is the source under its mask. -/
theorem bitUtilityInvariants : Obligations.BitUtilityInvariants := by
  refine ⟨fun v n _ hn => ?_, fun d s sh k _ hw => ?_⟩
  · rw [sext_sext hn]
    exact BitVec.xor_self
  · rw [extractBits_insertBits hw, toNat_and_lowMask (by omega)]

end Sys2Proof
end

section
/-! SUPPORT. What a whole step keeps and counts (40_step.md R97, R103, R104): the invariant and the cycle counter through
its parts; and that neither the service nor a run that has ended touches the hart (10_state.md R20 to R33). -/

namespace Sys2Proof.Machine

variable {s t u : State} {i : Instr}

/-! ### The reset state -/

/-- Settles O4: each part of the invariant holds of the values R36 gives. -/
theorem resetMeetsInvariant : Obligations.ResetMeetsInvariant where
  config := by decide
  memory := ⟨⟨.nil, fun _ hc => nomatch hc⟩, fun _ hc => nomatch hc⟩
  zero := by decide
  flag := fun _ => rfl
  files := rfl

/-! ### Ended runs (R33) -/

theorem step_of_exited {v : Word} (hc : s.cfg.valid = true) (hr : s.runStatus = .exited v) :
    step s = .fault .runEnded := by
  simp [step, runTurn, hc, hr]

theorem step_of_errored {k : Fault} (hc : s.cfg.valid = true) (hr : s.runStatus = .errored k) : step s = .fault k := by
  simp [step, runTurn, hc, hr]

theorem step_of_stopped (hc : s.cfg.valid = true) (hr : s.runStatus = .stopped) : step s = .fault .runEnded := by
  simp [step, runTurn, hc, hr]

/-- Settles O46: one clause for each status a run can end with. -/
theorem endedRunsMakeNoStep : Obligations.EndedRunsMakeNoStep :=
  fun _ hc => ⟨fun _ => step_of_exited hc, fun _ => step_of_errored hc, step_of_stopped hc⟩

/-! ### The service -/

/-- Settles O54: the service's frame, and the service with no command pending. -/
theorem serviceLeavesTheHartAlone : Obligations.ServiceLeavesTheHartAlone := by
  refine ⟨fun s t st h => ?_, fun s hc h0 => htifService_idle hc h0⟩
  have hf := ServiceFrame.of_htifService h
  exact ⟨State.x_congr hf.regs, ⟨hf.pc, hf.branchTaken⟩, hf.cycleCount, hf.fetchAddress, hf.fdTable, hf.runStatus,
    hf.traceLog, hf.cfg⟩

/-! ### The invariant through a step -/

/-- The invariant apart from the flag: what every part of a step keeps. The flag's part holds only between steps. -/
structure State.InvButFlag (s : State) : Prop where
  config : s.cfg.valid = true
  memory : s.MemoryInv
  zero : s.regs[0] = 0
  files : s.fdTable = fdTableAtReset

theorem ExecNext.invButFlag (hn : ExecNext i s t) (h : s.InvButFlag) : t.InvButFlag where
  config := hn.sameOutside.cfg ▸ h.config
  memory := hn.memoryInv h.memory
  zero := hn.zero.trans h.zero
  files := hn.sameOutside.fdTable.trans h.files

theorem State.InvButFlag.traceAfter (h : t.InvButFlag) : (traceAfter i s t).InvButFlag := by
  rw [traceAfter_eq]
  exact ⟨h.config, h.memory, h.zero, h.files⟩

theorem ServiceFrame.invButFlag (hf : ServiceFrame s t) (h : s.InvButFlag) : t.InvButFlag where
  config := hf.cfg ▸ h.config
  memory := hf.memory h.memory
  zero := by simpa only [hf.regs] using h.zero
  files := hf.fdTable.trans h.files

/-- The end of a step gives the flag's part, whatever the instruction left in the flag: an exit ends the run, and the
pc advance clears the flag (R103, R170). -/
theorem State.InvButFlag.finishStep (h : s.InvButFlag) (hs : finishStep s = .next t) : t.Inv := by
  obtain ⟨v, u, hu, rfl⟩ | ⟨u, hu, -, rfl⟩ := finishStep_next hs
  · have h' := (ServiceFrame.of_htifService hu).invButFlag h
    exact ⟨h'.config, h'.memory, h'.zero, by simp, h'.files⟩
  · have h' := (ServiceFrame.of_htifService hu).invButFlag h
    exact ⟨h'.config, h'.memory, h'.zero, fun _ => rfl, h'.files⟩

theorem State.Inv.coreStep (h : s.Inv) (hs : coreStep s = .next t) : t.Inv := by
  obtain ⟨i, u, -, hx, hfin⟩ := coreStep_next hs
  have hfetch : s.captureFetch.InvButFlag := ⟨h.config, h.memory, h.zero, h.files⟩
  exact ((execNext_of_exec hx).invButFlag hfetch).traceAfter.finishStep hfin

/-- Stopping at the limit keeps the invariant: the run was between steps, with the flag clear. -/
theorem State.Inv.stopped (h : s.Inv) (hr : s.runStatus = .running) : (s.withStatus .stopped).Inv :=
  ⟨h.config, h.memory, h.zero, fun _ => h.flag (.inl hr), h.files⟩

/-- Settles O6, by the two ways a step answers a next state. -/
theorem stepKeepsInvariant : Obligations.StepKeepsInvariant := by
  intro s t hs h
  obtain ⟨-, hr, ⟨-, rfl⟩ | ⟨-, hcore⟩⟩ := step_next h
  · exact hs.stopped hr
  · exact hs.coreStep hcore

/-! ### The cycle counter through a step -/

/-- Below its last value the counter goes up by one without wrapping (R28). -/
theorem State.countCycle_toNat (h : s.cycleCount ≠ BitVec.allOnes 64) :
    s.countCycle.cycleCount.toNat = s.cycleCount.toNat + 1 := by
  have hne : s.cycleCount.toNat ≠ 2 ^ 64 - 1 := fun e => h (BitVec.eq_of_toNat_eq e)
  have hlt := s.cycleCount.isLt
  exact BitVec.toNat_add_of_lt (show s.cycleCount.toNat + 1 < 2 ^ 64 by omega)

/-- The end of a step exits with the count as it was, or goes on with one more (R104, R170). -/
theorem finishStep_cycleCount (h : finishStep s = .next t) :
    ((∃ v, t.runStatus = .exited v) ∧ t.cycleCount = s.cycleCount) ∨
    (t.runStatus = s.runStatus ∧ t.cycleCount.toNat = s.cycleCount.toNat + 1) := by
  obtain ⟨v, u, hu, rfl⟩ | ⟨u, hu, hc, rfl⟩ := finishStep_next h <;> have hf := ServiceFrame.of_htifService hu
  · exact .inl ⟨⟨v, rfl⟩, hf.cycleCount⟩
  · refine .inr ⟨hf.runStatus, ?_⟩
    rw [State.countCycle_toNat (by simpa using hc), State.advancePc_cycleCount, hf.cycleCount]

/-- The same for the step of a running core: its instruction touches neither the count nor the run status. -/
theorem coreStep_cycleCount (h : coreStep s = .next t) :
    ((∃ v, t.runStatus = .exited v) ∧ t.cycleCount = s.cycleCount) ∨
    (t.runStatus = s.runStatus ∧ t.cycleCount.toNat = s.cycleCount.toNat + 1) := by
  obtain ⟨i, u, -, hx, hfin⟩ := coreStep_next h
  have ho := (execNext_of_exec hx).sameOutside
  simpa [ho.cycleCount, ho.runStatus] using finishStep_cycleCount hfin

/-- A step that executes `i` is the end of the step at the state `i` left, its trace line emitted (R97). -/
theorem State.Executes.step_eq (h : s.Executes i t) : step s = finishStep (traceAfter i s.captureFetch t) := by
  obtain ⟨w, hw, hd⟩ := h.fetched
  rw [step_eq_coreStep h.ready.config h.ready.running h.ready.limit,
    coreStep_of_exec (fetchInstr_of_fetches hw hd) h.executed]

/-- The instruction of a step leaves alone what the step owns, but for the fetch address captured before it. -/
theorem State.Executes.sameOutside (h : s.Executes i t) : SameOutside s.captureFetch t :=
  (execNext_of_exec h.executed).sameOutside

/-- With no command pending, the end of a step is the pc advance and the count (R97 (4), (5)). -/
theorem finishStep_idle (hc : s.cfg.valid = true) (h0 : s.valueAt tohostAddr 8 = 0) :
    finishStep s = completeStep s := by
  rw [finishStep, htifService_idle hc h0]

/-- The count has no value past 2^64 - 1 (log 11). -/
theorem completeStep_overflow (h : s.cycleCount = BitVec.allOnes 64) : completeStep s = .fault .cycleCountOverflow :=
  if_pos h

/-- Settles O44: by the ways a step answers a next state, and for the last clause by running the step to its end. -/
theorem cycleCountCountsCompletedSteps : Obligations.CycleCountCountsCompletedSteps := by
  refine ⟨fun s u h => ?_, fun s t i hx h0 hlast => ?_⟩
  · obtain ⟨-, hr, ⟨-, rfl⟩ | ⟨-, hcore⟩⟩ := step_next h
    · exact ⟨(nomatch ·), fun _ => rfl⟩
    · obtain ⟨⟨v, hv⟩, hcount⟩ | ⟨hrun, hcount⟩ := coreStep_cycleCount hcore
      · exact ⟨fun hrun => by simp [hv] at hrun, fun _ => hcount⟩
      · exact ⟨fun _ => hcount, fun hne => absurd (hrun.trans hr) hne⟩
  · have ho := hx.sameOutside
    have hall : s.cycleCount = BitVec.allOnes 64 := BitVec.eq_of_toNat_eq (Nat.succ_injective hlast)
    rw [hx.step_eq, finishStep_idle, completeStep_overflow]
    · simpa [ho.cycleCount] using hall
    · simpa [ho.cfg] using hx.ready.config
    · rw [traceAfter_valueAt, h0]

end Sys2Proof.Machine
end

section
/-! SUPPORT. The registers an instruction depends on (10_state.md R20, R22): what rd = x0 leaves of a rule, and that no
source but rs1 and rs2 is read. -/

namespace Sys2Proof.Machine

variable {s s' : State} {rd rs : Reg} {ea : Word} {n : Nat} {ext : Word → Word} {k : Fault}

/-! ### rd = x0 -/

/-- A load's errors are those of its read, whatever rd is. -/
theorem loadInto_fault_iff : loadInto rd n ext ea s = .fault k ↔ memRead s ea.toNat n = .error k := by
  unfold loadInto
  cases memRead s ea.toNat n <;> simp [raise, writeResult]

theorem loadInto_fault_congr {rd' : Reg} : loadInto rd n ext ea s = .fault k ↔ loadInto rd' n ext ea s = .fault k :=
  loadInto_fault_iff.trans loadInto_fault_iff.symm

/-- The target of JAL as a sum of integers (42_jumps.md R110). -/
theorem State.jumpTarget_eq_ofInt (s : State) (offset : BitVec 21) :
    s.jumpTarget offset = BitVec.ofInt 32 (s.pc.toNat + offset.toInt) := by
  rw [BitVec.ofInt_add, BitVec.ofInt_natCast, BitVec.ofNat_toNat, BitVec.setWidth_eq]
  rfl

/-- The target of JALR as a sum of integers, its bit 0 cleared (42_jumps.md R111). -/
theorem State.indirectTarget_eq_ofInt (s : State) (rs1 : Reg) (imm : BitVec 12) :
    s.indirectTarget rs1 imm = BitVec.ofInt 32 ((s.x rs1).toInt + imm.toInt) &&& 0xFFFFFFFE := by
  rw [BitVec.ofInt_add, BitVec.ofInt_toInt]
  rfl

/-- Settles O19: a load's errors do not depend on rd, and with rd = x0 a jump only writes the pc. -/
theorem registerZeroIsHardwired : Obligations.RegisterZeroIsHardwired := by
  refine ⟨State.x_zero, fun s v r => by rw [s.setX_zero], fun s rd rs1 imm k => ?_, fun s offset => ?_,
    fun s rs1 imm => ?_⟩
  · refine ⟨?_, ?_, ?_, ?_, ?_⟩ <;> exact loadInto_fault_congr
  · exact ⟨_, rfl, fun _ => rfl, s.jumpTarget_eq_ofInt offset, rfl⟩
  · exact ⟨_, rfl, fun _ => rfl, s.indirectTarget_eq_ofInt rs1 imm, rfl⟩

/-! ### Sources -/

/-- Two states that differ in no field an instruction reads but the registers. -/
structure AgreesButRegs (s s' : State) : Prop where
  cfg : s'.cfg = s.cfg
  pc : s'.pc = s.pc
  flag : s'.branchTaken = s.branchTaken
  mem : s'.mem = s.mem

/-- Two outcomes of one instruction with the same effect: the same error, or next states with the same rd, pc, flag and
memory. -/
inductive SameEffect (rd? : Option Reg) :
    Host.Outcome State Fault Refusal → Host.Outcome State Fault Refusal → Prop where
  | fault (k : Fault) : SameEffect rd? (.fault k) (.fault k)
  | next {t t' : State} (rd : ∀ rd, rd? = some rd → t'.x rd = t.x rd) (agrees : AgreesButRegs t t') :
      SameEffect rd? (.next t) (.next t')

/-- rd holds the value written to it, whatever the other registers hold. -/
theorem State.x_setX_congr (s s' : State) (rd : Reg) (v : Word) : (s'.setX rd v).x rd = (s.setX rd v).x rd :=
  (s'.setX_regWritten rd v).1.trans (s.setX_regWritten rd v).1.symm

theorem State.effectiveAddress_congr (h : s'.x rs = s.x rs) (imm : BitVec 12) :
    s'.effectiveAddress rs imm = s.effectiveAddress rs imm :=
  congrArg (· + extendImm imm) h

theorem State.shiftAmount_congr (h : s'.x rs = s.x rs) : s'.shiftAmount rs = s.shiftAmount rs := by
  rw [State.shiftAmount, State.shiftAmount, h]

namespace AgreesButRegs

variable (hs : AgreesButRegs s s')
include hs

theorem setX (v v' : Word) : AgreesButRegs (s.setX rd v) (s'.setX rd v') := ⟨hs.cfg, hs.pc, hs.flag, hs.mem⟩

theorem writePc (target : Word) : AgreesButRegs (s.writePc target) (s'.writePc target) := ⟨hs.cfg, rfl, rfl, hs.mem⟩

theorem withMem (m : Memory) : AgreesButRegs (s.withMem m) (s'.withMem m) := ⟨hs.cfg, hs.pc, hs.flag, rfl⟩

theorem memRead_eq (a : Nat) : memRead s' a n = memRead s a n :=
  memRead_congr hs.cfg fun _ _ => by rw [State.byte, State.byte, hs.mem]

end AgreesButRegs

/-! ### The shared forms of meanings have the same effect when their operands agree -/

namespace SameEffect

variable (hs : AgreesButRegs s s')
include hs

theorem writeResult {v v' : Word} (hv : v' = v) : SameEffect (some rd) (writeResult rd v s) (writeResult rd v' s') := by
  subst hv
  exact .next (fun _ h => Option.some.inj h ▸ State.x_setX_congr s s' rd _) (hs.setX _ _)

theorem linkAndJump {target target' : Word} (ht : target' = target) :
    SameEffect (some rd) (linkAndJump rd target s) (linkAndJump rd target' s') := by
  subst ht
  have hl : s'.linkValue = s.linkValue := congrArg (· + 4) hs.pc
  refine .next (fun q h => ?_) ((hs.setX _ _).writePc _)
  rw [← Option.some.inj h, State.x_writePc, State.x_writePc, hl, State.x_setX_congr s s']

theorem branchIf {c c' : Bool} (hc : c' = c) (offset : BitVec 13) :
    SameEffect none (branchIf c offset s) (branchIf c' offset s') := by
  subst hc
  have ht : s'.branchTarget offset = s.branchTarget offset := congrArg (· + offset.signExtend 32) hs.pc
  cases c'
  · exact .next (fun _ h => nomatch h) hs
  · rw [branchIf_taken rfl, branchIf_taken rfl, ht]
    exact .next (fun _ h => nomatch h) (hs.writePc _)

theorem loadInto {ea ea' : Word} (he : ea' = ea) :
    SameEffect (some rd) (loadInto rd n ext ea s) (loadInto rd n ext ea' s') := by
  subst he
  unfold Machine.loadInto
  rw [hs.memRead_eq]
  cases memRead s ea'.toNat n with
  | error k => exact .fault k
  | ok v => exact .writeResult hs rfl

theorem storeFrom {ea ea' w w' : Word} (he : ea' = ea) (hw : w' = w) :
    SameEffect none (storeFrom n ea w s) (storeFrom n ea' w' s') := by
  subst he hw
  by_cases ha : ea'.toNat % n = 0
  · by_cases hr : s.cfg.InRange ea'.toNat n
    · rw [storeFrom_eq_next ha hr, storeFrom_eq_next ha (hs.cfg ▸ hr), hs.mem]
      exact .next (fun _ h => nomatch h) (hs.withMem _)
    · rw [storeFrom_outOfRange ha hr, storeFrom_outOfRange ha (hs.cfg ▸ hr)]
      exact .fault _
  · rw [storeFrom_misaligned ha, storeFrom_misaligned ha]
    exact .fault _

end SameEffect

/-- Said once for every instruction: where the registers named rs1 and rs2 agree, so do the effects. The cases are
grouped by the operands the instruction reads. -/
theorem exec_sameEffect (i : Instr) (hs : AgreesButRegs s s')
    (hr : ∀ r : Reg, i.rs1? = some r ∨ i.rs2? = some r → s'.x r = s.x r) :
    SameEffect i.rd? (exec i s) (exec i s') := by
  have h1 : ∀ {r}, i.rs1? = some r → s'.x r = s.x r := fun h => hr _ (.inl h)
  have h2 : ∀ {r}, i.rs2? = some r → s'.x r = s.x r := fun h => hr _ (.inr h)
  cases i with
  | lui => exact .writeResult hs rfl
  | auipc => exact .writeResult hs (by rw [hs.pc])
  | jal => exact .linkAndJump hs (by rw [State.jumpTarget, State.jumpTarget, hs.pc])
  | jalr => exact .linkAndJump hs (congrArg (· &&& ~~~1) (State.effectiveAddress_congr (h1 rfl) _))
  | beq | bne | blt | bge | bltu | bgeu => exact .branchIf hs (by rw [h1 rfl, h2 rfl]) _
  | lb | lh | lw | lbu | lhu => exact .loadInto hs (State.effectiveAddress_congr (h1 rfl) _)
  | sb | sh | sw => exact .storeFrom hs (State.effectiveAddress_congr (h1 rfl) _) (h2 rfl)
  | addi | slti | sltiu | xori | ori | andi | slli | srli | srai => exact .writeResult hs (by rw [h1 rfl])
  | add | sub | slt | sltu | xor | or | and => exact .writeResult hs (by rw [h1 rfl, h2 rfl])
  | sll | srl | sra => exact .writeResult hs (by rw [h1 rfl, State.shiftAmount_congr (h2 rfl)])
  | fence | ecall | ebreak => exact .next (fun _ h => nomatch h) hs

/-- Settles O22: states that differ in registers alone agree in every other field an instruction reads. -/
theorem readsOnlySourceRegisters : Obligations.ReadsOnlySourceRegisters := by
  intro i s regs s' hr
  have heff := exec_sameEffect i (s := s) (s' := s') ⟨rfl, rfl, rfl, rfl⟩ hr
  refine ⟨fun k hk => ?_, fun t ht => ?_⟩
  · rw [hk] at heff
    generalize exec i s' = o at heff
    cases heff
    rfl
  · rw [ht] at heff
    generalize exec i s' = o at heff
    cases heff with
    | next hrd ha => exact ⟨_, rfl, hrd, ha.pc, ha.flag, ha.mem⟩

end Sys2Proof.Machine
end

section
/-! SUPPORT. The memory accesses as the spec's rules put them (20_memory.md R41, R43, R47 to R49, R59): the alignment check
on bits of the address, a value as the sum of its bytes and as the values of its parts, block copies, and that only a
bad configuration refuses a step. -/

namespace Sys2Proof.Machine

variable {s t : State} {a n v k len : Nat} {bs : List Byte}

/-! ### MemRead (R47) -/

/-- The low `k` bits of an address are 0 exactly when it is a multiple of `2 ^ k`. -/
theorem extractLsb'_zero_ne_zero_iff (a : Word) (k : Nat) : a.extractLsb' 0 k ≠ 0 ↔ a.toNat % 2 ^ k ≠ 0 := by
  simp [← BitVec.toNat_inj]

/-- R44 speaks of bits of the address, the model of its remainder: the same for each width. -/
theorem misaligned_iff (a : Word) (hn : n ∈ [1, 2, 4, 8]) :
    ((n = 2 ∧ a.extractLsb' 0 1 ≠ 0) ∨ (n = 4 ∧ a.extractLsb' 0 2 ≠ 0) ∨ (n = 8 ∧ a.extractLsb' 0 3 ≠ 0)) ↔
      a.toNat % n ≠ 0 := by
  rw [extractLsb'_zero_ne_zero_iff, extractLsb'_zero_ne_zero_iff, extractLsb'_zero_ne_zero_iff]
  simp only [List.mem_cons, List.not_mem_nil, or_false] at hn
  obtain rfl | rfl | rfl | rfl := hn <;> simp [Nat.mod_one]

/-- The value at an address as the sum R47 writes out. -/
theorem State.valueAt_eq_sum (s : State) (a n : Nat) :
    s.valueAt a n = ∑ k ∈ Finset.range n, (s.byte (a + k)).toNat * 2 ^ (8 * k) := by
  induction n with
  | zero => rfl
  | succ n ih => rw [Finset.sum_range_succ, ← ih, State.valueAt]

/-- Settles O15: the two checks in order, then the sum. -/
theorem memReadChecksThenSums : Obligations.MemReadChecksThenSums := by
  intro s a n hn misaligned inRange
  have hmis : misaligned ↔ a.toNat % n ≠ 0 := misaligned_iff a hn
  have hal (h : ¬ misaligned) : a.toNat % n = 0 := not_not.1 (mt hmis.2 h)
  refine ⟨fun h => memRead_misaligned (hmis.1 h), fun h => memRead_outOfRange (hal h), fun h hr => ?_⟩
  rw [memRead_eq_ok (hal h) hr, s.valueAt_eq_sum]

/-! ### MemWrite (R48) -/

/-- A write fails as the read of its bytes does. -/
theorem memWrite_error_of_memRead {e : Fault} (h : memRead s a n = .error e) : memWrite s a n v = .error e := by
  obtain ⟨ha, rfl⟩ | ⟨ha, hr, rfl⟩ := memRead_error_iff.1 h
  · exact memWrite_misaligned ha
  · exact memWrite_outOfRange ha hr

/-- Settles O16: what can be read can be written, with `writeBytes_storesOnly` for the whole effect. -/
theorem memWriteStoresItsBytesOnly : Obligations.MemWriteStoresItsBytesOnly := by
  refine fun s a n v _ => ⟨fun e => memWrite_error_of_memRead, fun r h => ?_⟩
  obtain ⟨ha, hr, -⟩ := memRead_ok_iff.1 h
  refine ⟨_, memWrite_eq_ok ha hr, writeBytes_storesOnly s a.toNat n v, ?_⟩
  exact memRead_ok_iff.2 ⟨ha, hr, valueAt_writeBytes_same⟩

/-! ### Mixed-width views (R43) -/

/-- A value is that of its first bytes below that of the bytes after them. -/
theorem State.valueAt_add (s : State) (a m n : Nat) :
    s.valueAt a (m + n) = s.valueAt a m + s.valueAt (a + m) n * 2 ^ (8 * m) := by
  induction n with
  | zero => simp [State.valueAt]
  | succ n ih =>
    rw [← Nat.add_assoc, State.valueAt, ih, State.valueAt, Nat.mul_add, Nat.pow_add, Nat.add_assoc a]
    ring

/-- The first bytes of a value are its low bits. -/
theorem State.valueAt_add_mod (s : State) (a m n : Nat) : s.valueAt a (m + n) % 2 ^ (8 * m) = s.valueAt a m := by
  rw [s.valueAt_add, Nat.add_mul_mod_self_right, Nat.mod_eq_of_lt (s.valueAt_lt a m)]

/-- The bytes after them are its high bits. -/
theorem State.valueAt_add_div (s : State) (a m n : Nat) : s.valueAt a (m + n) / 2 ^ (8 * m) = s.valueAt (a + m) n := by
  rw [s.valueAt_add, Nat.add_mul_div_right _ _ (Nat.two_pow_pos _), Nat.div_eq_of_lt (s.valueAt_lt a m), Nat.zero_add]

/-- Byte `k` of a value stands in its bits `8k+7 : 8k`. -/
theorem State.valueAt_byte (s : State) (a : Nat) (h : k < n) :
    s.valueAt a n / 2 ^ (8 * k) % 256 = s.valueAt (a + k) 1 := by
  obtain ⟨j, rfl⟩ := Nat.exists_eq_add_of_lt h
  rw [Nat.add_assoc, s.valueAt_add_div, Nat.add_comm j]
  exact s.valueAt_add_mod (a + k) 1 j

/-- A byte of the region can be read: one byte has no alignment. -/
theorem memRead_byte (hr : s.cfg.InRange a 1) : memRead s a 1 = .ok (s.valueAt a 1) :=
  memRead_eq_ok (Nat.mod_one a) hr

/-- A byte written over the last of the `n + 1` bytes of a value replaces its top bits. -/
theorem valueAt_writeBytes_last (s : State) (a n b : Nat) :
    (s.withMem (s.mem.writeBytes (a + n) (leBytes 1 b))).valueAt a (n + 1) =
      s.valueAt a (n + 1) % 2 ^ (8 * n) + b % 256 * 2 ^ (8 * n) := by
  rw [State.valueAt_add, valueAt_writeBytes_outside (.inl le_rfl), valueAt_writeBytes_same, s.valueAt_add_mod,
    show 2 ^ (8 * 1) = 256 from rfl]

/-- Settles O17: a clause for the bytes of a word, one for its last byte stored, one for the words of a doubleword. -/
theorem mixedWidthViews : Obligations.MixedWidthViews := by
  refine ⟨fun s a v h k hk => ?_, fun s t a b v h hw => ?_, fun s a v h => ?_⟩ <;>
    obtain ⟨ha, ⟨hlo, hhi⟩, rfl⟩ := memRead_ok_iff.1 h
  · rw [s.valueAt_byte a hk]
    exact memRead_byte ⟨by omega, by omega⟩
  · obtain ⟨-, -, rfl⟩ := memWrite_ok_iff.1 hw
    exact memRead_ok_iff.2 ⟨ha, ⟨hlo, hhi⟩, valueAt_writeBytes_last s a 3 b⟩
  · have hlow : s.valueAt a 8 % 2 ^ 32 = s.valueAt a 4 := s.valueAt_add_mod a 4 4
    have hhigh : s.valueAt a 8 / 2 ^ 32 = s.valueAt (a + 4) 4 := s.valueAt_add_div a 4 4
    rw [hlow, hhigh]
    exact ⟨memRead_eq_ok (by omega) ⟨hlo, by omega⟩, memRead_eq_ok (by omega) ⟨by omega, by omega⟩⟩

/-! ### Block copies (R49) -/

theorem memReadBlock_outOfRange (h0 : len ≠ 0) (h : ¬ s.cfg.InRange a len) :
    memReadBlock s a len = .error (.outOfRange a len) := by
  rw [memReadBlock, checkBlock_outOfRange h0 h]

theorem memWriteBlock_outOfRange (h0 : bs.length ≠ 0) (h : ¬ s.cfg.InRange a bs.length) :
    memWriteBlock s a bs = .error (.outOfRange a bs.length) := by
  rw [memWriteBlock, checkBlock_outOfRange h0 h]

/-- Settles O18, by its three cases: length 0, a range left, a range of the region. -/
theorem blockCopies : Obligations.BlockCopies := by
  refine fun s a bs => ⟨?_, fun hne hr => ?_, fun _ hr => ⟨?_, ?_⟩⟩
  · rintro rfl
    exact ⟨memReadBlock_ok_iff.2 ⟨.inl rfl, rfl⟩, memWriteBlock_ok_iff.2 ⟨.inl rfl, rfl⟩⟩
  · have h0 : bs.length ≠ 0 := mt List.length_eq_zero_iff.1 hne
    exact ⟨memReadBlock_outOfRange h0 hr, memWriteBlock_outOfRange h0 hr⟩
  · exact ⟨_, memReadBlock_ok_iff.2 ⟨.inr hr, rfl⟩, Memory.length_readBytes _ _ _, Memory.getElem_readBytes _ _ _⟩
  · refine ⟨_, memWriteBlock_ok_iff.2 ⟨.inr hr, rfl⟩, ?_, ?_, fun _ => rfl, ⟨rfl, rfl⟩,
      ⟨rfl, rfl, rfl, rfl, rfl, rfl, rfl, rfl, rfl⟩⟩
    · exact memReadBlock_ok_iff.2 ⟨.inr hr, s.mem.readBytes_writeBytes_same a bs⟩
    · exact fun b hb => s.mem.read_writeBytes_outside a bs hb

/-! ### The configuration (R41) -/

theorem finishStep_ne_refused (s : State) (r : Refusal) : finishStep s ≠ .refused r := by
  unfold finishStep completeStep raise
  split
  · exact nofun
  · exact nofun
  · split <;> exact nofun

/-- A step of the core is never refused: neither its instruction nor its end is. -/
theorem coreStep_ne_refused (s : State) (r : Refusal) : coreStep s ≠ .refused r := by
  unfold coreStep raise
  split
  · exact nofun
  · rename_i i _
    split
    · exact finishStep_ne_refused _ r
    · exact nofun
    · rename_i q hq
      exact absurd hq (exec_ne_refused i _ q)

/-- A running core at its cycle limit stops (40_step.md R107). -/
theorem step_of_limitReached (hc : s.cfg.valid = true) (hr : s.runStatus = .running) (hl : limitReached s = true) :
    step s = .next (s.withStatus .stopped) := by
  simp [step, runTurn, hc, hr, hl]

/-- Under an admissible configuration no status of the run leads to a refusal. -/
theorem step_ne_refused (hc : s.cfg.valid = true) (r : Refusal) : step s ≠ .refused r := by
  cases hs : s.runStatus with
  | running =>
    cases hl : limitReached s with
    | true => exact step_of_limitReached hc hs hl ▸ nofun
    | false => exact step_eq_coreStep hc hs hl ▸ coreStep_ne_refused s r
  | exited v => exact step_of_exited hc hs ▸ nofun
  | errored e => exact step_of_errored hc hs ▸ nofun
  | stopped => exact step_of_stopped hc hs ▸ nofun

theorem step_of_not_valid (hc : s.cfg.valid ≠ true) : step s = .refused .badConfiguration :=
  if_neg hc

theorem step_refused_iff : (∃ r, step s = .refused r) ↔ ¬ s.cfg.valid = true :=
  ⟨fun ⟨r, h⟩ hc => step_ne_refused hc r h, fun hc => ⟨_, step_of_not_valid hc⟩⟩

/-- Settles O47: a step is refused exactly when R41's conjunction fails. -/
theorem badConfigurationIsRefused : Obligations.BadConfigurationIsRefused := by
  intro s
  rw [step_refused_iff, Config.valid_iff]
  omega

/-! ### The fetch of a stored word (R59) -/

/-- Settles O48: the store was aligned and in range, and the fetch reads the four bytes it left. -/
theorem fetchSeesStores : Obligations.FetchSeesStores := by
  intro s t u rs2 rs1 imm h hcfg hmem hpc
  obtain ⟨ha, hr, rfl⟩ := storeFrom_next (n := 4) h
  refine ⟨by rw [hpc, ha], by rw [hpc, hcfg]; exact hr, ?_⟩
  rw [hpc, ← u.leValue_readBytes, hmem, State.leValue_readBytes, valueAt_writeBytes_same,
    Nat.mod_eq_of_lt (s.x rs2).isLt, BitVec.ofNat_toNat, BitVec.setWidth_eq]

end Sys2Proof.Machine
end

section
/-! SUPPORT. The lemmas of `EncodeBearsRow`, one for each constructor, as one statement about every instruction. -/

namespace Sys2Proof.Laws.EncodeBearsRow

theorem forall_instr : ∀ i, Statement i
  | .lui .. => lui .. | .auipc .. => auipc .. | .jal .. => jal .. | .jalr .. => jalr .. | .beq .. => beq ..
  | .bne .. => bne .. | .blt .. => blt .. | .bge .. => bge .. | .bltu .. => bltu .. | .bgeu .. => bgeu ..
  | .lb .. => lb .. | .lh .. => lh .. | .lw .. => lw .. | .lbu .. => lbu .. | .lhu .. => lhu .. | .sb .. => sb ..
  | .sh .. => sh .. | .sw .. => sw .. | .addi .. => addi .. | .slti .. => slti .. | .sltiu .. => sltiu ..
  | .xori .. => xori .. | .ori .. => ori .. | .andi .. => andi .. | .slli .. => slli .. | .srli .. => srli ..
  | .srai .. => srai .. | .add .. => add .. | .sub .. => sub .. | .sll .. => sll .. | .slt .. => slt ..
  | .sltu .. => sltu .. | .xor .. => xor .. | .srl .. => srl .. | .sra .. => sra .. | .or .. => or ..
  | .and .. => and .. | .fence => fence | .ecall => ecall | .ebreak => ebreak

end Sys2Proof.Laws.EncodeBearsRow
end

section
/-! SUPPORT. What the decoder can answer, said once (30_encoding.md R75 to R89): every word has exactly one case, an
instruction selected by its fields or one of the three errors; and the statements about the errors. -/

namespace Sys2Proof

variable {w : Word} {r : Except DecodeError Instr}

/-! ### The cases of the decoder (R75, R86 to R88) -/

/-- The eleven primary opcodes of R74. -/
def primaryOpcodes : List (BitVec 7) :=
  [0x03#7, 0x0F#7, 0x13#7, 0x17#7, 0x23#7, 0x33#7, 0x37#7, 0x63#7, 0x67#7, 0x6F#7, 0x73#7]

/-- R75 as a relation: a case for each instruction, by the fields that select it, and a case for each way a word is no
instruction (R86 to R88). `decode_eq_iff` says that it is the decoder. -/
inductive DecodesTo (w : Word) : Except DecodeError Instr → Prop where
  | lui (op : opcodeOf w = 0x37#7) : DecodesTo w (.ok (.lui (rdOf w) (immUOf w)))
  | auipc (op : opcodeOf w = 0x17#7) : DecodesTo w (.ok (.auipc (rdOf w) (immUOf w)))
  | jal (op : opcodeOf w = 0x6F#7) : DecodesTo w (.ok (.jal (rdOf w) (immJOf w)))
  | jalr (op : opcodeOf w = 0x67#7) : DecodesTo w (.ok (.jalr (rdOf w) (rs1Of w) (immIOf w)))
  | beq (op : opcodeOf w = 0x63#7) (f3 : funct3Of w = 0b000#3) : DecodesTo w (.ok (.beq (rs1Of w) (rs2Of w) (immBOf w)))
  | bne (op : opcodeOf w = 0x63#7) (f3 : funct3Of w = 0b001#3) : DecodesTo w (.ok (.bne (rs1Of w) (rs2Of w) (immBOf w)))
  | blt (op : opcodeOf w = 0x63#7) (f3 : funct3Of w = 0b100#3) : DecodesTo w (.ok (.blt (rs1Of w) (rs2Of w) (immBOf w)))
  | bge (op : opcodeOf w = 0x63#7) (f3 : funct3Of w = 0b101#3) : DecodesTo w (.ok (.bge (rs1Of w) (rs2Of w) (immBOf w)))
  | bltu (op : opcodeOf w = 0x63#7) (f3 : funct3Of w = 0b110#3) :
    DecodesTo w (.ok (.bltu (rs1Of w) (rs2Of w) (immBOf w)))
  | bgeu (op : opcodeOf w = 0x63#7) (f3 : funct3Of w = 0b111#3) :
    DecodesTo w (.ok (.bgeu (rs1Of w) (rs2Of w) (immBOf w)))
  | lb (op : opcodeOf w = 0x03#7) (f3 : funct3Of w = 0b000#3) : DecodesTo w (.ok (.lb (rdOf w) (rs1Of w) (immIOf w)))
  | lh (op : opcodeOf w = 0x03#7) (f3 : funct3Of w = 0b001#3) : DecodesTo w (.ok (.lh (rdOf w) (rs1Of w) (immIOf w)))
  | lw (op : opcodeOf w = 0x03#7) (f3 : funct3Of w = 0b010#3) : DecodesTo w (.ok (.lw (rdOf w) (rs1Of w) (immIOf w)))
  | lbu (op : opcodeOf w = 0x03#7) (f3 : funct3Of w = 0b100#3) : DecodesTo w (.ok (.lbu (rdOf w) (rs1Of w) (immIOf w)))
  | lhu (op : opcodeOf w = 0x03#7) (f3 : funct3Of w = 0b101#3) : DecodesTo w (.ok (.lhu (rdOf w) (rs1Of w) (immIOf w)))
  | sb (op : opcodeOf w = 0x23#7) (f3 : funct3Of w = 0b000#3) : DecodesTo w (.ok (.sb (rs2Of w) (rs1Of w) (immSOf w)))
  | sh (op : opcodeOf w = 0x23#7) (f3 : funct3Of w = 0b001#3) : DecodesTo w (.ok (.sh (rs2Of w) (rs1Of w) (immSOf w)))
  | sw (op : opcodeOf w = 0x23#7) (f3 : funct3Of w = 0b010#3) : DecodesTo w (.ok (.sw (rs2Of w) (rs1Of w) (immSOf w)))
  | addi (op : opcodeOf w = 0x13#7) (f3 : funct3Of w = 0b000#3) :
    DecodesTo w (.ok (.addi (rdOf w) (rs1Of w) (immIOf w)))
  | slti (op : opcodeOf w = 0x13#7) (f3 : funct3Of w = 0b010#3) :
    DecodesTo w (.ok (.slti (rdOf w) (rs1Of w) (immIOf w)))
  | sltiu (op : opcodeOf w = 0x13#7) (f3 : funct3Of w = 0b011#3) :
    DecodesTo w (.ok (.sltiu (rdOf w) (rs1Of w) (immIOf w)))
  | xori (op : opcodeOf w = 0x13#7) (f3 : funct3Of w = 0b100#3) :
    DecodesTo w (.ok (.xori (rdOf w) (rs1Of w) (immIOf w)))
  | ori (op : opcodeOf w = 0x13#7) (f3 : funct3Of w = 0b110#3) : DecodesTo w (.ok (.ori (rdOf w) (rs1Of w) (immIOf w)))
  | andi (op : opcodeOf w = 0x13#7) (f3 : funct3Of w = 0b111#3) :
    DecodesTo w (.ok (.andi (rdOf w) (rs1Of w) (immIOf w)))
  | slli (op : opcodeOf w = 0x13#7) (f3 : funct3Of w = 0b001#3) (f7 : funct7Of w = 0b0000000#7) :
    DecodesTo w (.ok (.slli (rdOf w) (rs1Of w) (shamtOf w)))
  | srli (op : opcodeOf w = 0x13#7) (f3 : funct3Of w = 0b101#3) (f7 : funct7Of w = 0b0000000#7) :
    DecodesTo w (.ok (.srli (rdOf w) (rs1Of w) (shamtOf w)))
  | srai (op : opcodeOf w = 0x13#7) (f3 : funct3Of w = 0b101#3) (f7 : funct7Of w = 0b0100000#7) :
    DecodesTo w (.ok (.srai (rdOf w) (rs1Of w) (shamtOf w)))
  | add (op : opcodeOf w = 0x33#7) (f3 : funct3Of w = 0b000#3) (f7 : funct7Of w = 0b0000000#7) :
    DecodesTo w (.ok (.add (rdOf w) (rs1Of w) (rs2Of w)))
  | sub (op : opcodeOf w = 0x33#7) (f3 : funct3Of w = 0b000#3) (f7 : funct7Of w = 0b0100000#7) :
    DecodesTo w (.ok (.sub (rdOf w) (rs1Of w) (rs2Of w)))
  | sll (op : opcodeOf w = 0x33#7) (f3 : funct3Of w = 0b001#3) (f7 : funct7Of w = 0b0000000#7) :
    DecodesTo w (.ok (.sll (rdOf w) (rs1Of w) (rs2Of w)))
  | slt (op : opcodeOf w = 0x33#7) (f3 : funct3Of w = 0b010#3) (f7 : funct7Of w = 0b0000000#7) :
    DecodesTo w (.ok (.slt (rdOf w) (rs1Of w) (rs2Of w)))
  | sltu (op : opcodeOf w = 0x33#7) (f3 : funct3Of w = 0b011#3) (f7 : funct7Of w = 0b0000000#7) :
    DecodesTo w (.ok (.sltu (rdOf w) (rs1Of w) (rs2Of w)))
  | xor (op : opcodeOf w = 0x33#7) (f3 : funct3Of w = 0b100#3) (f7 : funct7Of w = 0b0000000#7) :
    DecodesTo w (.ok (.xor (rdOf w) (rs1Of w) (rs2Of w)))
  | srl (op : opcodeOf w = 0x33#7) (f3 : funct3Of w = 0b101#3) (f7 : funct7Of w = 0b0000000#7) :
    DecodesTo w (.ok (.srl (rdOf w) (rs1Of w) (rs2Of w)))
  | sra (op : opcodeOf w = 0x33#7) (f3 : funct3Of w = 0b101#3) (f7 : funct7Of w = 0b0100000#7) :
    DecodesTo w (.ok (.sra (rdOf w) (rs1Of w) (rs2Of w)))
  | or (op : opcodeOf w = 0x33#7) (f3 : funct3Of w = 0b110#3) (f7 : funct7Of w = 0b0000000#7) :
    DecodesTo w (.ok (.or (rdOf w) (rs1Of w) (rs2Of w)))
  | and (op : opcodeOf w = 0x33#7) (f3 : funct3Of w = 0b111#3) (f7 : funct7Of w = 0b0000000#7) :
    DecodesTo w (.ok (.and (rdOf w) (rs1Of w) (rs2Of w)))
  | fence (op : opcodeOf w = 0x0F#7) : DecodesTo w (.ok .fence)
  | ecall (op : opcodeOf w = 0x73#7) (imm : immIOf w = 0#12) : DecodesTo w (.ok .ecall)
  | ebreak (op : opcodeOf w = 0x73#7) (imm : immIOf w = 1#12) : DecodesTo w (.ok .ebreak)
  | unknownOpcode (op : opcodeOf w ∉ primaryOpcodes) : DecodesTo w (.error .unknownOpcode)
  | branchFunct3 (op : opcodeOf w = 0x63#7) (f3 : funct3Of w ∈ [0b010#3, 0b011#3]) : DecodesTo w (.error .unknownFunct)
  | loadFunct3 (op : opcodeOf w = 0x03#7) (f3 : funct3Of w ∈ [0b011#3, 0b110#3, 0b111#3]) :
    DecodesTo w (.error .unknownFunct)
  | storeFunct3 (op : opcodeOf w = 0x23#7) (f3 : funct3Of w ∈ [0b011#3, 0b100#3, 0b101#3, 0b110#3, 0b111#3]) :
    DecodesTo w (.error .unknownFunct)
  | shiftLeftFunct7 (op : opcodeOf w = 0x13#7) (f3 : funct3Of w = 0b001#3) (f7 : funct7Of w ≠ 0b0000000#7) :
    DecodesTo w (.error .unknownFunct)
  | shiftRightFunct7 (op : opcodeOf w = 0x13#7) (f3 : funct3Of w = 0b101#3)
    (f7 : funct7Of w ∉ [0b0000000#7, 0b0100000#7]) :
    DecodesTo w (.error .unknownFunct)
  | opFunct7 (op : opcodeOf w = 0x33#7) (f7 : funct7Of w ∉ [0b0000000#7, 0b0100000#7]) :
    DecodesTo w (.error .unknownFunct)
  | opFunct3 (op : opcodeOf w = 0x33#7) (f7 : funct7Of w = 0b0100000#7) (f3 : funct3Of w ∉ [0b000#3, 0b101#3]) :
    DecodesTo w (.error .unknownFunct)
  | unknownSysImm (op : opcodeOf w = 0x73#7) (h0 : immIOf w ≠ 0#12) (h1 : immIOf w ≠ 1#12) :
    DecodesTo w (.error .unknownSysImm)

/-! The funct3 values that each selection leaves over. -/

theorem branch_funct3_left :
    ∀ f ∉ [0b000#3, 0b001#3, 0b100#3, 0b101#3, 0b110#3, 0b111#3], f ∈ [0b010#3, 0b011#3] := by decide

theorem load_funct3_left :
    ∀ f ∉ [0b000#3, 0b001#3, 0b010#3, 0b100#3, 0b101#3], f ∈ [0b011#3, 0b110#3, 0b111#3] := by decide

theorem store_funct3_left :
    ∀ f ∉ [0b000#3, 0b001#3, 0b010#3], f ∈ [0b011#3, 0b100#3, 0b101#3, 0b110#3, 0b111#3] := by decide

theorem opImm_funct3_left :
    ∀ f ∉ [0b000#3, 0b010#3, 0b011#3, 0b100#3, 0b110#3, 0b111#3, 0b001#3], f = 0b101#3 := by decide

theorem op_funct3_left :
    ∀ f ∉ [0b000#3, 0b001#3, 0b010#3, 0b011#3, 0b100#3, 0b101#3, 0b110#3], f = 0b111#3 := by decide

/-! The selection of each group falls under the relation. -/

theorem decodesTo_decodeBranch (op : opcodeOf w = 0x63#7) : DecodesTo w (decodeBranch w) := by
  unfold decodeBranch
  split
  · exact .beq op ‹_›
  · exact .bne op ‹_›
  · exact .blt op ‹_›
  · exact .bge op ‹_›
  · exact .bltu op ‹_›
  · exact .bgeu op ‹_›
  · exact .branchFunct3 op (branch_funct3_left _ (by simp_all))

theorem decodesTo_decodeLoad (op : opcodeOf w = 0x03#7) : DecodesTo w (decodeLoad w) := by
  unfold decodeLoad
  split
  · exact .lb op ‹_›
  · exact .lh op ‹_›
  · exact .lw op ‹_›
  · exact .lbu op ‹_›
  · exact .lhu op ‹_›
  · exact .loadFunct3 op (load_funct3_left _ (by simp_all))

theorem decodesTo_decodeStore (op : opcodeOf w = 0x23#7) : DecodesTo w (decodeStore w) := by
  unfold decodeStore
  split
  · exact .sb op ‹_›
  · exact .sh op ‹_›
  · exact .sw op ‹_›
  · exact .storeFunct3 op (store_funct3_left _ (by simp_all))

theorem decodesTo_decodeOpImm (op : opcodeOf w = 0x13#7) : DecodesTo w (decodeOpImm w) := by
  unfold decodeOpImm
  split
  · exact .addi op ‹_›
  · exact .slti op ‹_›
  · exact .sltiu op ‹_›
  · exact .xori op ‹_›
  · exact .ori op ‹_›
  · exact .andi op ‹_›
  · split
    · exact .slli op ‹_› ‹_›
    · exact .shiftLeftFunct7 op ‹_› ‹_›
  · have f3 : funct3Of w = 0b101#3 := opImm_funct3_left _ (by simp_all)
    split
    · exact .srli op f3 ‹_›
    · split
      · exact .srai op f3 ‹_›
      · exact .shiftRightFunct7 op f3 (by simp_all)

theorem decodesTo_decodeOpPlain (op : opcodeOf w = 0x33#7) (f7 : funct7Of w = 0b0000000#7) :
    DecodesTo w (.ok (decodeOpPlain w)) := by
  unfold decodeOpPlain
  split
  · exact .add op ‹_› f7
  · exact .sll op ‹_› f7
  · exact .slt op ‹_› f7
  · exact .sltu op ‹_› f7
  · exact .xor op ‹_› f7
  · exact .srl op ‹_› f7
  · exact .or op ‹_› f7
  · exact .and op (op_funct3_left _ (by simp_all)) f7

theorem decodesTo_decodeOp (op : opcodeOf w = 0x33#7) : DecodesTo w (decodeOp w) := by
  unfold decodeOp
  split
  · exact decodesTo_decodeOpPlain op ‹_›
  · split
    · split
      · exact .sub op ‹_› ‹_›
      · exact .sra op ‹_› ‹_›
      · exact .opFunct3 op ‹_› (by simp_all)
    · exact .opFunct7 op (by simp_all)

theorem decodesTo_decodeSystem (op : opcodeOf w = 0x73#7) : DecodesTo w (decodeSystem w) := by
  unfold decodeSystem
  split
  · exact .ecall op ‹_›
  · split
    · exact .ebreak op ‹_›
    · exact .unknownSysImm op ‹_› ‹_›

theorem decodesTo_decode (w : Word) : DecodesTo w (decode w) := by
  unfold decode
  split
  · exact .lui ‹_›
  · exact .auipc ‹_›
  · exact .jal ‹_›
  · exact .jalr ‹_›
  · exact decodesTo_decodeBranch ‹_›
  · exact decodesTo_decodeLoad ‹_›
  · exact decodesTo_decodeStore ‹_›
  · exact decodesTo_decodeOpImm ‹_›
  · exact decodesTo_decodeOp ‹_›
  · exact .fence ‹_›
  · exact decodesTo_decodeSystem ‹_›
  · exact .unknownOpcode (by simp_all [primaryOpcodes])

/-- A word has one case only: the fields that select it determine every branch of the decoder. -/
theorem DecodesTo.decode_eq (h : DecodesTo w r) : decode w = r := by
  cases h with
  | lui op | auipc op | jal op | jalr op | fence op => simp [decode, op]
  | beq op f3 | bne op f3 | blt op f3 | bge op f3 | bltu op f3 | bgeu op f3 => simp [decode, op, decodeBranch, f3]
  | lb op f3 | lh op f3 | lw op f3 | lbu op f3 | lhu op f3 => simp [decode, op, decodeLoad, f3]
  | sb op f3 | sh op f3 | sw op f3 => simp [decode, op, decodeStore, f3]
  | addi op f3 | slti op f3 | sltiu op f3 | xori op f3 | ori op f3 | andi op f3 => simp [decode, op, decodeOpImm, f3]
  | slli op f3 f7 | srli op f3 f7 | srai op f3 f7 => simp [decode, op, decodeOpImm, f3, f7]
  | add op f3 f7 | sll op f3 f7 | slt op f3 f7 | sltu op f3 f7 | xor op f3 f7 | srl op f3 f7 | or op f3 f7
  | and op f3 f7 => simp [decode, op, decodeOp, decodeOpPlain, f3, f7]
  | sub op f3 f7 | sra op f3 f7 => simp [decode, op, decodeOp, f3, f7]
  | ecall op imm | ebreak op imm => simp [decode, op, decodeSystem, imm]
  | unknownOpcode op =>
    unfold decode
    split <;> simp_all [primaryOpcodes]
  | branchFunct3 op f3 =>
    simp only [List.mem_cons, List.not_mem_nil, or_false] at f3
    obtain f3 | f3 := f3 <;> simp [decode, op, decodeBranch, f3]
  | loadFunct3 op f3 =>
    simp only [List.mem_cons, List.not_mem_nil, or_false] at f3
    obtain f3 | f3 | f3 := f3 <;> simp [decode, op, decodeLoad, f3]
  | storeFunct3 op f3 =>
    simp only [List.mem_cons, List.not_mem_nil, or_false] at f3
    obtain f3 | f3 | f3 | f3 | f3 := f3 <;> simp [decode, op, decodeStore, f3]
  | shiftLeftFunct7 op f3 f7 => simp [decode, op, decodeOpImm, f3, f7]
  | shiftRightFunct7 op f3 f7 => simp_all [decode, decodeOpImm]
  | opFunct7 op f7 => simp_all [decode, decodeOp]
  | opFunct3 op f7 f3 =>
    simp only [decode, op, decodeOp, f7]
    split <;> simp_all
  | unknownSysImm op h0 h1 => simp [decode, op, decodeSystem, h0, h1]

/-- The relation is the decoder. -/
theorem decode_eq_iff : decode w = r ↔ DecodesTo w r :=
  ⟨fun h => h ▸ decodesTo_decode w, DecodesTo.decode_eq⟩

/-! ### The decoder's errors and the SYSTEM words (R85 to R89) -/

theorem decode_unknownOpcode_iff : decode w = .error .unknownOpcode ↔ opcodeOf w ∉ primaryOpcodes := by
  rw [decode_eq_iff]
  exact ⟨fun | .unknownOpcode op => op, .unknownOpcode⟩

/-- Bits 1:0 of every primary opcode are 0b11 (R86). -/
theorem low_bits_of_mem_primaryOpcodes (h : opcodeOf w ∈ primaryOpcodes) : w.extractLsb' 0 2 = 0b11#2 := by
  have low : w.extractLsb' 0 2 = (opcodeOf w).extractLsb' 0 2 := by
    ext j hj
    simp [opcodeOf, field]
  have all : ∀ op ∈ primaryOpcodes, op.extractLsb' 0 2 = 0b11#2 := by decide
  rw [low, all _ h]

/-- Settles O10: the relation raises UnknownOpcode in one case only; what follows is about the list of opcodes. -/
theorem unknownOpcodeExactly : Obligations.UnknownOpcodeExactly := by
  refine ⟨fun w => decode_unknownOpcode_iff, rfl, fun w h => ?_, fun w h => ?_⟩
  · exact decode_unknownOpcode_iff.2 (mt low_bits_of_mem_primaryOpcodes h)
  · exact decode_unknownOpcode_iff.2 ((by decide : ∀ op ∈ _, op ∉ primaryOpcodes) _ h)

/-- Settles O11: the seven cases of the relation that raise UnknownFunct. -/
theorem unknownFunctExactly : Obligations.UnknownFunctExactly := by
  intro w
  rw [decode_eq_iff]
  constructor
  · intro h
    cases h with
    | branchFunct3 op f3 => exact .inl ⟨op, f3⟩
    | loadFunct3 op f3 => exact .inr (.inl ⟨op, f3⟩)
    | storeFunct3 op f3 => exact .inr (.inr (.inl ⟨op, f3⟩))
    | shiftLeftFunct7 op f3 f7 => exact .inr (.inr (.inr (.inl ⟨op, f3, f7⟩)))
    | shiftRightFunct7 op f3 f7 => exact .inr (.inr (.inr (.inr (.inl ⟨op, f3, f7⟩))))
    | opFunct7 op f7 => exact .inr (.inr (.inr (.inr (.inr (.inl ⟨op, f7⟩)))))
    | opFunct3 op f7 f3 => exact .inr (.inr (.inr (.inr (.inr (.inr ⟨op, f7, f3⟩)))))
  · rintro (⟨op, f3⟩ | ⟨op, f3⟩ | ⟨op, f3⟩ | ⟨op, f3, f7⟩ | ⟨op, f3, f7⟩ | ⟨op, f7⟩ | ⟨op, f7, f3⟩)
    · exact .branchFunct3 op f3
    · exact .loadFunct3 op f3
    · exact .storeFunct3 op f3
    · exact .shiftLeftFunct7 op f3 f7
    · exact .shiftRightFunct7 op f3 f7
    · exact .opFunct7 op f7
    · exact .opFunct3 op f7 f3

/-- Settles O12: each of the three answers is one case of the relation. -/
theorem systemWordsSelectByImmediate : Obligations.SystemWordsSelectByImmediate := by
  intro w
  simp only [decode_eq_iff]
  refine ⟨⟨?_, ?_⟩, ⟨?_, ?_⟩, ⟨?_, ?_⟩⟩
  · exact fun | .unknownSysImm op h0 h1 => ⟨op, h0, h1⟩
  · exact fun ⟨op, h0, h1⟩ => .unknownSysImm op h0 h1
  · exact fun | .ecall op imm => ⟨op, imm⟩
  · exact fun ⟨op, imm⟩ => .ecall op imm
  · exact fun | .ebreak op imm => ⟨op, imm⟩
  · exact fun ⟨op, imm⟩ => .ebreak op imm

end Sys2Proof
end

section
/-! SUPPORT. The formats put a word together again from its fields (30_encoding.md R64, R65, R68 to R73), and so the
encoder and the decoder are inverses, as far as the decoder reads every bit. -/

namespace Sys2Proof

variable {w : Word} {o g : BitVec 7} {f : BitVec 3}

/-! ### A word is put together from its fields (R64, R65) -/

/-- Adjacent fields join. -/
theorem field_append (w : Word) (lo m n : Nat) : field w (lo + m) n ++ field w lo m = field w lo (n + m) :=
  BitVec.extractLsb'_append_extractLsb'_eq_extractLsb' rfl

theorem funct7Of_append_rs2Of (w : Word) : funct7Of w ++ rs2Of w = immIOf w := field_append w 20 5 7

theorem immIOf_append_funct3Of (w : Word) : immIOf w ++ rs1Of w ++ funct3Of w = immUOf w := by
  have h : immIOf w ++ rs1Of w = field w 15 17 := field_append w 15 5 12
  rw [h]
  exact field_append w 12 3 17

theorem encodeU_fields (op : opcodeOf w = o) : encodeU (immUOf w) (rdOf w) o = w := by
  have h : immUOf w ++ rdOf w = field w 7 25 := field_append w 7 5 20
  rw [encodeU, h, ← op]
  exact (field_append w 0 7 25).trans BitVec.extractLsb'_eq_self

theorem encodeI_fields (op : opcodeOf w = o) (f3 : funct3Of w = f) : encodeI (immIOf w) (rs1Of w) f (rdOf w) o = w := by
  rw [encodeI, ← f3, immIOf_append_funct3Of]
  exact encodeU_fields op

theorem encodeR_fields (op : opcodeOf w = o) (f3 : funct3Of w = f) (f7 : funct7Of w = g) :
    encodeR g (rs2Of w) (rs1Of w) f (rdOf w) o = w := by
  rw [encodeR, ← f7, funct7Of_append_rs2Of]
  exact encodeI_fields op f3

theorem encodeShift_fields (op : opcodeOf w = 0x13#7) (f3 : funct3Of w = f) (f7 : funct7Of w = g) :
    encodeShift g (shamtOf w) (rs1Of w) f (rdOf w) = w :=
  encodeR_fields op f3 f7

theorem encodeS_fields (op : opcodeOf w = 0x23#7) (f3 : funct3Of w = f) :
    encodeS (immSOf w) (rs2Of w) (rs1Of w) f = w := by
  have high : (immSOf w).extractLsb' 5 7 = funct7Of w := BitVec.extractLsb'_append_eq_left
  have low : (immSOf w).extractLsb' 0 5 = rdOf w := BitVec.extractLsb'_append_eq_right
  rw [encodeS, high, low]
  exact encodeR_fields op f3 rfl

theorem encodeB_fields (op : opcodeOf w = 0x63#7) (f3 : funct3Of w = f) :
    encodeB (immBOf w) (rs2Of w) (rs1Of w) f = w := by
  subst f3
  rw [encodeB, ← op]
  refine BitVec.eq_of_getLsbD_eq fun j hj => ?_
  simp only [immBOf, rs2Of, rs1Of, funct3Of, opcodeOf, field, BitVec.getLsbD_extractLsb', BitVec.getLsbD_append]
  interval_cases j <;> simp

theorem encodeJ_fields (op : opcodeOf w = o) : encodeJ (immJOf w) (rdOf w) o = w := by
  subst op
  refine BitVec.eq_of_getLsbD_eq fun j hj => ?_
  simp only [encodeJ, immJOf, rdOf, opcodeOf, field, BitVec.getLsbD_extractLsb', BitVec.getLsbD_append]
  interval_cases j <;> simp

/-! ### The round trips -/

/-- Settles O7: by format, the decoder reads back each field that the encoder put there. -/
theorem decodeEncodeRoundTrip : Obligations.DecodeEncodeRoundTrip := by
  intro i hi
  cases i with
  | lui | auipc | jalr => simp [encode, decode]
  | jal => simpa [encode, decode] using even_jump_offset (of_decide_eq_true hi)
  | beq | bne | blt | bge | bltu | bgeu =>
    simpa [encode, decode, decodeBranch] using even_branch_offset (of_decide_eq_true hi)
  | lb | lh | lw | lbu | lhu => simp [encode, decode, decodeLoad]
  | sb | sh | sw => simp [encode, decode, decodeStore]
  | addi | slti | sltiu | xori | ori | andi | slli | srli | srai => simp [encode, decode, decodeOpImm]
  | add | sll | slt | sltu | xor | srl | or | and => simp [encode, decode, decodeOp, decodeOpPlain]
  | sub | sra => simp [encode, decode, decodeOp]
  | fence | ecall | ebreak => rfl

/-- Settles O8: by the rows of R75, each format is put together from the fields that the row reads. -/
theorem encodeDecodeRoundTrip : Obligations.EncodeDecodeRoundTrip := by
  intro w i h
  cases decode_eq_iff.1 h with
  | lui op | auipc op => exact ⟨rfl, fun _ _ _ _ => encodeU_fields op⟩
  | jal op => exact ⟨decide_eq_true (jumpOffsetEven_immJOf w), fun _ _ _ _ => encodeJ_fields op⟩
  | beq op f3 | bne op f3 | blt op f3 | bge op f3 | bltu op f3 | bgeu op f3 =>
    exact ⟨decide_eq_true (branchOffsetEven_immBOf w), fun _ _ _ _ => encodeB_fields op f3⟩
  | lb op f3 | lh op f3 | lw op f3 | lbu op f3 | lhu op f3
  | addi op f3 | slti op f3 | sltiu op f3 | xori op f3 | ori op f3 | andi op f3 =>
    exact ⟨rfl, fun _ _ _ _ => encodeI_fields op f3⟩
  | sb op f3 | sh op f3 | sw op f3 => exact ⟨rfl, fun _ _ _ _ => encodeS_fields op f3⟩
  | slli op f3 f7 | srli op f3 f7 | srai op f3 f7 => exact ⟨rfl, fun _ _ _ _ => encodeShift_fields op f3 f7⟩
  | add op f3 f7 | sub op f3 f7 | sll op f3 f7 | slt op f3 f7 | sltu op f3 f7 | xor op f3 f7 | srl op f3 f7
  | sra op f3 f7 | or op f3 f7 | and op f3 f7 => exact ⟨rfl, fun _ _ _ _ => encodeR_fields op f3 f7⟩
  | jalr => exact ⟨rfl, fun hjalr => absurd rfl (hjalr _ _ _)⟩
  | fence => exact ⟨rfl, fun _ hfence => absurd rfl hfence⟩
  | ecall => exact ⟨rfl, fun _ _ hecall => absurd rfl hecall⟩
  | ebreak => exact ⟨rfl, fun _ _ _ hebreak => absurd rfl hebreak⟩

end Sys2Proof
end

section
/-! SUPPORT. The decoder and the rows of spec/opcode_table.json (30_encoding.md R74 to R85): no word matches two rows, a
row covers what the decoder reads to select its instruction, and what decodes matches its mnemonic's row. -/

namespace Sys2Proof

open Machine (Matches)

variable {w : Word} {i : Instr} {e : DecodeError} {row : OpcodeRow}

/-! ### No word matches two rows -/

/-- Rows that agree on the bits both masks cover are one row. -/
theorem row_unique : ∀ p ∈ opcodeTable, ∀ q ∈ opcodeTable, p.bits &&& q.mask = q.bits &&& p.mask → p = q := by decide

/-- No word matches two rows. -/
theorem row_eq_of_matches {p q : OpcodeRow} (hp : p ∈ opcodeTable) (hq : q ∈ opcodeTable)
    (hwp : Matches w p.mask p.bits) (hwq : Matches w q.mask q.bits) : p = q := by
  refine row_unique p hp q hq ?_
  rw [← hwp, ← hwq, BitVec.and_assoc, BitVec.and_comm p.mask, BitVec.and_assoc]

/-! ### The fields that the masks cover, by the opcode -/

theorem row_opcode : ∀ row ∈ opcodeTable, field row.mask 0 7 = BitVec.allOnes 7 := by decide

theorem row_funct3 : ∀ row ∈ opcodeTable, opcodeOf row.bits ∈ [0x63#7, 0x03#7, 0x23#7, 0x13#7, 0x33#7] →
    field row.mask 12 3 = BitVec.allOnes 3 := by decide

theorem row_funct7 : ∀ row ∈ opcodeTable,
    opcodeOf row.bits = 0x13#7 ∧ funct3Of row.bits ∈ [0b001#3, 0b101#3] ∨ opcodeOf row.bits = 0x33#7 →
    field row.mask 25 7 = BitVec.allOnes 7 := by decide

theorem row_sysImm : ∀ row ∈ opcodeTable, opcodeOf row.bits = 0x73#7 →
    field row.mask 20 12 = BitVec.allOnes 12 := by decide

/-- The fixed bits of a row are themselves a word of the row's instruction. -/
theorem row_decodes : ∀ row ∈ opcodeTable, (decode row.bits).isOk = true := by decide

/-- A word that is no instruction matches no row: the row covers every field that the error read, so that its fixed bits
would have the same error. -/
theorem DecodesTo.not_matches_row (h : DecodesTo w (.error e)) (hr : row ∈ opcodeTable) :
    ¬ Matches w row.mask row.bits := by
  intro hw
  have hop : opcodeOf w = opcodeOf row.bits := field_of_match hw 0 7 (row_opcode row hr)
  have hf3 (hc) : funct3Of w = funct3Of row.bits := field_of_match hw 12 3 (row_funct3 row hr hc)
  have hf7 (hc) : funct7Of w = funct7Of row.bits := field_of_match hw 25 7 (row_funct7 row hr hc)
  have himm (hc) : immIOf w = immIOf row.bits := field_of_match hw 20 12 (row_sysImm row hr hc)
  have hrow : DecodesTo row.bits (.error e) := by
    cases h with
    | unknownOpcode op => exact .unknownOpcode (hop ▸ op)
    | branchFunct3 op f3 =>
      rw [hop] at op
      exact .branchFunct3 op (hf3 (by simp [op]) ▸ f3)
    | loadFunct3 op f3 =>
      rw [hop] at op
      exact .loadFunct3 op (hf3 (by simp [op]) ▸ f3)
    | storeFunct3 op f3 =>
      rw [hop] at op
      exact .storeFunct3 op (hf3 (by simp [op]) ▸ f3)
    | shiftLeftFunct7 op f3 f7 =>
      rw [hop] at op
      rw [hf3 (by simp [op])] at f3
      exact .shiftLeftFunct7 op f3 (hf7 (by simp [op, f3]) ▸ f7)
    | shiftRightFunct7 op f3 f7 =>
      rw [hop] at op
      rw [hf3 (by simp [op])] at f3
      exact .shiftRightFunct7 op f3 (hf7 (by simp [op, f3]) ▸ f7)
    | opFunct7 op f7 =>
      rw [hop] at op
      exact .opFunct7 op (hf7 (.inr op) ▸ f7)
    | opFunct3 op f7 f3 =>
      rw [hop] at op
      exact .opFunct3 op (hf7 (.inr op) ▸ f7) (hf3 (by simp [op]) ▸ f3)
    | unknownSysImm op h0 h1 =>
      rw [hop] at op
      exact .unknownSysImm op (himm op ▸ h0) (himm op ▸ h1)
  have hok := row_decodes row hr
  rw [hrow.decode_eq] at hok
  exact absurd hok nofun

/-- A word that matches a row decodes. -/
theorem decode_of_matches (hr : row ∈ opcodeTable) (hw : Matches w row.mask row.bits) : ∃ i, decode w = .ok i := by
  cases h : decode w with
  | ok i => exact ⟨i, rfl⟩
  | error e => exact absurd hw ((decode_eq_iff.1 h).not_matches_row hr)

/-! ### A word that decodes matches its row -/

/-- A word that encodes an instruction matches the row of the instruction's mnemonic. -/
theorem matches_row_of_encode (h : encode i = w) :
    ∃ row ∈ opcodeTable, row.mnemonic = i.mnemonic ∧ Matches w row.mask row.bits := by
  obtain ⟨row, hr, hm, hw⟩ := Laws.EncodeBearsRow.forall_instr i
  exact ⟨row, hr, hm, h ▸ of_decide_eq_true hw⟩

/-- A word that decodes matches the row of its instruction's mnemonic: it is the encoded word, or one of the four
instructions with unchecked bits. -/
theorem matches_row_of_decode (h : decode w = .ok i) :
    ∃ row ∈ opcodeTable, row.mnemonic = i.mnemonic ∧ Matches w row.mask row.bits := by
  cases decode_eq_iff.1 h with
  | jalr op =>
    refine ⟨⟨"JALR", 0x00000067, 0x0000007F⟩, by decide, rfl, ?_⟩
    rw [Matches, and_mask_opcode, op]; rfl
  | fence op =>
    refine ⟨⟨"FENCE", 0x0000000F, 0x0000007F⟩, by decide, rfl, ?_⟩
    rw [Matches, and_mask_opcode, op]; rfl
  | ecall op imm =>
    refine ⟨⟨"ECALL", 0x00000073, 0xFFF0007F⟩, by decide, rfl, ?_⟩
    rw [Matches, and_mask_system, op, imm]; rfl
  | ebreak op imm =>
    refine ⟨⟨"EBREAK", 0x00100073, 0xFFF0007F⟩, by decide, rfl, ?_⟩
    rw [Matches, and_mask_system, op, imm]; rfl
  | _ => exact matches_row_of_encode ((encodeDecodeRoundTrip w _ h).2 nofun nofun nofun nofun)

/-- Settles O9: a word that matches a row decodes, and the row of its instruction is the one row it matches. -/
theorem decodeAgreesWithOpcodeTable : Obligations.DecodeAgreesWithOpcodeTable := by
  refine ⟨fun w i => matches_row_of_decode, fun w row hr hw => ?_, fun w p q => row_eq_of_matches⟩
  obtain ⟨i, hi⟩ := decode_of_matches hr hw
  obtain ⟨q, hq, hm, hwq⟩ := matches_row_of_decode hi
  exact ⟨i, hi, row_eq_of_matches hr hq hw hwq ▸ hm.symm⟩

end Sys2Proof
end

section
/-! SUPPORT. The immediates as sums of weighted bits (30_encoding.md R68 to R73). -/

namespace Sys2Proof

/-! ### Fields as numbers -/

theorem toNat_field (w : Word) (lo n : Nat) : (field w lo n).toNat = w.toNat / 2 ^ lo % 2 ^ n := by
  rw [field, BitVec.extractLsb'_toNat, Nat.shiftRight_eq_div_pow]

/-- The sign bit counts negative. -/
theorem toInt_sign (w : Word) : (field w 31 1).toInt = -(w.toNat / 2 ^ 31 : Int) := by
  have hw : w.toNat < 2 ^ 32 := w.isLt
  rw [BitVec.toInt_eq_toNat_cond, toNat_field]
  omega

/-- A field below a signed one adds its value, and scales the signed one. -/
theorem toInt_append_field {m : Nat} (x : BitVec (m + 1)) (w : Word) (lo n : Nat) :
    (x ++ field w lo n).toInt = 2 ^ n * x.toInt + (w.toNat / 2 ^ lo % 2 ^ n : Int) := by
  rw [BitVec.toInt_append, if_neg (by simp), toNat_field]
  norm_cast

/-- A 0 below a signed value doubles it. -/
theorem toInt_append_zero {m : Nat} (x : BitVec (m + 1)) : (x ++ 0#1).toInt = 2 * x.toInt := by
  rw [BitVec.toInt_append, if_neg (by simp)]
  simp

/-! ### The immediates -/

theorem toInt_immIOf (w : Word) :
    (immIOf w).toInt = (w.toNat / 2 ^ 20 % 2 ^ 11 : Int) - 2 ^ 11 * (w.toNat / 2 ^ 31 : Int) := by
  have h : immIOf w = field w 31 1 ++ field w 20 11 := (field_append w 20 11 1).symm
  rw [h, toInt_append_field, toInt_sign]
  ring

theorem toInt_immSOf (w : Word) : (immSOf w).toInt =
    (w.toNat / 2 ^ 7 % 2 ^ 5 : Int) + 2 ^ 5 * (w.toNat / 2 ^ 25 % 2 ^ 6 : Int) - 2 ^ 11 * (w.toNat / 2 ^ 31 : Int) := by
  have h : field w 25 7 = field w 31 1 ++ field w 25 6 := (field_append w 25 6 1).symm
  rw [immSOf, h, toInt_append_field, toInt_append_field, toInt_sign]
  ring

theorem toInt_immBOf (w : Word) : (immBOf w).toInt =
    2 * (w.toNat / 2 ^ 8 % 2 ^ 4 : Int) + 2 ^ 5 * (w.toNat / 2 ^ 25 % 2 ^ 6 : Int) +
      2 ^ 11 * (w.toNat / 2 ^ 7 % 2 : Int) - 2 ^ 12 * (w.toNat / 2 ^ 31 : Int) := by
  rw [immBOf, toInt_append_zero, toInt_append_field, toInt_append_field, toInt_append_field, toInt_sign]
  omega

theorem toInt_immJOf (w : Word) : (immJOf w).toInt =
    2 * (w.toNat / 2 ^ 21 % 2 ^ 10 : Int) + 2 ^ 11 * (w.toNat / 2 ^ 20 % 2 : Int) +
      2 ^ 12 * (w.toNat / 2 ^ 12 % 2 ^ 8 : Int) - 2 ^ 20 * (w.toNat / 2 ^ 31 : Int) := by
  rw [immJOf, toInt_append_zero, toInt_append_field, toInt_append_field, toInt_append_field, toInt_sign]
  omega

theorem toNat_upperImm (imm20 : BitVec 20) : (Machine.upperImm imm20).toNat = 2 ^ 12 * imm20.toNat := by
  rw [Machine.upperImm, BitVec.toNat_append, BitVec.toNat_zero, Nat.or_zero, Nat.shiftLeft_eq, Nat.mul_comm]

theorem toNat_upperImm_immUOf (w : Word) : (Machine.upperImm (immUOf w)).toNat = w.toNat - w.toNat % 2 ^ 12 := by
  have hw : w.toNat < 2 ^ 32 := w.isLt
  rw [toNat_upperImm, immUOf, toNat_field]
  omega

/-- Settles O13: sign extension keeps each value, and each field of it adds its weighted part. -/
theorem immediatesAreWeightedBits : Obligations.ImmediatesAreWeightedBits := by
  refine fun w => ⟨?_, ?_, ?_, toNat_upperImm_immUOf w, ?_, toNat_field w 20 5⟩
  · exact (BitVec.toInt_signExtend_of_le (by decide)).trans (toInt_immIOf w)
  · exact (BitVec.toInt_signExtend_of_le (by decide)).trans (toInt_immSOf w)
  · exact (BitVec.toInt_signExtend_of_le (by decide)).trans (toInt_immBOf w)
  · exact (BitVec.toInt_signExtend_of_le (by decide)).trans (toInt_immJOf w)

end Sys2Proof
end

section
/-! SUPPORT. The pseudo-instructions `li` and `la` (30_encoding.md R94): a constant is its high and its low part, and
each expansion is one write of its register. -/

namespace Sys2Proof.Machine

/-! ### The two parts of a constant (R94) -/

/-- Sign extension keeps the 12 bits. -/
theorem toNat_extendImm_mod (imm : BitVec 12) : (extendImm imm).toNat % 2 ^ 12 = imm.toNat := by
  rw [extendImm, BitVec.toNat_signExtend, BitVec.toNat_setWidth]
  split <;> omega

/-- What the low part leaves is a multiple of 2^12, so the high part holds it whole. -/
theorem upperImm_hiPart (d : Word) : upperImm (hiPart d) = d - extendImm (loPart d) := by
  have hlo : (extendImm (loPart d)).toNat % 2 ^ 12 = d.toNat % 2 ^ 12 := by
    rw [toNat_extendImm_mod, loPart, toNat_field, pow_zero, Nat.div_one]
  have hmul : (d - extendImm (loPart d)).toNat % 2 ^ 12 = 0 := by
    rw [BitVec.toNat_sub]
    omega
  have hhi : (upperImm (hiPart d)).toNat = _ := toNat_upperImm_immUOf (d - extendImm (loPart d))
  exact BitVec.eq_of_toNat_eq (by rw [hhi, hmul, Nat.sub_zero])

theorem upperImm_add_extendImm (d : Word) : upperImm (hiPart d) + extendImm (loPart d) = d := by
  rw [upperImm_hiPart, BitVec.sub_add_cancel]

/-! ### The expansions of `li` and `la` (R94) -/

variable (s : State) (rd : Reg) (u v : Word)

theorem State.setX_setX : (s.setX rd u).setX rd v = s.setX rd v := by
  by_cases h : rd = 0
  · rw [h]; rfl
  · simp only [State.setX, writeRegs, if_neg h, Vector.set_set]

/-- ADDI from a register just written to itself adds to what was written (43_op_imm.md R114); for x0 neither write has
an effect. -/
theorem execAddi_setX (imm : BitVec 12) :
    execAddi rd rd imm (s.setX rd u) = .next (s.setX rd (u + extendImm imm)) := by
  rw [execAddi, writeResult_eq, State.setX_setX]
  by_cases h : rd = 0
  · rw [h]; rfl
  · rw [s.x_setX_same h]

/-- ADDI alone where the constant fits, LUI alone where nothing is left for ADDI, or both. -/
theorem execAll_expandLi : execAll (expandLi rd v) s = .next (s.setX rd v) := by
  have hv := upperImm_add_extendImm v
  unfold expandLi
  split
  next h =>
    have hx0 : s.x 0#5 = 0 := s.x_zero
    simp [execAll, exec, execAddi, writeResult, hx0, h]
  next =>
    split
    next h0 =>
      have hhi : upperImm (hiPart v) = v := by simpa [h0, extendImm] using hv
      simp [execAll, exec, execLui, writeResult, hhi]
    next => simp [execAll, exec, execLui, writeResult, execAddi_setX, hv]

theorem execAll_la : execAll (Pseudo.expand (.la rd v s.pc)) s = .next (s.setX rd v) := by
  have hv : s.pc + upperImm (hiPart (v - s.pc)) + extendImm (loPart (v - s.pc)) = v := by
    rw [BitVec.add_assoc, upperImm_add_extendImm, BitVec.add_comm, BitVec.sub_add_cancel]
  simp [Pseudo.expand, execAll, exec, execAuipc, writeResult, execAddi_setX, hv]

/-- Settles O59: each expansion is one write of rd with the whole value. -/
theorem pseudoLiAndLaLoadTheirValue : Obligations.PseudoLiAndLaLoadTheirValue :=
  ⟨fun rd v s => ⟨_, execAll_expandLi s rd v, setX_writesOnlyReg s rd v⟩,
    fun rd sym s => ⟨_, execAll_la s rd sym, setX_writesOnlyReg s rd sym⟩⟩

end Sys2Proof.Machine
end

section
/-! SUPPORT. The parts of the state an instruction writes, by its kind, and the branch-taken flag (40_step.md R101,
R105, 10_state.md R22): the frame of every instruction, and who sets the flag. -/

namespace Sys2Proof.Machine

variable {s t : State} {i : Instr} {rd : Reg} {v w ea target : Word} {n : Nat} {ext : Word → Word}

/-- The condition of BGE (47_branches.md R147). -/
theorem not_lessSigned_iff (a b : Word) : (!lessSigned a b) = true ↔ a.toInt ≥ b.toInt := by
  rw [Bool.not_eq_true', ← Bool.not_eq_true, lessSigned_iff, not_lt]

/-- The condition of BGEU (47_branches.md R149). -/
theorem not_lessUnsigned_iff (a b : Word) : (!lessUnsigned a b) = true ↔ a.toNat ≥ b.toNat := by
  rw [Bool.not_eq_true', ← Bool.not_eq_true, lessUnsigned_iff, not_lt]

/-- `ExecNext`, with the kind of the instruction: who writes the pc and on what condition, and which bytes a store
writes. -/
inductive ExecWrites (i : Instr) (s : State) : State → Prop where
  | reg (rd : Reg) (v : Word) (hi : ¬ Taken s i) : ExecWrites i s (s.setX rd v)
  | link (rd : Reg) (target : Word) (hj : jumpOrBranch i = true) (hi : Taken s i) :
      ExecWrites i s ((s.setX rd s.linkValue).writePc target)
  | branch (target : Word) (hj : jumpOrBranch i = true) (hi : Taken s i) : ExecWrites i s (s.writePc target)
  | store (n v : Nat) (hw : accessWidth i = some n) (hst : isStore i = true) (hi : ¬ Taken s i) :
      ExecWrites i s (s.withMem (s.mem.writeBytes (accessAddress s i) (leBytes n v)))
  | same (hi : ¬ Taken s i) : ExecWrites i s s

namespace ExecWrites

theorem of_writeResult (hi : ¬ Taken s i) (h : writeResult rd v s = .next t) : ExecWrites i s t := by
  cases h
  exact .reg rd v hi

theorem of_linkAndJump (hj : jumpOrBranch i = true) (hi : Taken s i) (h : linkAndJump rd target s = .next t) :
    ExecWrites i s t := by
  cases h
  exact .link rd target hj hi

theorem of_branchIf {c : Bool} {offset : BitVec 13} (hj : jumpOrBranch i = true) (hi : c = true ↔ Taken s i)
    (h : branchIf c offset s = .next t) : ExecWrites i s t := by
  obtain ⟨hc, rfl⟩ | ⟨hc, rfl⟩ := branchIf_next h
  · exact .branch _ hj (hi.1 hc)
  · exact .same fun ht => by simp [hi.2 ht] at hc

theorem of_loadInto (hi : ¬ Taken s i) (h : loadInto rd n ext ea s = .next t) : ExecWrites i s t := by
  obtain ⟨-, -, rfl⟩ := loadInto_next h
  exact .reg rd _ hi

theorem of_storeFrom (hst : isStore i = true) (hw : accessWidth i = some n) (he : accessAddress s i = ea.toNat)
    (hi : ¬ Taken s i) (h : storeFrom n ea w s = .next t) : ExecWrites i s t := by
  obtain ⟨-, -, rfl⟩ := storeFrom_next h
  exact he ▸ .store n w.toNat hw hst hi

/-- Said once for every instruction. The cases are grouped by the shared form of the meaning; a branch's condition is
`Taken`. -/
theorem of_exec (h : exec i s = .next t) : ExecWrites i s t := by
  cases i with
  | jal | jalr => exact of_linkAndJump rfl trivial h
  | beq => exact of_branchIf rfl beq_iff_eq h
  | bne => exact of_branchIf rfl bne_iff_ne h
  | blt => exact of_branchIf rfl (lessSigned_iff _ _) h
  | bge => exact of_branchIf rfl (not_lessSigned_iff _ _) h
  | bltu => exact of_branchIf rfl (lessUnsigned_iff _ _) h
  | bgeu => exact of_branchIf rfl (not_lessUnsigned_iff _ _) h
  | lb | lh | lw | lbu | lhu => exact of_loadInto not_false h
  | sb | sh | sw => exact of_storeFrom rfl rfl rfl not_false h
  | fence | ecall | ebreak => cases h; exact .same not_false
  | _ => exact of_writeResult not_false h

theorem samePc (h : ExecWrites i s t) (hj : jumpOrBranch i = false) : SamePc s t := by
  cases h with
  | link _ _ hj' | branch _ hj' => simp [hj] at hj'
  | _ => exact ⟨rfl, rfl⟩

theorem sameMemory (h : ExecWrites i s t) (hst : isStore i = false) : SameMemory s t := by
  cases h with
  | store _ _ _ hst' => simp [hst] at hst'
  | _ => exact fun _ => rfl

theorem sameMemoryOutside (h : ExecWrites i s t) (hw : accessWidth i = some n) :
    SameMemoryOutside (accessAddress s i) n s t := by
  cases h with
  | store m v hm =>
    obtain rfl : m = n := Option.some.inj (hm.symm.trans hw)
    exact sameMemoryOutside_writeBytes
  | _ => exact fun _ _ => rfl

/-- Taken, the handler sets the flag; otherwise the pc and the flag are left alone (R105). -/
theorem flag_or_samePc (h : ExecWrites i s t) :
    (Taken s i ∧ jumpOrBranch i = true ∧ t.branchTaken = true) ∨ (¬ Taken s i ∧ SamePc s t) := by
  cases h with
  | link _ _ hj hi | branch _ hj hi => exact .inl ⟨hi, hj, rfl⟩
  | reg _ _ hi | store _ _ _ _ hi | same hi => exact .inr ⟨hi, rfl, rfl⟩

/-- From DEFAULT_ADVANCE exactly the taken jumps and branches set the flag (R105). -/
theorem branchTaken_iff (h : ExecWrites i s t) (hs : s.branchTaken = false) : t.branchTaken = true ↔ Taken s i := by
  obtain ⟨hi, -, hb⟩ | ⟨hi, -, hb⟩ := h.flag_or_samePc
  · exact iff_of_true hb hi
  · exact iff_of_false (by simp [hb, hs]) hi

end ExecWrites

/-- An instruction writes at most the register it names as rd (R101). -/
theorem ExecNext.x_eq (h : ExecNext i s t) {r : Reg} (hr : i.rd? ≠ some r) : t.x r = s.x r := by
  cases h with
  | reg rd _ h | link rd _ h =>
    have hne : r ≠ rd := fun e => hr (e ▸ h)
    exact s.x_setX_other hne _
  | _ => rfl

/-- Settles O20: the parts of the state, each from what the kind of the instruction says it writes. -/
theorem everyInstructionFrame : Obligations.EveryInstructionFrame := by
  intro i s t h
  have hn := execNext_of_exec h
  have hw := ExecWrites.of_exec h
  exact ⟨hn.sameOutside, fun _ => hn.x_eq, hw.samePc, hw.sameMemory, fun _ _ => hw.sameMemoryOutside⟩

end Sys2Proof.Machine
end

section
/-! SUPPORT. The step as the spec's rules put it (40_step.md R97 to R107, 60_exceptions.md R155, R180): the errors of
fetch and decode, the step that executes an instruction, the pc it leaves, the cycle limit and the trace line. -/

namespace Sys2Proof.Machine

variable {s t u : State} {i : Instr} {k : Fault} {w : Word}

/-! ### Fetch and decode (R99, R100) -/

theorem State.Ready.step_eq (h : s.Ready) : step s = coreStep s := step_eq_coreStep h.config h.running h.limit

theorem fetchInstr_of_memRead_error (h : memRead s s.pc.toNat 4 = .error k) : fetchInstr s = .error k := by
  simp [fetchInstr, fetchWord, h]

theorem fetchInstr_of_decode_error {e : DecodeError} (hf : s.Fetches w) (hd : decode w = .error e) :
    fetchInstr s.captureFetch = .error (decodeFault w e) := by
  simp [fetchInstr, fetchWord_of_fetches hf, hd]

/-- A fetch that completes has read an aligned word of the region. -/
theorem fetches_of_fetchWord (h : fetchWord s.captureFetch = .ok w) : s.Fetches w := by
  unfold fetchWord at h
  split at h
  · cases h
  · rename_i v hv
    obtain ⟨ha, hr, hval⟩ := memRead_ok_iff.1 hv
    cases h
    exact ⟨ha, hr, congrArg (BitVec.ofNat 32) hval⟩

/-- The instruction of a step is that of the word at the pc. -/
theorem fetches_of_fetchInstr (h : fetchInstr s.captureFetch = .ok i) : ∃ w, s.Fetches w ∧ decode w = .ok i := by
  unfold fetchInstr at h
  split at h
  · cases h
  · rename_i w hw
    split at h
    · cases h
    · rename_i j hd
      cases h
      exact ⟨w, fetches_of_fetchWord hw, hd⟩

/-- An error of fetch or decode ends the step (R97 (1), (2)). -/
theorem State.Ready.step_of_fetchInstr_error (h : s.Ready) (hf : fetchInstr s.captureFetch = .error k) :
    step s = .fault k := by
  rw [h.step_eq, coreStep, hf]
  rfl

/-- Settles O41: the two errors of the fetch's read, and the decoder's errors with the word. -/
theorem fetchAndDecodeErrors : Obligations.FetchAndDecodeErrors := by
  intro s hs
  refine ⟨fun ha => ?_, fun ha hr => ?_, fun w hf => ?_⟩
  · exact hs.step_of_fetchInstr_error (fetchInstr_of_memRead_error (memRead_misaligned ha))
  · exact hs.step_of_fetchInstr_error (fetchInstr_of_memRead_error (memRead_outOfRange ha hr))
  · have hstep {e} (hd : decode w = .error e) : step s = .fault (decodeFault w e) :=
      hs.step_of_fetchInstr_error (fetchInstr_of_decode_error hf hd)
    exact ⟨hstep, hstep, hstep⟩

/-! ### The instruction executed (R97, R101) -/

/-- An error of the instruction ends the step. -/
theorem coreStep_of_exec_fault (hf : fetchInstr s.captureFetch = .ok i) (he : exec i s.captureFetch = .fault k) :
    coreStep s = .fault k := by
  simp [coreStep, hf, he]

/-- Settles O40: a step whose instruction completes goes on to its end, and one whose instruction errs is that error. -/
theorem stepRunsDecodedInstruction : Obligations.StepRunsDecodedInstruction := by
  intro s w i hs hf hd
  refine ⟨fun t ht => State.Executes.step_eq ⟨hs, ⟨w, hf, hd⟩, ht⟩, fun k hk => ?_⟩
  rw [hs.step_eq, coreStep_of_exec_fault (fetchInstr_of_fetches hf hd) hk]

/-! ### The end of a step (R102 to R104) -/

theorem taken_captureFetch : Taken s.captureFetch i ↔ Taken s i := by cases i <;> exact Iff.rfl

/-- The pc advance and the count, after a service that leaves the hart alone. -/
theorem State.Executes.stepGoesOn (h : s.Executes i t) (hf : ServiceFrame (traceAfter i s.captureFetch t) u)
    (hc : u.cycleCount ≠ BitVec.allOnes 64) : StepGoesOn s t u.advancePc.countCycle := by
  have ho := h.sameOutside
  have hpc : u.pc = t.pc := by simpa using hf.pc
  have hflag : u.branchTaken = t.branchTaken := by simpa using hf.branchTaken
  have hcount : u.cycleCount = s.cycleCount := by simpa [ho.cycleCount] using hf.cycleCount
  constructor
  case taken => intro hb; simp [hflag, hb, hpc]
  case notTaken => intro hb; simp [hflag, hb, hpc, BitVec.ofNat_add]
  case flag => rfl
  case cycleCount => rw [State.countCycle_toNat (by simpa using hc), State.advancePc_cycleCount, hcount]
  case fetchAddress => simpa [ho.fetchAddress] using hf.fetchAddress
  case regs => exact fun r => by simpa using State.x_congr hf.regs r
  case cfg => simpa [ho.cfg] using hf.cfg
  case fdTable => simpa [ho.fdTable] using hf.fdTable
  case runStatus => simpa [ho.runStatus, h.ready.running] using hf.runStatus

/-- Settles O42: with no command pending the service leaves the whole state alone, and what is left is the pc advance
and the count. -/
theorem stepWithoutCommandAdvances : Obligations.StepWithoutCommandAdvances := by
  intro s t i h h0 hlast
  have ho := h.sameOutside
  have hc : (traceAfter i s.captureFetch t).cycleCount ≠ BitVec.allOnes 64 := fun e => by
    rw [traceAfter_cycleCount, ho.cycleCount, State.captureFetch_cycleCount] at e
    simp [e] at hlast
  have hidle : htifService (traceAfter i s.captureFetch t) = .ok (.continue, traceAfter i s.captureFetch t) :=
    htifService_idle (by simpa [ho.cfg] using h.ready.config) (by rw [traceAfter_valueAt, h0])
  have hgo := h.stepGoesOn (.refl _) hc
  exact ⟨_, h.step_eq.trans (finishStep_continue hidle hc), hgo.taken, hgo.notTaken, hgo.flag, hgo.cycleCount,
    hgo.fetchAddress, hgo.regs, traceAfter_byte, hgo.cfg, hgo.fdTable, hgo.runStatus, by simp [ho.hostOut],
    by simp [ho.hostIn], by simp [ho.hostCalls]⟩

/-- Everything a step that goes on has done: an instruction executed, then the pc advance and the count. -/
theorem stepGoesOn_of_step (h : step s = .next u) (hu : u.runStatus = .running) :
    ∃ i t, s.Executes i t ∧ StepGoesOn s t u := by
  obtain ⟨hc, hr, ⟨-, rfl⟩ | ⟨hl, hcore⟩⟩ := step_next h
  · cases hu
  · obtain ⟨i, t, hi, ht, hfin⟩ := coreStep_next hcore
    have hx : s.Executes i t := ⟨⟨hc, hr, hl⟩, fetches_of_fetchInstr hi, ht⟩
    obtain ⟨v, w, -, rfl⟩ | ⟨w, hw, hcount, rfl⟩ := finishStep_next hfin
    · cases hu
    · exact ⟨i, t, hx, hx.stepGoesOn (.of_htifService hw) hcount⟩

/-- Settles O24: the flag after an instruction, and the flag that every pc advance clears. -/
theorem branchTakenStateMachine : Obligations.BranchTakenStateMachine := by
  refine ⟨fun i s t hs h => (ExecWrites.of_exec h).branchTaken_iff hs, fun s u h hu => ?_⟩
  obtain ⟨i, t, -, hgo⟩ := stepGoesOn_of_step h hu
  exact hgo.flag

/-! ### The pc after a step (R106) -/

/-- A target of JALR has bit 0 clear (42_jumps.md R111). -/
theorem State.indirectTarget_getLsbD_zero (s : State) (rs1 : Reg) (imm : BitVec 12) :
    (s.indirectTarget rs1 imm).getLsbD 0 = false := by
  simp [State.indirectTarget]

/-- The pc that JALR sets has bit 0 clear. -/
theorem exec_jalr_pc {rd rs1 : Reg} {imm : BitVec 12} (h : exec (.jalr rd rs1 imm) s = .next t) :
    t.pc.getLsbD 0 = false := by
  cases h
  exact s.indirectTarget_getLsbD_zero rs1 imm

/-- Settles O43: a taken jump or branch leaves its target in the pc with the flag set, and every other instruction
leaves the fetch address there with the flag clear. -/
theorem pcAfterStep : Obligations.PcAfterStep := by
  intro s u hb h hu
  obtain ⟨i, t, hx, hgo⟩ := stepGoesOn_of_step h hu
  refine ⟨hgo.fetchAddress, i, t, hx, ?_, ?_⟩
  · obtain ⟨hi, hj, hflag⟩ | ⟨hi, hpc, hflag⟩ := (ExecWrites.of_exec hx.executed).flag_or_samePc
    · exact .inr ⟨taken_captureFetch.1 hi, hj, hgo.taken hflag⟩
    · refine .inl ⟨mt taken_captureFetch.2 hi, ?_⟩
      rw [hgo.notTaken (hflag.trans hb), hpc]
      simp [BitVec.ofNat_add]
  · rintro rd rs1 imm rfl
    have hflag : t.branchTaken = true := ((ExecWrites.of_exec hx.executed).branchTaken_iff hb).2 trivial
    rw [hgo.taken hflag, exec_jalr_pc hx.executed]

/-! ### The cycle limit (R107) -/

theorem limitReached_iff : limitReached s = true ↔ ∃ n, s.cfg.maxCycles = some n ∧ n ≤ s.cycleCount.toNat := by
  unfold limitReached
  cases s.cfg.maxCycles <;> simp

/-- A step from below the limit ends at most at the limit: the step that goes on counts one. -/
theorem step_cycleCount_le {n : Nat} (hm : s.cfg.maxCycles = some n) (hn : s.cycleCount.toNat ≤ n)
    (h : step s = .next u) : u.cycleCount.toNat ≤ n := by
  obtain ⟨-, -, ⟨-, rfl⟩ | ⟨hl, hcore⟩⟩ := step_next h
  · exact hn
  · have hlt : ¬ n ≤ s.cycleCount.toNat := fun hle => by simp [limitReached_iff.2 ⟨n, hm, hle⟩] at hl
    obtain ⟨-, hcount⟩ | ⟨-, hcount⟩ := coreStep_cycleCount hcore
    · rw [hcount]
      exact hn
    · omega

/-- Only the limit stops a run. -/
theorem step_not_stopped (hl : limitReached s = false) (h : step s = .next u) : u.runStatus ≠ .stopped := by
  obtain ⟨-, hr, ⟨hl', -⟩ | ⟨-, hcore⟩⟩ := step_next h
  · simp [hl] at hl'
  · obtain ⟨⟨v, hv⟩, -⟩ | ⟨hrun, -⟩ := coreStep_cycleCount hcore
    · simp [hv]
    · simp [hrun, hr]

/-- Settles O45: the limit reached stops the run, one more step at most counts up to it, and a limit not reached stops
nothing. -/
theorem cycleLimitStopsTheRun : Obligations.CycleLimitStopsTheRun := by
  refine ⟨fun s n hc hr hm => ⟨fun hn => ?_, fun hn u h => step_cycleCount_le hm hn h⟩, fun s hs => ?_⟩
  · exact step_of_limitReached hc hr (limitReached_iff.2 ⟨n, hm, hn⟩)
  · have hl : limitReached s = false := by
      rw [← Bool.not_eq_true, limitReached_iff]
      rintro ⟨n, hm, hn⟩
      obtain hnone | ⟨m, hm', hlt⟩ := hs
      · simp [hnone] at hm
      · obtain rfl : m = n := Option.some.inj (hm'.symm.trans hm)
        omega
    exact ⟨hl, fun u => step_not_stopped hl⟩

/-! ### The trace line (60_exceptions.md R180) -/

/-- The end of a step emits no line. -/
theorem finishStep_traceLog (h : finishStep s = .next t) : t.traceLog = s.traceLog := by
  obtain ⟨v, u, hu, rfl⟩ | ⟨u, hu, -, rfl⟩ := finishStep_next h
  · exact (ServiceFrame.of_htifService hu).traceLog
  · exact (ServiceFrame.of_htifService hu).traceLog

/-- Settles O57: the line of the instruction is the only one a step emits. -/
theorem traceEmitsOneLine : Obligations.TraceEmitsOneLine := by
  intro s t u i hx h
  have hlog := finishStep_traceLog (hx.step_eq.symm.trans h)
  rw [traceAfter_eq, State.captureFetch_cfg, hx.sameOutside.traceLog, State.captureFetch_traceLog] at hlog
  refine ⟨fun hon => ⟨traceLine i s.captureFetch t, ?_, rfl, rfl, rfl⟩, fun hoff => ?_⟩
  · simpa [hon] using hlog
  · simpa [hoff] using hlog

end Sys2Proof.Machine
end

section
/-! SUPPORT. The upper immediates (41_upper_immediate.md R108, R109). -/

namespace Sys2Proof.Machine

variable {w bits v v' : Word}

/-- A row whose mask covers the opcode alone fixes the opcode of the words that match it (30_encoding.md R76, R77). -/
theorem opcodeOf_of_matches (h : Matches w 0x0000007F bits) : opcodeOf w = opcodeOf bits :=
  field_of_match h 0 7 rfl

/-- A meaning that only writes a result has the write of that value as its whole effect. -/
theorem writeResult_writesOnlyReg (rd : Reg) (s : State) (h : v = v') :
    ∃ t, writeResult rd v s = .next t ∧ WritesOnlyReg rd v' s t :=
  ⟨_, writeResult_eq, h ▸ setX_writesOnlyReg s rd v⟩

theorem upperImm_eq_ofNat (imm20 : BitVec 20) : upperImm imm20 = BitVec.ofNat 32 (imm20.toNat * 2 ^ 12) := by
  rw [Nat.mul_comm, ← toNat_upperImm, BitVec.ofNat_toNat, BitVec.setWidth_eq]

theorem add_upperImm_eq_ofNat (pc : Word) (imm20 : BitVec 20) :
    pc + upperImm imm20 = BitVec.ofNat 32 (pc.toNat + imm20.toNat * 2 ^ 12) := by
  rw [BitVec.ofNat_add, BitVec.ofNat_toNat, BitVec.setWidth_eq, upperImm_eq_ofNat]

/-- Settles O25: the opcode alone selects each of the two, and each is one write of rd with its value modulo 2^32. -/
theorem luiAndAuipc : Obligations.LuiAndAuipc := by
  refine ⟨fun w h => ?_, fun w h => ?_, fun rd imm20 s => ?_, fun rd imm20 s => ?_⟩
  · exact decode_eq_iff.2 (.lui (opcodeOf_of_matches h))
  · exact decode_eq_iff.2 (.auipc (opcodeOf_of_matches h))
  · exact writeResult_writesOnlyReg rd s (upperImm_eq_ofNat imm20)
  · exact writeResult_writesOnlyReg rd s (add_upperImm_eq_ofNat s.pc imm20)

end Sys2Proof.Machine
end

section
/-! SUPPORT. The jumps (42_jumps.md R110, R111). -/

namespace Sys2Proof.Machine

variable {target target' : Word}

/-- The link value as a sum modulo 2^32 (42_jumps.md R110, R111). -/
theorem State.linkValue_eq_ofNat (s : State) : s.linkValue = BitVec.ofNat 32 (s.pc.toNat + 4) := by
  rw [BitVec.ofNat_add, BitVec.ofNat_toNat, BitVec.setWidth_eq]
  rfl

/-- The link written, then the pc, is the whole effect of a jump, whatever its target. -/
theorem setX_writePc_linksAndJumps (s : State) (rd : Reg) (link target : Word) :
    LinksAndJumps rd link target s ((s.setX rd link).writePc target) where
  reg := s.setX_regWritten rd link
  pc := rfl
  flag := rfl
  memory := fun _ => rfl
  rest := ⟨rfl, rfl, rfl, rfl, rfl, rfl, rfl, rfl, rfl⟩

/-- A meaning that links and jumps completes for every target. -/
theorem linkAndJump_linksAndJumps (rd : Reg) (s : State) (h : target = target') :
    ∃ t, linkAndJump rd target s = .next t ∧ LinksAndJumps rd (BitVec.ofNat 32 (s.pc.toNat + 4)) target' s t :=
  ⟨_, linkAndJump_eq, h ▸ s.linkValue_eq_ofNat ▸ setX_writePc_linksAndJumps s rd s.linkValue target⟩

/-- Settles O26: the opcode alone selects JAL, and its target is the pc plus the offset modulo 2^32. -/
theorem jalLinksAndJumps : Obligations.JalLinksAndJumps := by
  refine ⟨fun w h => ?_, fun rd offset s => ?_⟩
  · exact decode_eq_iff.2 (.jal (opcodeOf_of_matches h))
  · exact linkAndJump_linksAndJumps rd s (s.jumpTarget_eq_ofInt offset)

/-- Settles O27: the opcode alone selects JALR, and its target is made from the rs1 of the state before the link. -/
theorem jalrLinksAndJumps : Obligations.JalrLinksAndJumps := by
  refine ⟨fun w h => ?_, fun rd rs1 imm s => ?_⟩
  · exact decode_eq_iff.2 (.jalr (opcodeOf_of_matches h))
  · exact linkAndJump_linksAndJumps rd s (s.indirectTarget_eq_ofInt rs1 imm)

end Sys2Proof.Machine
end

section
/-! SUPPORT. Words that match a row whose mask covers funct3, or funct3 and funct7 (30_encoding.md R78 to R83): the
row's fixed bits select the instruction. -/

namespace Sys2Proof.Machine

variable {w bits : Word} {r : Except DecodeError Instr}

/-- A row of opcode and funct3 selects the case of the decoder that its fixed bits select. -/
theorem decode_of_matches_funct3 (h : Matches w 0x0000707F bits)
    (hd : opcodeOf w = opcodeOf bits → funct3Of w = funct3Of bits → DecodesTo w r) : decode w = r :=
  decode_eq_iff.2 (hd (field_of_match h 0 7 rfl) (field_of_match h 12 3 rfl))

/-- A row of opcode, funct3 and funct7 selects the case of the decoder that its fixed bits select. -/
theorem decode_of_matches_funct7 (h : Matches w 0xFE00707F bits)
    (hd : opcodeOf w = opcodeOf bits → funct3Of w = funct3Of bits → funct7Of w = funct7Of bits → DecodesTo w r) :
    decode w = r :=
  decode_eq_iff.2 (hd (field_of_match h 0 7 rfl) (field_of_match h 12 3 rfl) (field_of_match h 25 7 rfl))

end Sys2Proof.Machine
end

section
/-! SUPPORT. The computing instructions (43_op_imm.md R113 to R122, 44_op.md R123 to R132): the values they write, as
integers. -/

namespace Sys2Proof.Machine

/-! ### The extended immediate -/

theorem extendImm_eq_ofInt (imm : BitVec 12) : extendImm imm = BitVec.ofInt 32 imm.toInt := rfl

theorem toInt_extendImm (imm : BitVec 12) : (extendImm imm).toInt = imm.toInt :=
  BitVec.toInt_signExtend_of_le (by decide)

/-- The sign-extended immediate read as an unsigned number (90_conflicts.md C10). -/
theorem toNat_extendImm (imm : BitVec 12) : ((extendImm imm).toNat : Int) = imm.toInt % 2 ^ 32 := by
  rw [extendImm_eq_ofInt, BitVec.toNat_ofInt, Int.toNat_of_nonneg (Int.emod_nonneg _ (by decide))]
  rfl

/-! ### Addition and subtraction (R114, R123, R124) -/

theorem add_extendImm_eq_ofInt (a : Word) (imm : BitVec 12) :
    a + extendImm imm = BitVec.ofInt 32 (a.toInt + imm.toInt) := by
  rw [BitVec.ofInt_add, BitVec.ofInt_toInt, extendImm_eq_ofInt]

theorem sub_eq_ofInt (a b : Word) : a - b = BitVec.ofInt 32 (a.toInt - b.toInt) := by
  rw [Int.sub_eq_add_neg, BitVec.ofInt_add, BitVec.ofInt_neg, BitVec.ofInt_toInt, BitVec.ofInt_toInt,
    BitVec.sub_eq_add_neg]

/-- Settles O28: each of the three is one write of rd, with the sum or difference modulo 2^32. -/
theorem additionAndSubtraction : Obligations.AdditionAndSubtraction := by
  refine ⟨fun w h => ?_, fun rd rs1 imm s => ?_, fun w h => ?_, fun w h => ?_, fun rd rs1 rs2 s => ?_,
    fun rd rs1 rs2 s => ?_⟩
  · exact decode_of_matches_funct3 h .addi
  · exact writeResult_writesOnlyReg rd s (add_extendImm_eq_ofInt _ imm)
  · exact decode_of_matches_funct7 h .add
  · exact decode_of_matches_funct7 h .sub
  · exact writeResult_writesOnlyReg rd s (BitVec.add_def _ _)
  · exact writeResult_writesOnlyReg rd s (sub_eq_ofInt _ _)

/-! ### Comparisons (R115, R116, R126, R127) -/

/-- A comparison's result is 1 exactly when its condition holds. -/
theorem flagWord_eq_ite {c : Bool} {p : Prop} [Decidable p] (h : c = true ↔ p) :
    flagWord c = if p then 1 else 0 :=
  if_congr h rfl rfl

theorem lessSigned_extendImm_iff (a : Word) (imm : BitVec 12) :
    lessSigned a (extendImm imm) = true ↔ a.toInt < imm.toInt := by
  rw [lessSigned_iff, toInt_extendImm]

theorem lessUnsigned_extendImm_iff (a : Word) (imm : BitVec 12) :
    lessUnsigned a (extendImm imm) = true ↔ (a.toNat : Int) < imm.toInt % 2 ^ 32 := by
  rw [lessUnsigned_iff, ← toNat_extendImm, Nat.cast_lt]

/-- Settles O29: each of the four is one write of rd, with the flag of its comparison on signed or unsigned numbers. -/
theorem setIfLessThan : Obligations.SetIfLessThan := by
  refine ⟨fun w h => ?_, fun w h => ?_, fun rd rs1 imm s => ?_, fun rd rs1 imm s => ?_, fun w h => ?_, fun w h => ?_,
    fun rd rs1 rs2 s => ?_, fun rd rs1 rs2 s => ?_⟩
  · exact decode_of_matches_funct3 h .slti
  · exact decode_of_matches_funct3 h .sltiu
  · exact writeResult_writesOnlyReg rd s (flagWord_eq_ite (lessSigned_extendImm_iff _ imm))
  · exact writeResult_writesOnlyReg rd s (flagWord_eq_ite (lessUnsigned_extendImm_iff _ imm))
  · exact decode_of_matches_funct7 h .slt
  · exact decode_of_matches_funct7 h .sltu
  · exact writeResult_writesOnlyReg rd s (flagWord_eq_ite (lessSigned_iff _ _))
  · exact writeResult_writesOnlyReg rd s (flagWord_eq_ite (lessUnsigned_iff _ _))

/-! ### Logic (R117 to R119, R128, R131, R132) -/

/-- Settles O30: each of the six is one write of rd; an immediate is sign-extended first. -/
theorem logicInstructions : Obligations.LogicInstructions := by
  refine ⟨fun w h => ?_, fun w h => ?_, fun w h => ?_, fun rd rs1 imm s => ?_, fun rd rs1 imm s => ?_,
    fun rd rs1 imm s => ?_, fun w h => ?_, fun w h => ?_, fun w h => ?_, fun rd rs1 rs2 s => ?_,
    fun rd rs1 rs2 s => ?_, fun rd rs1 rs2 s => ?_⟩
  · exact decode_of_matches_funct3 h .xori
  · exact decode_of_matches_funct3 h .ori
  · exact decode_of_matches_funct3 h .andi
  · exact writeResult_writesOnlyReg rd s (congrArg (_ ^^^ ·) (extendImm_eq_ofInt imm))
  · exact writeResult_writesOnlyReg rd s (congrArg (_ ||| ·) (extendImm_eq_ofInt imm))
  · exact writeResult_writesOnlyReg rd s (congrArg (_ &&& ·) (extendImm_eq_ofInt imm))
  · exact decode_of_matches_funct7 h .xor
  · exact decode_of_matches_funct7 h .or
  · exact decode_of_matches_funct7 h .and
  · exact writeResult_writesOnlyReg rd s rfl
  · exact writeResult_writesOnlyReg rd s rfl
  · exact writeResult_writesOnlyReg rd s rfl

/-! ### Shifts (R120 to R122, R125, R129, R130) -/

variable {n m : Nat}

theorem shiftLeft_eq_ofNat (a : Word) (h : n = m) : a <<< n = BitVec.ofNat 32 (a.toNat * 2 ^ m) := by
  rw [← h, ← Nat.shiftLeft_eq]
  rfl

theorem ushiftRight_eq_ofNat (a : Word) (h : n = m) : a >>> n = BitVec.ofNat 32 (a.toNat / 2 ^ m) := by
  rw [← h, ← Nat.shiftRight_eq_div_pow, ← BitVec.toNat_ushiftRight, BitVec.ofNat_toNat, BitVec.setWidth_eq]

theorem sshiftRight_eq_ofInt (a : Word) (h : n = m) : a.sshiftRight n = BitVec.ofInt 32 (a.toInt / 2 ^ m) := by
  rw [← h, BitVec.sshiftRight_eq, Int.shiftRight_eq_div_pow, Nat.cast_pow, Nat.cast_ofNat]

/-- Settles O31: each of the six is one write of rd, with the product or quotient by a power of two; a register's amount
is its value modulo 32. -/
theorem shiftInstructions : Obligations.ShiftInstructions := by
  refine ⟨fun w h => ?_, fun w h => ?_, fun w h => ?_, fun rd rs1 shamt s => ?_, fun rd rs1 shamt s => ?_,
    fun rd rs1 shamt s => ?_, fun w h => ?_, fun w h => ?_, fun w h => ?_, fun rd rs1 rs2 s => ?_,
    fun rd rs1 rs2 s => ?_, fun rd rs1 rs2 s => ?_⟩
  · exact decode_of_matches_funct7 h .slli
  · exact decode_of_matches_funct7 h .srli
  · exact decode_of_matches_funct7 h .srai
  · exact writeResult_writesOnlyReg rd s (shiftLeft_eq_ofNat _ rfl)
  · exact writeResult_writesOnlyReg rd s (ushiftRight_eq_ofNat _ rfl)
  · exact writeResult_writesOnlyReg rd s (sshiftRight_eq_ofInt _ rfl)
  · exact decode_of_matches_funct7 h .sll
  · exact decode_of_matches_funct7 h .srl
  · exact decode_of_matches_funct7 h .sra
  · exact writeResult_writesOnlyReg rd s (shiftLeft_eq_ofNat _ (shiftAmount_eq s rs2))
  · exact writeResult_writesOnlyReg rd s (ushiftRight_eq_ofNat _ (shiftAmount_eq s rs2))
  · exact writeResult_writesOnlyReg rd s (sshiftRight_eq_ofInt _ (shiftAmount_eq s rs2))

end Sys2Proof.Machine
end

section
/-! SUPPORT. The loads (45_loads.md R133 to R138): the address, the value that the bytes in memory hold, and its
extension, as integers. -/

namespace Sys2Proof.Machine

/-! ### The addressing mode (R133) -/

/-- Settles O23: the displacement, sign-extended, is its value modulo 2^32, and so is the sum. -/
theorem effectiveAddressWraps : Obligations.EffectiveAddressWraps := by
  intro s rs1 imm
  calc ((s.effectiveAddress rs1 imm).toNat : Int)
      = ((s.x rs1).toNat + (extendImm imm).toNat) % 2 ^ 32 := by
        rw [State.effectiveAddress, BitVec.toNat_add, Int.natCast_emod, Nat.cast_add]
        rfl
    _ = ((s.x rs1).toNat + imm.toInt) % 2 ^ 32 := by rw [toNat_extendImm, Int.add_emod_emod]

/-! ### The bytes at an address, put together (20_memory.md R47) -/

variable {s : State} {a m n v : Nat}

theorem State.toNat_byte (s : State) (a : Nat) : (s.byte a).toNat = s.valueAt a 1 := by
  simp [State.valueAt]

/-- One more byte below the bytes already put together. -/
theorem State.toNat_append_byte {x : BitVec m} (hx : x.toNat = s.valueAt (a + 1) n) :
    (x ++ s.byte a).toNat = s.valueAt a (1 + n) := by
  rw [BitVec.toNat_append, ← Nat.shiftLeft_add_eq_or_of_lt (s.byte a).isLt, Nat.shiftLeft_eq, hx, s.toNat_byte,
    s.valueAt_add, Nat.add_comm]

theorem State.toNat_half (s : State) (a : Nat) : (s.byte (a + 1) ++ s.byte a).toNat = s.valueAt a 2 :=
  State.toNat_append_byte (s.toNat_byte (a + 1))

theorem State.toNat_word (s : State) (a : Nat) :
    (s.byte (a + 3) ++ s.byte (a + 2) ++ s.byte (a + 1) ++ s.byte a).toNat = s.valueAt a 4 :=
  State.toNat_append_byte (State.toNat_append_byte (s.toNat_half (a + 2)))

/-! ### The loaded value, extended (R134 to R138) -/

theorem ofNat_eq_of_toNat {x : BitVec n} (hx : x.toNat = v) : BitVec.ofNat n v = x := by
  rw [← hx, BitVec.ofNat_toNat, BitVec.setWidth_eq]

theorem setWidth_ofNat_of_toNat {x : BitVec n} (hn : n ≤ 32) (hx : x.toNat = v) :
    (BitVec.ofNat 32 v).setWidth n = x := by
  rw [BitVec.setWidth_ofNat_of_le hn, ofNat_eq_of_toNat hx]

theorem sext_ofNat_eq_ofInt {x : BitVec n} (hn : n ≤ 32) (hx : x.toNat = v) :
    sext n (BitVec.ofNat 32 v) = BitVec.ofInt 32 x.toInt := by
  rw [sext, setWidth_ofNat_of_toNat hn hx]
  rfl

theorem zext_ofNat_eq_ofNat {x : BitVec n} (hn : n ≤ 32) (hx : x.toNat = v) :
    zext n (BitVec.ofNat 32 v) = BitVec.ofNat 32 x.toNat := by
  rw [zext, setWidth_ofNat_of_toNat hn hx, BitVec.ofNat_toNat]

/-! ### The loads -/

/-- An aligned load in range has the write of the extended value as its whole effect. -/
theorem loadInto_writesOnlyReg {ext : Word → Word} {ea w : Word} (rd : Reg) (ha : ea.toNat % n = 0)
    (hr : s.cfg.InRange ea.toNat n) (hw : ext (BitVec.ofNat 32 (s.valueAt ea.toNat n)) = w) :
    ∃ t, loadInto rd n ext ea s = .next t ∧ WritesOnlyReg rd w s t :=
  ⟨_, loadInto_eq_next ha hr, hw ▸ setX_writesOnlyReg s rd _⟩

/-- Settles O32: one byte is aligned at every address, so only the range is checked. -/
theorem byteLoads : Obligations.ByteLoads := by
  refine ⟨fun w h => ?_, fun w h => ?_, fun rd rs1 imm s => ⟨fun hr => ⟨?_, ?_⟩, fun hr => ⟨?_, ?_⟩⟩⟩
  · exact decode_of_matches_funct3 h .lb
  · exact decode_of_matches_funct3 h .lbu
  · exact loadInto_writesOnlyReg rd (Nat.mod_one _) hr (sext_ofNat_eq_ofInt (by decide) (s.toNat_byte _))
  · exact loadInto_writesOnlyReg rd (Nat.mod_one _) hr (zext_ofNat_eq_ofNat (by decide) (s.toNat_byte _))
  · exact loadInto_outOfRange (Nat.mod_one _) hr
  · exact loadInto_outOfRange (Nat.mod_one _) hr

/-- Settles O33: the two bytes put together, sign- or zero-extended, or the error of the first check that fails. -/
theorem halfLoads : Obligations.HalfLoads := by
  refine ⟨fun w h => ?_, fun w h => ?_,
    fun rd rs1 imm s => ⟨fun ha hr => ⟨?_, ?_⟩, fun ha => ⟨?_, ?_⟩, fun ha hr => ⟨?_, ?_⟩⟩⟩
  · exact decode_of_matches_funct3 h .lh
  · exact decode_of_matches_funct3 h .lhu
  · exact loadInto_writesOnlyReg rd ha hr (sext_ofNat_eq_ofInt (by decide) (s.toNat_half _))
  · exact loadInto_writesOnlyReg rd ha hr (zext_ofNat_eq_ofNat (by decide) (s.toNat_half _))
  · exact loadInto_misaligned ha
  · exact loadInto_misaligned ha
  · exact loadInto_outOfRange ha hr
  · exact loadInto_outOfRange ha hr

/-- Settles O34: the four bytes put together, not extended, or the error of the first check that fails. -/
theorem wordLoad : Obligations.WordLoad := by
  refine ⟨fun w h => ?_, fun rd rs1 imm s => ⟨fun ha hr => ?_, fun ha => ?_, fun ha hr => ?_⟩⟩
  · exact decode_of_matches_funct3 h .lw
  · exact loadInto_writesOnlyReg rd ha hr (ofNat_eq_of_toNat (s.toNat_word _))
  · exact loadInto_misaligned ha
  · exact loadInto_outOfRange ha hr

end Sys2Proof.Machine
end

section
/-! SUPPORT. The stores (46_stores.md R139 to R142): the low bits of the source register as the bytes stored. -/

namespace Sys2Proof.Machine

variable {s : State} {n v : Nat} {ea w : Word}

/-- The bytes that a write of `n` bytes leaves are those of the value's low `8 * n` bits (20_memory.md R48). -/
theorem writeBytes_storesOnly_lowBits (s : State) (a n v : Nat) :
    StoresOnly a n (v % 2 ^ (8 * n)) s (s.withMem (s.mem.writeBytes a (leBytes n v))) where
  __ := writeBytes_storesOnly s a n v
  stored := fun _ hk => by rw [← valueAt_writeBytes_same, State.valueAt_byte _ _ hk, State.toNat_byte]

/-- An aligned store in range has the write of the register's low `8 * n` bits as its whole effect (R139). -/
theorem storeFrom_storesOnly (ha : ea.toNat % n = 0) (hr : s.cfg.InRange ea.toNat n)
    (hv : w.toNat % 2 ^ (8 * n) = v) : ∃ t, storeFrom n ea w s = .next t ∧ StoresOnly ea.toNat n v s t :=
  ⟨_, storeFrom_eq_next ha hr, hv ▸ writeBytes_storesOnly_lowBits s ea.toNat n w.toNat⟩

/-- Settles O35: the low 1, 2 or 4 bytes of the register, all of it for SW, or the error of the first check that fails;
one byte is aligned at every address. -/
theorem storesWriteLowBytes : Obligations.StoresWriteLowBytes := by
  refine ⟨fun w h => ?_, fun rs2 rs1 imm s => ⟨fun hr => ?_, fun hr => ?_⟩,
    fun w h => ?_, fun rs2 rs1 imm s => ⟨fun ha hr => ?_, fun ha => ?_, fun ha hr => ?_⟩,
    fun w h => ?_, fun rs2 rs1 imm s => ⟨fun ha hr => ?_, fun ha => ?_, fun ha hr => ?_⟩⟩
  · exact decode_of_matches_funct3 h .sb
  · exact storeFrom_storesOnly (Nat.mod_one _) hr rfl
  · exact storeFrom_outOfRange (Nat.mod_one _) hr
  · exact decode_of_matches_funct3 h .sh
  · exact storeFrom_storesOnly ha hr rfl
  · exact storeFrom_misaligned ha
  · exact storeFrom_outOfRange ha hr
  · exact decode_of_matches_funct3 h .sw
  · exact storeFrom_storesOnly ha hr (Nat.mod_eq_of_lt (s.x rs2).isLt)
  · exact storeFrom_misaligned ha
  · exact storeFrom_outOfRange ha hr

end Sys2Proof.Machine
end

section
/-! SUPPORT. The branches (47_branches.md R143 to R149): the target modulo 2^32, and the two ways a branch ends. -/

namespace Sys2Proof.Machine

theorem State.branchTarget_eq_ofInt (s : State) (offset : BitVec 13) :
    s.branchTarget offset = BitVec.ofInt 32 (s.pc.toNat + offset.toInt) := by
  rw [BitVec.ofInt_add, BitVec.ofInt_natCast, BitVec.ofNat_toNat, BitVec.setWidth_eq]
  rfl

/-- A branch whose condition holds has the write of its target to the pc as its whole effect (R143). -/
theorem branchIf_writesOnlyPc {c : Bool} (offset : BitVec 13) (s : State) (h : c = true) :
    ∃ t, branchIf c offset s = .next t ∧ WritesOnlyPc (BitVec.ofInt 32 (s.pc.toNat + offset.toInt)) s t :=
  ⟨_, branchIf_taken h, s.branchTarget_eq_ofInt offset ▸ writePc_writesOnlyPc s (s.branchTarget offset)⟩

/-- Settles O36: equal operands take BEQ and leave BNE, unequal ones the other way round. -/
theorem equalityBranches : Obligations.EqualityBranches := by
  refine ⟨fun w h => ?_, fun w h => ?_, fun rs1 rs2 offset s => ⟨fun heq => ?_, fun hne => ?_, fun hne => ?_,
    fun heq => ?_⟩⟩
  · exact decode_of_matches_funct3 h .beq
  · exact decode_of_matches_funct3 h .bne
  · exact branchIf_writesOnlyPc offset s (beq_iff_eq.2 heq)
  · exact branchIf_not_taken (beq_eq_false_iff_ne.2 hne)
  · exact branchIf_writesOnlyPc offset s (bne_iff_ne.2 hne)
  · exact branchIf_not_taken (bne_eq_false_iff_eq.2 heq)

/-- What BLT and BGE, or BLTU and BGEU, do with the outcome `c` of one comparison: the first branches when it holds,
and the second when it does not. -/
theorem branchIf_complementary {c : Bool} {p q : Prop} (offset : BitVec 13) (s : State) (hp : c = true ↔ p)
    (hq : (!c) = true ↔ q) :
    let target := BitVec.ofInt 32 (s.pc.toNat + offset.toInt)
    (p → (∃ t, branchIf c offset s = .next t ∧ WritesOnlyPc target s t) ∧ branchIf (!c) offset s = .next s) ∧
    (q → (∃ t, branchIf (!c) offset s = .next t ∧ WritesOnlyPc target s t) ∧ branchIf c offset s = .next s) := by
  refine ⟨fun h => ⟨branchIf_writesOnlyPc offset s (hp.2 h), branchIf_not_taken ?_⟩,
    fun h => ⟨branchIf_writesOnlyPc offset s (hq.2 h), branchIf_not_taken ?_⟩⟩
  · exact (Bool.not_eq_false' c).mpr (hp.2 h)
  · exact (Bool.not_eq_true' c).mp (hq.2 h)

/-- Settles O37: a signed comparison decides BLT and BGE, an unsigned one BLTU and BGEU, in opposite senses. -/
theorem orderBranches : Obligations.OrderBranches := by
  refine ⟨fun w h => ?_, fun w h => ?_, fun rs1 rs2 offset s => ?_, fun w h => ?_, fun w h => ?_,
    fun rs1 rs2 offset s => ?_⟩
  · exact decode_of_matches_funct3 h .blt
  · exact decode_of_matches_funct3 h .bge
  · exact branchIf_complementary offset s (lessSigned_iff _ _) (not_lessSigned_iff _ _)
  · exact decode_of_matches_funct3 h .bltu
  · exact decode_of_matches_funct3 h .bgeu
  · exact branchIf_complementary offset s (lessUnsigned_iff _ _) (not_lessUnsigned_iff _ _)

end Sys2Proof.Machine
end

section
/-! SUPPORT. The trace (60_exceptions.md R182): every part of a step commutes with leaving the trace out of the state
it starts from. -/

namespace Sys2Proof.Machine

@[simp] theorem untracedOutcome_untracedOutcome (o : Host.Outcome State Fault Refusal) :
    untracedOutcome (untracedOutcome o) = untracedOutcome o := by
  cases o <;> rfl

/-! ### Accesses -/

theorem checkAccess_untraced (s : State) (a n : Nat) : checkAccess s.untraced.cfg a n = checkAccess s.cfg a n := rfl

theorem checkBlock_untraced (s : State) (a len : Nat) : checkBlock s.untraced.cfg a len = checkBlock s.cfg a len := rfl

theorem memRead_untraced (s : State) (a n : Nat) : memRead s.untraced a n = memRead s a n := rfl

theorem memReadBlock_untraced (s : State) (a len : Nat) : memReadBlock s.untraced a len = memReadBlock s a len := rfl

theorem memWrite_untraced (s : State) (a n v : Nat) :
    memWrite s.untraced a n v = (memWrite s a n v).map State.untraced := by
  rw [memWrite, memWrite, checkAccess_untraced]
  cases checkAccess s.cfg a n <;> rfl

theorem memWriteBlock_untraced (s : State) (a : Nat) (bs : List Byte) :
    memWriteBlock s.untraced a bs = (memWriteBlock s a bs).map State.untraced := by
  rw [memWriteBlock, memWriteBlock, checkBlock_untraced]
  cases checkBlock s.cfg a bs.length <;> rfl

/-! ### Instructions -/

theorem branchIf_untraced (c : Bool) (offset : BitVec 13) (s : State) :
    branchIf c offset s.untraced = untracedOutcome (branchIf c offset s) := by
  cases c <;> rfl

theorem loadInto_untraced (rd : Reg) (n : Nat) (ext : Word → Word) (ea : Word) (s : State) :
    loadInto rd n ext ea s.untraced = untracedOutcome (loadInto rd n ext ea s) := by
  rw [loadInto, loadInto, memRead_untraced]
  cases memRead s ea.toNat n <;> rfl

theorem storeFrom_untraced (n : Nat) (ea w : Word) (s : State) :
    storeFrom n ea w s.untraced = untracedOutcome (storeFrom n ea w s) := by
  rw [storeFrom, storeFrom, memWrite_untraced]
  cases memWrite s ea.toNat n w.toNat <;> rfl

/-- Said once for every instruction. -/
theorem exec_untraced (i : Instr) (s : State) : exec i s.untraced = untracedOutcome (exec i s) := by
  cases i with
  | beq | bne | blt | bge | bltu | bgeu => exact branchIf_untraced _ _ s
  | lb | lh | lw | lbu | lhu => exact loadInto_untraced _ _ _ _ s
  | sb | sh | sw => exact storeFrom_untraced _ _ _ s
  | _ => rfl

/-! ### The service -/

theorem readDoublewords_untraced (s : State) (p count : Nat) :
    readDoublewords s.untraced p count = readDoublewords s p count := by
  induction count generalizing p with
  | zero => rfl
  | succ count ih => simp only [readDoublewords, memRead_untraced, ih]

theorem readCommandBlock_untraced (s : State) (p : Nat) : readCommandBlock s.untraced p = readCommandBlock s p := by
  rw [readCommandBlock, readCommandBlock, readDoublewords_untraced]

theorem hostAnswered_untraced (s : State) : s.untraced.hostAnswered = s.hostAnswered.untraced := rfl

theorem hostAnswer_untraced (s : State) : s.untraced.hostAnswer = s.hostAnswer := rfl

theorem hostBuffer_untraced (s : State) (len : Nat) : s.untraced.hostBuffer len = s.hostBuffer len := rfl

theorem hostFile_untraced (s : State) (fd : Nat) : s.untraced.hostFile fd = s.hostFile fd := rfl

theorem clearTohost_untraced (s : State) : clearTohost s.untraced = (clearTohost s).map State.untraced :=
  memWrite_untraced s _ _ _

theorem htifRead_untraced (s : State) (fd buf len : Nat) :
    htifRead s.untraced fd buf len = (htifRead s fd buf len).map State.untraced := by
  unfold htifRead
  rw [hostFile_untraced, hostAnswered_untraced, hostBuffer_untraced, hostAnswer_untraced, memWriteBlock_untraced]
  cases s.hostFile fd with
  | none => rfl
  | some f =>
    cases memWriteBlock s.hostAnswered buf (s.hostBuffer len) with
    | error k => rfl
    | ok t => exact memWrite_untraced t _ _ _

theorem htifWrite_untraced (s : State) (fd buf len : Nat) :
    htifWrite s.untraced fd buf len = (htifWrite s fd buf len).map State.untraced := by
  unfold htifWrite
  rw [memReadBlock_untraced, hostFile_untraced]
  cases memReadBlock s buf len with
  | error k => rfl
  | ok bytes =>
    cases s.hostFile fd with
    | none => rfl
    | some file => exact memWrite_untraced (s.hostAnswered.emitOutput ⟨fd, file, bytes⟩) _ _ _

theorem endCommand_untraced (e : Except Fault State) :
    endCommand (e.map State.untraced) = (endCommand e).map (Prod.map id State.untraced) := by
  cases e with
  | error k => rfl
  | ok t =>
    simp only [Except.map, endCommand, clearTohost_untraced]
    cases clearTohost t <;> rfl

theorem serveCommand_untraced (s : State) (c : Command) :
    serveCommand s.untraced c = (serveCommand s c).map (Prod.map id State.untraced) := by
  unfold serveCommand
  split
  · rfl
  · split
    · rw [htifRead_untraced, endCommand_untraced]
    · split
      · rw [htifWrite_untraced, endCommand_untraced]
      · rfl

theorem htifService_untraced (s : State) :
    htifService s.untraced = (htifService s).map (Prod.map id State.untraced) := by
  unfold htifService
  rw [memRead_untraced]
  cases memRead s tohostAddr 8 with
  | error k => rfl
  | ok p =>
    by_cases h0 : p = 0
    · simp only [h0, if_true]; rfl
    · simp only [h0, if_false, readCommandBlock_untraced]
      cases readCommandBlock s p with
      | error k => rfl
      | ok c => exact serveCommand_untraced s c

/-! ### The step -/

theorem completeStep_untraced (s : State) : completeStep s.untraced = untracedOutcome (completeStep s) := by
  unfold completeStep
  rw [State.untraced_cycleCount]
  split <;> rfl

theorem finishStep_untraced (s : State) : finishStep s.untraced = untracedOutcome (finishStep s) := by
  unfold finishStep
  rw [htifService_untraced]
  rcases htifService s with k | ⟨_ | v, t⟩
  · rfl
  · exact completeStep_untraced t
  · rfl

theorem fetchInstr_untraced (s : State) : fetchInstr s.untraced = fetchInstr s := rfl

/-- With TRACE off no line is emitted. -/
theorem traceAfter_of_untraced (i : Instr) (s t : State) : traceAfter i s.untraced t = t := rfl

/-- Apart from the trace, emitting a line leaves the state as it is. -/
@[simp] theorem untraced_traceAfter (i : Instr) (s t : State) : (traceAfter i s t).untraced = t.untraced := by
  rw [traceAfter_eq]
  rfl

theorem coreStep_untraced (s : State) : coreStep s.untraced = untracedOutcome (coreStep s) := by
  have hc : s.untraced.captureFetch = s.captureFetch.untraced := rfl
  unfold coreStep
  rw [hc, fetchInstr_untraced]
  cases fetchInstr s.captureFetch with
  | error k => rfl
  | ok i =>
    simp only [exec_untraced, traceAfter_of_untraced]
    cases exec i s.captureFetch with
    | fault k => rfl
    | refused r => rfl
    | next t =>
      calc finishStep t.untraced
        _ = finishStep (traceAfter i s.captureFetch t).untraced := by rw [untraced_traceAfter]
        _ = untracedOutcome (finishStep (traceAfter i s.captureFetch t)) := finishStep_untraced _

theorem valid_untraced (s : State) : s.untraced.cfg.valid = s.cfg.valid := rfl

theorem limitReached_untraced (s : State) : limitReached s.untraced = limitReached s := rfl

/-- A step commutes with leaving the trace out, whatever the state and the answer. -/
theorem step_untraced (s : State) : step s.untraced = untracedOutcome (step s) := by
  unfold step runTurn
  rw [valid_untraced, State.untraced_runStatus, limitReached_untraced]
  split
  · cases s.runStatus with
    | running => cases limitReached s with
      | true => rfl
      | false => exact coreStep_untraced s
    | _ => rfl
  · rfl

/-- Settles O56: by `step_untraced`, leaving the trace out twice being the same as once. -/
theorem traceHasNoArchitecturalEffect : Obligations.TraceHasNoArchitecturalEffect := by
  intro s
  rw [step_untraced, untracedOutcome_untracedOutcome]

end Sys2Proof.Machine
end

section
/-! SUPPORT. The errors of an instruction (60_exceptions.md R155, R159, 20_memory.md R50): those of its own access. -/

namespace Sys2Proof.Machine

variable {s t : State} {i : Instr} {n : Nat}

/-- An instruction that accesses no memory completes: no jump or branch checks its target (42_jumps.md R112). -/
theorem exec_of_no_access (h : accessWidth i = none) (s : State) : ∃ t, exec i s = .next t := by
  have branch (c : Bool) (offset : BitVec 13) : ∃ t, branchIf c offset s = .next t := by
    cases c <;> exact ⟨_, rfl⟩
  cases i with
  | beq | bne | blt | bge | bltu | bgeu => exact branch _ _
  | lb | lh | lw | lbu | lhu | sb | sh | sw => cases h
  | _ => exact ⟨_, rfl⟩

/-- An instruction with an access is a load or a store of that width at that address. -/
theorem exec_of_access (h : accessWidth i = some n) (s : State) : ∃ ea : Word, accessAddress s i = ea.toNat ∧
    ((∃ rd ext, exec i s = loadInto rd n ext ea s) ∨ ∃ w, exec i s = storeFrom n ea w s) := by
  cases i with
  | lb | lh | lw | lbu | lhu => cases h; exact ⟨_, rfl, .inl ⟨_, _, rfl⟩⟩
  | sb | sh | sw => cases h; exact ⟨_, rfl, .inr ⟨_, rfl⟩⟩
  | _ => cases h

/-- Settles O21: without an access every instruction completes, and with one its outcome is that of a load's read or of
a store's write. -/
theorem executionErrorsExactly : Obligations.ExecutionErrorsExactly := by
  refine fun i s => ⟨fun h => exec_of_no_access h s, fun n h => ?_⟩
  obtain ⟨ea, ha, ⟨rd, ext, he⟩ | ⟨w, he⟩⟩ := exec_of_access h s <;> rw [ha, he]
  · exact ⟨loadInto_misaligned, loadInto_outOfRange, fun h0 hr => ⟨_, loadInto_eq_next h0 hr⟩⟩
  · exact ⟨storeFrom_misaligned, storeFrom_outOfRange, fun h0 hr => ⟨_, storeFrom_eq_next h0 hr⟩⟩

end Sys2Proof.Machine
end

section
/-! SUPPORT. The HTIF commands (60_exceptions.md R166 to R177), and the step whose instruction left one pending
(40_step.md R102 to R104): the trace line between the two does not matter to the service. -/

namespace Sys2Proof.Machine

variable {s t u : State} {i : Instr} {k : Fault} {st : StepStatus} {fd buf len n a0 a1 a2 : Nat} {file : HostFile}

/-! ### The service after the trace line -/

/-- The service answers states that differ in their trace alone alike (R182). -/
theorem htifService_map_traceAfter (i : Instr) (s t : State) :
    (htifService (traceAfter i s t)).map (Prod.map id State.untraced) =
      (htifService t).map (Prod.map id State.untraced) := by
  rw [← htifService_untraced, ← htifService_untraced, untraced_traceAfter]

theorem htifService_traceAfter_error (h : htifService t = .error k) : htifService (traceAfter i s t) = .error k := by
  have hm := htifService_map_traceAfter i s t
  rw [h] at hm
  cases he : htifService (traceAfter i s t) <;> rw [he] at hm <;> cases hm
  rfl

theorem htifService_traceAfter_ok (h : htifService t = .ok (st, u)) :
    ∃ v, htifService (traceAfter i s t) = .ok (st, v) ∧ v.untraced = u.untraced := by
  have hm := htifService_map_traceAfter i s t
  rw [h] at hm
  rcases he : htifService (traceAfter i s t) with k | ⟨st', v⟩ <;> rw [he] at hm
  · cases hm
  · obtain ⟨hst, hv⟩ := Prod.mk.inj (Except.ok.inj hm)
    obtain rfl : st' = st := hst
    exact ⟨v, rfl, hv⟩

/-- An error of the service is the error of the step (R156). -/
theorem State.Executes.step_of_service_error (h : s.Executes i t) (hk : htifService t = .error k) :
    step s = .fault k :=
  h.step_eq.trans (finishStep_error (htifService_traceAfter_error hk))

theorem serviceFails_of_error (hk : htifService t = .error k) : ServiceFails t k :=
  ⟨hk, fun _ _ h => h.step_of_service_error hk⟩

/-- The instruction of a step leaves the configuration admissible. -/
theorem State.Executes.valid (h : s.Executes i t) : t.cfg.valid = true := by
  rw [h.sameOutside.cfg]
  exact h.ready.config

/-! ### EXIT and the command errors (R168 to R170) -/

theorem htifService_misaligned (hc : t.cfg.valid = true) (h0 : t.valueAt tohostAddr 8 ≠ 0)
    (ha : t.valueAt tohostAddr 8 % 8 ≠ 0) :
    htifService t = .error (.misalignedAccess (t.valueAt tohostAddr 8) 8) := by
  rw [htifService_pending hc h0, readCommandBlock_misaligned ha]

theorem htifService_outOfRange (hc : t.cfg.valid = true) (h0 : t.valueAt tohostAddr 8 ≠ 0)
    (ha : t.valueAt tohostAddr 8 % 8 = 0) (hr : ¬ t.cfg.InRange (t.valueAt tohostAddr 8) 64) :
    ∃ k < 8, htifService t = .error (.outOfRange (t.valueAt tohostAddr 8 + 8 * k) 8) := by
  obtain ⟨k, hk, he⟩ := readCommandBlock_outOfRange ha hr
  exact ⟨k, hk, by rw [htifService_pending hc h0, he]⟩

theorem htifService_unknownSyscall (hc : t.cfg.valid = true) (h : t.Commands n a0 a1 a2) (h93 : n ≠ 93)
    (h63 : n ≠ 63) (h64 : n ≠ 64) : htifService t = .error (.unknownSyscall n) := by
  rw [htifService_commands hc h, serveCommand]
  simp only [sysExit, sysRead, sysWrite, h93, h63, h64, if_false]

theorem htifService_exit (hc : t.cfg.valid = true) (h : t.Commands 93 a0 a1 a2) :
    htifService t = .ok (.exit (BitVec.ofNat 32 a0), t) :=
  (htifService_commands hc h).trans (if_pos rfl)

/-- An EXIT ends the step where its instruction left it, but for the trace line and the run status (R102, R170). -/
theorem State.Executes.step_of_exit (h : s.Executes i t) (hx : t.Commands 93 a0 a1 a2) :
    step s = .next ((traceAfter i s.captureFetch t).withStatus (.exited (BitVec.ofNat 32 a0))) := by
  have hc : (traceAfter i s.captureFetch t).cfg.valid = true := by rw [traceAfter_cfg, h.valid]
  rw [h.step_eq, finishStep, htifService_exit hc hx.traceAfter]

/-- Settles O49: `step_of_exit`, field by field. -/
theorem exitCommandEndsTheRun : Obligations.ExitCommandEndsTheRun := by
  intro s t i a0 a1 a2 h hx
  refine ⟨_, h.step_of_exit hx, rfl, traceAfter_pc, traceAfter_branchTaken, ?_, traceAfter_x, traceAfter_byte,
    traceAfter_hostOut, traceAfter_fdTable, traceAfter_cfg⟩
  exact traceAfter_cycleCount.trans h.sameOutside.cycleCount

/-- Settles O50: each error of the service, and so of the step. -/
theorem commandErrors : Obligations.CommandErrors := by
  refine fun s t i h => ⟨fun h0 ha => ?_, fun h0 ha hr => ?_, fun id a0 a1 a2 hx h93 h63 h64 => ?_⟩
  · exact h.step_of_service_error (htifService_misaligned h.valid h0 ha)
  · obtain ⟨k, hk, he⟩ := htifService_outOfRange h.valid h0 ha hr
    exact ⟨k, hk, h.step_of_service_error he⟩
  · exact h.step_of_service_error (htifService_unknownSyscall h.valid hx h93 h63 h64)

/-! ### The checks of READ and WRITE (R171, R172) -/

theorem htifService_read (hc : t.cfg.valid = true) (h : t.Commands 63 fd buf len) :
    htifService t = endCommand (htifRead t fd buf len) :=
  htifService_commands hc h

theorem htifService_write (hc : t.cfg.valid = true) (h : t.Commands 64 fd buf len) :
    htifService t = endCommand (htifWrite t fd buf len) :=
  htifService_commands hc h

/-- Below 3 an fd names a slot (R177). -/
theorem State.hostFile_of_lt (t : State) (h : fd < 3) : ∃ file, t.hostFile fd = some file :=
  Option.ne_none_iff_exists'.1 fun hn => absurd ((t.hostFile_eq_none_iff fd).1 hn) (by omega)

theorem htifRead_eq (hf : t.hostFile fd = some file) (hr : len = 0 ∨ t.cfg.InRange buf len) :
    htifRead t fd buf len = writeFromhost (t.hostAnswered.withMem (t.mem.writeBytes buf (t.hostBuffer len)))
      (t.hostAnswer.bounded len) := by
  have hw : memWriteBlock t.hostAnswered buf (t.hostBuffer len) =
      .ok (t.hostAnswered.withMem (t.mem.writeBytes buf (t.hostBuffer len))) :=
    memWriteBlock_ok_iff.2 ⟨by simpa using hr, rfl⟩
  simp only [htifRead, hf, hw]

theorem htifRead_badFd (h : 3 ≤ fd) : htifRead t fd buf len = .error (.invalidFileDescriptor fd) := by
  simp only [htifRead, (t.hostFile_eq_none_iff fd).2 h]

theorem htifRead_badBuffer (h : fd < 3) (h0 : len ≠ 0) (hr : ¬ t.cfg.InRange buf len) :
    htifRead t fd buf len = .error (.outOfRange buf len) := by
  obtain ⟨file, hf⟩ := t.hostFile_of_lt h
  have hw : memWriteBlock t.hostAnswered buf (t.hostBuffer len) = .error (.outOfRange buf len) := by
    have := memWriteBlock_outOfRange (s := t.hostAnswered) (a := buf) (bs := t.hostBuffer len)
    rw [State.length_hostBuffer] at this
    exact this h0 hr
  simp only [htifRead, hf, hw]

theorem htifWrite_eq (hf : t.hostFile fd = some file) (hr : len = 0 ∨ t.cfg.InRange buf len) :
    htifWrite t fd buf len = writeFromhost (t.hostAnswered.emitOutput ⟨fd, file, t.mem.readBytes buf len⟩)
      (t.hostAnswer.bounded len) := by
  simp only [htifWrite, memReadBlock_ok_iff.2 ⟨hr, rfl⟩, hf]

theorem htifWrite_badFd (h : 3 ≤ fd) (hr : len = 0 ∨ t.cfg.InRange buf len) :
    htifWrite t fd buf len = .error (.invalidFileDescriptor fd) := by
  simp only [htifWrite, memReadBlock_ok_iff.2 ⟨hr, rfl⟩, (t.hostFile_eq_none_iff fd).2 h]

theorem htifWrite_badBuffer (h0 : len ≠ 0) (hr : ¬ t.cfg.InRange buf len) :
    htifWrite t fd buf len = .error (.outOfRange buf len) := by
  simp only [htifWrite, memReadBlock_outOfRange h0 hr]

/-- Settles O53: the first check that fails is the error of the command. -/
theorem readAndWriteCommandErrors : Obligations.ReadAndWriteCommandErrors := by
  refine fun t fd buf len hc => ⟨fun h hfd => ?_, fun h hfd h0 hr => ?_, fun h h0 hr => ?_, fun h hr hfd => ?_⟩ <;>
    apply serviceFails_of_error
  · rw [htifService_read hc h, htifRead_badFd hfd]; rfl
  · rw [htifService_read hc h, htifRead_badBuffer hfd h0 hr]; rfl
  · rw [htifService_write hc h, htifWrite_badBuffer h0 hr]; rfl
  · rw [htifService_write hc h, htifWrite_badFd hfd hr]; rfl

/-! ### READ and WRITE served (R171 to R176) -/

/-- fromhost written with the host's bounded answer and tohost cleared, from a state that has used up the answer of
`t` and changed nothing of the HTIF pair: the command is answered, and the bytes outside the pair are kept. -/
theorem commandAnswered_endCommand (hc : t.cfg.valid = true) (hr : len = 0 ∨ t.cfg.InRange buf len)
    (hs : s.cfg = t.cfg) (hcalls : s.hostCalls = t.hostCalls + 1) (hin : s.hostIn = t.hostIn.tail) :
    ∃ u, endCommand (writeFromhost s (t.hostAnswer.bounded len)) = .ok (.continue, u) ∧ CommandAnswered len t u ∧
      (∀ a, a < 0x2000 ∨ 0x2010 ≤ a → u.byte a = s.byte a) ∧ u.hostOut = s.hostOut := by
  obtain ⟨u, he, hto, hfrom, hb, hcalls', hin', hout⟩ :=
    endCommand_writeFromhost (s := s) (hs ▸ hc) (countDoubleword_bounded_lt t.hostAnswer hc hr)
  refine ⟨u, he, ⟨hto, fun hn => ?_, fun r hsome => ⟨HostAnswer.bounded_le hsome, ?_⟩, hcalls'.trans hcalls,
    hin'.trans hin⟩, hb, hout⟩
  · rw [hfrom, hn]; rfl
  · rw [hfrom, hsome]; rfl

theorem htifService_readServed (hc : t.cfg.valid = true) (h : t.Commands 63 fd buf len) (hfd : fd < 3)
    (hr : len = 0 ∨ t.cfg.InRange buf len) : ∃ u, htifService t = .ok (.continue, u) ∧ ReadServed buf len t u := by
  obtain ⟨file, hf⟩ := t.hostFile_of_lt hfd
  obtain ⟨u, he, hans, hb, hout⟩ := commandAnswered_endCommand hc hr
    (s := t.hostAnswered.withMem (t.mem.writeBytes buf (t.hostBuffer len))) rfl rfl rfl
  refine ⟨u, by rw [htifService_read hc h, htifRead_eq hf hr, he], hans, t.length_hostBuffer len,
    fun k hk ha => ?_, fun a ha ho => ?_, hout⟩
  · rw [hb _ ha, State.byte_withMem, Memory.read_writeBytes_inside _ _ _ hk]
  · rw [hb _ ha, State.byte_withMem, Memory.read_writeBytes_outside _ _ _ (by simpa using ho)]
    rfl

theorem htifService_writeServed (hc : t.cfg.valid = true) (h : t.Commands 64 fd buf len)
    (hf : t.hostFile fd = some file) (hr : len = 0 ∨ t.cfg.InRange buf len) :
    ∃ u, htifService t = .ok (.continue, u) ∧ WriteServed fd file buf len t u := by
  obtain ⟨u, he, hans, hb, hout⟩ := commandAnswered_endCommand hc hr
    (s := t.hostAnswered.emitOutput ⟨fd, file, t.mem.readBytes buf len⟩) rfl rfl rfl
  exact ⟨u, by rw [htifService_write hc h, htifWrite_eq hf hr, he], hans,
    ⟨_, hout, Memory.length_readBytes _ _ _, Memory.getElem_readBytes _ _ _⟩, hb⟩

/-! ### The step that serves a command (R97 (3) to (5)) -/

/-- Two states with the same memory and the same host's side. -/
structure SameHostSide (u v : State) : Prop where
  mem : v.mem = u.mem
  hostOut : v.hostOut = u.hostOut
  hostIn : v.hostIn = u.hostIn
  hostCalls : v.hostCalls = u.hostCalls

namespace SameHostSide

variable {v : State} (hs : SameHostSide u v)
include hs

theorem byte (a : Nat) : v.byte a = u.byte a := by rw [State.byte, State.byte, hs.mem]

theorem valueAt (a n : Nat) : v.valueAt a n = u.valueAt a n := State.valueAt_congr fun j _ => hs.byte (a + j)

theorem commandAnswered (h : CommandAnswered len t u) : CommandAnswered len t v where
  tohost := (hs.valueAt _ _).trans h.tohost
  failed hn := (hs.valueAt _ _).trans (h.failed hn)
  count r hr := ⟨(h.count r hr).1, (hs.valueAt _ _).trans (h.count r hr).2⟩
  calls := hs.hostCalls.trans h.calls
  input := hs.hostIn.trans h.input

theorem readServed (h : ReadServed buf len t u) : ReadServed buf len t v where
  answered := hs.commandAnswered h.answered
  length := h.length
  buffer k hk ha := (hs.byte _).trans (h.buffer k hk ha)
  memory a ha ho := (hs.byte a).trans (h.memory a ha ho)
  output := hs.hostOut.trans h.output

theorem writeServed (h : WriteServed fd file buf len t u) : WriteServed fd file buf len t v where
  answered := hs.commandAnswered h.answered
  output := hs.hostOut ▸ h.output
  memory a ha := (hs.byte a).trans (h.memory a ha)

end SameHostSide

/-- A step whose service goes on advances the pc and counts, with memory and the host's side as the service left
them. -/
theorem State.Executes.step_of_service_continue (h : s.Executes i t) (hlast : s.cycleCount.toNat + 1 < 2 ^ 64)
    (hu : htifService t = .ok (.continue, u)) : ∃ v, step s = .next v ∧ SameHostSide u v ∧ StepGoesOn s t v := by
  obtain ⟨v, hv, he⟩ := htifService_traceAfter_ok (i := i) (s := s.captureFetch) hu
  have hf := ServiceFrame.of_htifService hv
  have hcount : v.cycleCount = s.cycleCount := by
    rw [hf.cycleCount, traceAfter_cycleCount, h.sameOutside.cycleCount, State.captureFetch_cycleCount]
  have hc : v.cycleCount ≠ BitVec.allOnes 64 := fun e => by
    rw [← hcount, e] at hlast
    simp at hlast
  refine ⟨_, h.step_eq.trans (finishStep_continue hv hc), ?_, h.stepGoesOn hf hc⟩
  have same {α : Type} (f : State → α) : f v.untraced = f u.untraced := congrArg f he
  exact ⟨same State.mem, same State.hostOut, same State.hostIn, same State.hostCalls⟩

/-- Settles O51: the service serves the READ, and the step keeps what the service left. -/
theorem readCommandCompletes : Obligations.ReadCommandCompletes := by
  intro t fd buf len hc hx hfd hr
  obtain ⟨u, hu, hserved⟩ := htifService_readServed hc hx hfd hr
  refine ⟨⟨u, hu, hserved⟩, fun s i h hlast => ?_⟩
  obtain ⟨v, hv, hs, hgo⟩ := h.step_of_service_continue hlast hu
  exact ⟨v, hv, hs.readServed hserved, hgo⟩

/-- Settles O52: the service serves the WRITE, and the step keeps what the service left. -/
theorem writeCommandCompletes : Obligations.WriteCommandCompletes := by
  intro t fd buf len file hc hx hf hr
  obtain ⟨u, hu, hserved⟩ := htifService_writeServed hc hx hf hr
  refine ⟨⟨u, hu, hserved⟩, fun s i h hlast => ?_⟩
  obtain ⟨v, hv, hs, hgo⟩ := h.step_of_service_continue hlast hu
  exact ⟨v, hv, hs.writeServed hserved, hgo⟩

end Sys2Proof.Machine
end

section
/-! SUPPORT. The launch (70_reset_and_hazards.md R185 to R189): when a run starts, when it does not, and the memory and
the invariant of the core it constructs. -/

namespace Sys2Proof.Machine

variable {c : Config} {initMem : List Host.Cell} {e : Executable} {s t : State} {m : Memory}

/-! ### Whether a run starts (R185 to R187) -/

theorem launch_eq_next {entry : Word} (hc : c.valid = true) (he : e.valid c = true) (hs : e.start = some entry) :
    launch c initMem e =
      .next (State.constructed c (loadSegments (initialMemory c initMem) e.segments) entry) := by
  simp [launch, hc, he, hs]

theorem launch_badConfiguration (hc : c.valid = false) : launch c initMem e = .refused .badConfiguration := by
  simp [launch, hc]

theorem launch_loaderError (hc : c.valid = true) (h : e.valid c = false ∨ e.start = none) :
    launch c initMem e = .refused .loaderError := by
  rw [launch, if_pos hc]
  obtain he | hs := h
  · simp [he]
  · simp [hs]

theorem Segment.loadable_iff (c : Config) (g : Segment) :
    g.loadable c = true ↔ g.offsetInFile = true ∧ c.InRange g.paddr g.bytes.length := by
  rw [Segment.loadable, Bool.and_eq_true, decide_eq_true_eq]

/-- What the loader's validation asks (R187). -/
theorem Executable.valid_iff (c : Config) (e : Executable) : e.valid c = true ↔
    e.elfMagic = true ∧ e.elfClass32 = true ∧ e.elfData2Lsb = true ∧ e.etExec = true ∧ e.machine = 243 ∧
      e.version = 1 ∧ ∀ g ∈ e.segments, g.offsetInFile = true ∧ c.InRange g.paddr g.bytes.length := by
  simp only [Executable.valid, Bool.and_eq_true, beq_iff_eq, List.all_eq_true, Segment.loadable_iff, and_assoc]

/-- Settles O1: the constructed core, field by field; x1 to x31 are read from a storage of zeros. -/
theorem launchConstructsTheCore : Obligations.LaunchConstructsTheCore := by
  intro c initMem e entry hc he hs
  refine ⟨_, launch_eq_next hc he hs, rfl, fun r => ?_, rfl, rfl, rfl, rfl, rfl, rfl, fun fd hfd => ?_, rfl, rfl, rfl⟩
  · by_cases hr : r = 0
    · rw [hr, State.x_zero]
    · rw [State.x_of_ne_zero _ hr]
      exact Vector.getElem_replicate r.isLt
  · exact (State.hostFile_eq_none_iff _ fd).2 hfd

/-- Settles O3: each listed condition fails the validation, but for the missing `_start`, which is asked for after
it. -/
theorem launchRefusesBadInput : Obligations.LaunchRefusesBadInput := by
  refine fun c initMem e => ⟨launch_badConfiguration, fun hc h => launch_loaderError hc ?_⟩
  by_cases he : e.valid c = true
  · obtain ⟨h1, h2, h3, h4, h5, h6, hseg⟩ := (Executable.valid_iff c e).1 he
    simp only [h1, h2, h3, h4, h5, h6, Bool.true_eq_false, ne_eq, not_true_eq_false, false_or] at h
    obtain ⟨g, hg, hbad⟩ | hstart := h
    · obtain ⟨hoff, hlo, hhi⟩ := hseg g hg
      simp only [hoff, Bool.true_eq_false, false_or] at hbad
      omega
    · exact .inr hstart
  · exact .inl (Bool.eq_false_of_not_eq_true he)

/-! ### The memory of the constructed core (R188) -/

/-- A segment's byte stands unless a later segment covers it. -/
theorem read_loadSegments_inside (m : Memory) (before after : List Segment) (g : Segment) {k : Nat}
    (hk : k < g.bytes.length)
    (h : ∀ x ∈ after, g.paddr + k < x.paddr ∨ x.paddr + x.bytes.length ≤ g.paddr + k) :
    (loadSegments m (before ++ g :: after)).read (g.paddr + k) = g.bytes[k] := by
  rw [loadSegments_append]
  exact (read_loadSegments_outside after _ h).trans (Memory.read_writeBytes_inside _ _ _ hk)

/-- Settles O2: the last segment over a byte gives it, and INIT_MEM gives the bytes that none covers. -/
theorem launchCopiesSegments : Obligations.LaunchCopiesSegments := by
  intro c initMem e t h
  obtain ⟨-, -, entry, -, rfl⟩ := launch_next h
  refine ⟨fun before after g k hk hsplit hafter => ?_, fun before after a b hsplit hother hr hout => ?_,
    fun a hout => read_loadSegments_outside _ _ hout⟩
  · rw [hsplit]
    exact read_loadSegments_inside _ before after g hk hafter
  · refine (read_loadSegments_outside _ _ hout).trans ?_
    rw [hsplit]
    exact read_initialMemory hr fun d hd => hother d (List.mem_append_right _ hd)

/-! ### The invariant of the constructed core -/

/-- Memory in its canonical form, with no address outside the region (`State.MemoryInv`, for a configuration). -/
def MemoryInvOf (c : Config) (m : Memory) : Prop := m.wf ∧ ∀ d ∈ m, c.InRange d.1 1

theorem memoryInvOf_write (h : MemoryInvOf c m) {a : Nat} (ha : c.InRange a 1) (b : Byte) :
    MemoryInvOf c (m.write a b) := by
  refine ⟨Memory.wf_write h.1 a b, fun d hd => ?_⟩
  obtain rfl | hd := Memory.mem_write hd
  · exact ha
  · exact h.2 d hd

theorem memoryInvOf_writeBytes (h : MemoryInvOf c m) {a : Nat} {bs : List Byte} (ha : c.InRange a bs.length) :
    MemoryInvOf c (m.writeBytes a bs) :=
  State.MemoryInv.writeBytes (s := State.constructed c m 0) h (.inr ha)

/-- INIT_MEM puts cells of the region alone into memory (U4). -/
theorem memoryInvOf_initialMemory (c : Config) (initMem : List Host.Cell) : MemoryInvOf c (initialMemory c initMem) := by
  refine List.foldlRecOn _ _ ⟨⟨.nil, nofun⟩, nofun⟩ fun m hm d hd => ?_
  exact memoryInvOf_write hm (of_decide_eq_true (List.mem_filter.1 hd).2) d.2

/-- Copying segments that fit in the region keeps memory canonical and inside it (R187, R188). -/
theorem memoryInvOf_loadSegments {segments : List Segment} (hm : MemoryInvOf c m)
    (h : ∀ g ∈ segments, c.InRange g.paddr g.bytes.length) : MemoryInvOf c (loadSegments m segments) :=
  List.foldlRecOn _ _ hm fun _ hm g hg => memoryInvOf_writeBytes hm (h g hg)

/-- Settles O5: memory from its two parts, INIT_MEM and the segments; the rest are the values of R36. -/
theorem launchMeetsInvariant : Obligations.LaunchMeetsInvariant := by
  intro c initMem e t h
  obtain ⟨hc, he, entry, -, rfl⟩ := launch_next h
  obtain ⟨-, -, -, -, -, -, hseg⟩ := (Executable.valid_iff c e).1 he
  constructor
  case config => exact hc
  case memory => exact memoryInvOf_loadSegments (memoryInvOf_initialMemory c initMem) fun g hg => (hseg g hg).2
  case zero => exact Vector.getElem_replicate _
  case flag => exact fun _ => rfl
  case files => rfl

end Sys2Proof.Machine
end

section
/-! SUPPORT. The driver's exit code (60_exceptions.md R155, R184). -/

namespace Sys2Proof.Machine

variable {s : State} {before : RunStatus} {answer : Host.Outcome State Fault Refusal}

/-- `LoaderError` is an answer of a launch, never of a step. -/
theorem step_ne_loaderError (s : State) : step s ≠ .refused .loaderError := by
  by_cases hc : s.cfg.valid = true
  · exact step_ne_refused hc _
  · rw [step_of_not_valid hc]
    exact nofun

/-- Apart from `LoaderError` the code is that of the run's status. -/
theorem driverExit_eq (h : answer ≠ .refused .loaderError) :
    driverExit before answer = (statusAfter before answer).bind RunStatus.exitCode := by
  unfold driverExit
  split
  · exact absurd rfl h
  · rfl

/-- A run that has ended keeps its status whatever is asked of it (10_state.md R33). -/
theorem statusAfter_of_ended (h : before ≠ .running) : statusAfter before answer = some before := by
  cases before with
  | running => exact absurd rfl h
  | _ => rfl

theorem driverExit_step_of_ended (h : s.runStatus ≠ .running) :
    driverExit s.runStatus (step s) = s.runStatus.exitCode := by
  rw [driverExit_eq (step_ne_loaderError s), statusAfter_of_ended h, Option.bind_some]

/-- Settles O55: a clause for each way a step of a running core ends, for each status of an ended run, and for a
launch that fails and one that does not. -/
theorem driverExitStatus : Obligations.DriverExitStatus := by
  refine ⟨fun s t i a0 a1 a2 h hx => ?_, fun s k hr hk => ?_, fun s hc hr hl => ?_, fun s u hr hu hrun => ?_,
    fun s => ⟨fun v hr => ?_, fun k hr => ?_, fun hr => ?_⟩, fun c initMem e hc => ⟨fun h => ?_, fun he hs => ?_⟩⟩
  · rw [h.step_of_exit hx, h.ready.running]; rfl
  · rw [hk, hr]; rfl
  · rw [step_of_limitReached hc hr hl, hr]; rfl
  · rw [hu, hr]
    exact congrArg RunStatus.exitCode hrun
  · rw [driverExit_step_of_ended (by simp [hr]), hr]; rfl
  · rw [driverExit_step_of_ended (by simp [hr]), hr]; rfl
  · rw [driverExit_step_of_ended (by simp [hr]), hr]; rfl
  · rw [launch_loaderError hc h]; rfl
  · obtain ⟨entry, hs⟩ := Option.ne_none_iff_exists'.1 hs
    rw [launch_eq_next hc he hs]; rfl

end Sys2Proof.Machine
end

section
/-! SUPPORT. The SYSTEM and MISC-MEM words (48_system_fence.md R150 to R152), and the sample words of
95_test_vectors.md. -/

namespace Sys2Proof.Machine

variable {w bits : Word}

/-- A row whose mask covers the opcode and the immediate fixes both (30_encoding.md R85). -/
theorem system_fields_of_matches (h : Matches w 0xFFF0007F bits) :
    opcodeOf w = opcodeOf bits ∧ immIOf w = immIOf bits :=
  ⟨field_of_match h 0 7 rfl, field_of_match h 20 12 rfl⟩

/-- Settles O38: the immediate selects ECALL or EBREAK, and the meaning of each is the state it starts from. -/
theorem ecallAndEbreakDoNothing : Obligations.EcallAndEbreakDoNothing := by
  refine ⟨fun w h => ?_, fun w h => ?_, fun _ => rfl, fun _ => rfl⟩ <;>
    obtain ⟨op, imm⟩ := system_fields_of_matches h
  · exact decode_eq_iff.2 (.ecall op imm)
  · exact decode_eq_iff.2 (.ebreak op imm)

/-- Settles O39: the opcode alone selects FENCE, and its meaning is the state it starts from. -/
theorem fenceDoesNothing : Obligations.FenceDoesNothing :=
  ⟨fun _ h => decode_eq_iff.2 (.fence (opcodeOf_of_matches h)), fun _ => rfl⟩

/-- Settles O14: eight fixed words, decoded. -/
theorem sampleWordsDecode : Obligations.SampleWordsDecode := by
  unfold Obligations.SampleWordsDecode
  decide

end Sys2Proof.Machine
end
